-- ==== Sys2Proof/Word.lean ====
section
/-! DEFINITION. The words of the block: 8-bit bytes, 20-bit payloads, 24-bit codes, the 3-byte frame and the
voltage value (00_scope.md R7, R9, R11; 30_encoding.md R79, R81). -/

namespace Sys2Proof

/-- One 8-bit wire word (`WORD_WIDTH` = 8, R7). -/
abbrev Byte := BitVec 8

/-- A 20-bit register payload (`NBITS` = 20, R7). -/
abbrev Payload := BitVec 20

/-- A 24-bit code (`CODE_WIDTH` = 24, R7, R71). -/
abbrev Code := BitVec 24

/-- A frame: one code as exactly three bytes, the most significant first (R11, R79). -/
structure Triple where
  b0 : Byte
  b1 : Byte
  b2 : Byte
  deriving DecidableEq, Repr, Inhabited

/-- A value offered as a voltage: a finite value is an exact rational (R110, R115); the three non-finite values a
binary64 operand can hold are named, because R116 says what happens to them. -/
inductive Volt where
  | fin (q : Rat)
  | nan
  | posInf
  | negInf
  deriving DecidableEq, Repr, Inhabited

end Sys2Proof
end

