-- ==== Sys2Proof/Config.lean ====
section
/-! DEFINITION. The fixed constants of the block, the parameters an implementation fixes (00_scope.md R7, R8;
93_implementation_defined.md U10 to U12) and the free values (93_implementation_defined.md U2 to U6, U8, U9, U13).
The parameters are collected in `Params`, which a state carries in a field that nothing writes, so that a claim over
all states is a claim for all parameters (assumption log 1). -/

namespace Sys2Proof

/-- Bit positions of the nine legal CONTROL bits (`CTRL_POS`, R8, R31, R74): six fields, LINCOMP four bits wide. -/
structure CtrlPos where
  rbuf     : Fin 20
  opgnd    : Fin 20
  dactri   : Fin 20
  bin2sc   : Fin 20
  sdodis   : Fin 20
  lincomp0 : Fin 20
  lincomp1 : Fin 20
  lincomp2 : Fin 20
  lincomp3 : Fin 20
  deriving DecidableEq, Repr, Inhabited

/-- The nine positions in one list. -/
def CtrlPos.positions (c : CtrlPos) : List (Fin 20) :=
  [c.rbuf, c.opgnd, c.dactri, c.bin2sc, c.sdodis, c.lincomp0, c.lincomp1, c.lincomp2, c.lincomp3]

/-- The default layout of R31 and R74 (PRESUMED by the spec itself, G1). -/
def CtrlPos.default : CtrlPos :=
  { rbuf := 1, opgnd := 2, dactri := 3, bin2sc := 4, sdodis := 5,
    lincomp0 := 6, lincomp1 := 7, lincomp2 := 8, lincomp3 := 9 }

/-- The implementation parameters of R7 and R8. -/
structure Params where
  /-- `VREFP`, the positive reference in volts (R7). -/
  vrefp : Rat
  /-- `VREFN`, the negative reference in volts (R7). -/
  vrefn : Rat
  /-- `CTRL_POS` (R8, U10). -/
  ctrlPos : CtrlPos
  /-- `MAX_BATCH` (R8, U11). -/
  maxBatch : Nat
  /-- `DEFER_INIT` (R8, U11). -/
  deferInit : Bool
  /-- `CLEAR_DEFAULT_V` (R8, U11). -/
  clearDefaultV : Volt
  /-- `SPI_SPEED` (R8, U11). -/
  spiSpeed : Nat
  /-- `DEV_PATH` (R8, U11). -/
  devPath : List Char
  /-- Which evaluation of the voltage map runs: `none` is the exact reading of R115; `some k` is the k-th pair
  (`V2C_F`, `C2V_F`) of the free family that R115 (a) to (d) bound (U12). -/
  voltEval : Option Nat
  deriving DecidableEq, Repr, Inhabited

/-- `VREFP` = 1000124/100000 V (R7). -/
def defaultVrefp : Rat := 1000124 / 100000

/-- `VREFN` = -999939/100000 V (R7). -/
def defaultVrefn : Rat := -999939 / 100000

/-- The default parameters: R7's constants, the default layout, and for each OPEN parameter of R8 a value named in
assumption log 2 (DESIGN CHOICE). -/
def Params.default : Params :=
  { vrefp := defaultVrefp, vrefn := defaultVrefn, ctrlPos := CtrlPos.default, maxBatch := 16,
    deferInit := false, clearDefaultV := .fin 0, spiSpeed := 1000000, devPath := [], voltEval := none }

/-- Whether a voltage lies inside the references, both bounds inside; a non-finite value does not (R110, R116). -/
def Params.inRange (P : Params) (v : Volt) : Bool :=
  match v with
  | .fin q => decide (P.vrefn ≤ q) && decide (q ≤ P.vrefp)
  | .nan => false
  | .posInf => false
  | .negInf => false

/-- The constraints the spec puts on the parameters: nine distinct CONTROL positions (R8), `MAX_BATCH >= 3` (R8),
`VREFN < VREFP` (R7), `CLEAR_DEFAULT_V` in `[VREFN, VREFP]` (R8, D19), a positive `SPI_SPEED` (R8). -/
def Params.ok (P : Params) : Bool :=
  decide P.ctrlPos.positions.Nodup && decide (3 ≤ P.maxBatch) && decide (P.vrefn < P.vrefp)
    && P.inRange P.clearDefaultV && decide (0 < P.spiSpeed)

/-- `FS` = 2^20 - 1 (R110). -/
def fullScale : Nat := 1048575

/-- Free value: the k-th unconstrained 24-bit draw (`draw` of R10; U2 to U6, U8). No body: nothing is known of it. -/
opaque Config.freeDraw : Nat → Code

/-- Free value: whether the peer answers `fail` to the line answered with draw number k (R217). -/
opaque Config.freeFails : Nat → Bool

/-- Free value: the triple an unconstrained peer answers to `RXQ` (R217). -/
opaque Config.freeTriple : Nat → Triple

/-- Free value: the integer answered to the speed query (R186, U13). -/
opaque Config.freeInt : Nat → Int

end Sys2Proof
end

