-- ==== Sys2Proof/Syntax.lean ====
section
/-! DEFINITION. The instructions: one constructor for each of the 55 rows of spec/opcode_table.json. The three
formats (30_encoding.md R70) keep their own name forms: `wire…` for the twelve W24 codes, plain names for the
twenty-nine host commands, `line…` for the fourteen transport lines. Beside them: the operand types of R81, the
packets an instruction arrives in, and the reasons a packet stands for no instruction. -/

namespace Sys2Proof

/-- The four DAC registers (10_state.md R29). -/
inductive Reg where
  | data
  | control
  | clear
  | soft
  deriving DecidableEq, Repr, Inhabited

/-- What is done with a slot's response (`exp` of R81, 10_state.md R25). -/
inductive Expect where
  /-- `NONE`: not fetched. -/
  | none
  /-- `RAW`: fetched and unpacked only. -/
  | raw
  /-- A register name: fetched, unpacked and checked with `DEC_READBACK`. -/
  | reg (r : Reg)
  deriving DecidableEq, Repr, Inhabited

/-- A transport line, kept as a constructor as R99 allows (R85 to R98). -/
inductive Line where
  | initDev (path : List Char)
  | setDef
  | setGet
  | setMode
  | setSpeed (k : Nat)
  | setWord
  | setSet
  | create (n : Nat)
  | stage (i : Nat) (t : Triple)
  | pass
  | rxq (i : Nat)
  | del
  | release
  | speedq
  deriving DecidableEq, Repr, Inhabited

/-- One constructor per row of the opcode table. -/
inductive Instr where
  -- format W24: codes the DAC receives (45_wire_commands.md R201 to R212)
  | wireNop
  | wireWrData (p : Payload)
  | wireWrControl (p : Payload)
  | wireWrClear (p : Payload)
  | wireWrSoft (p : Payload)
  | wireSoftLdac
  | wireSoftClear
  | wireSoftReset
  | wireRdData
  | wireRdControl
  | wireRdClear
  | wireRdSoft
  -- format CMD: host commands (30_encoding.md R82)
  | pack (code : Int)
  | unpack (w0 w1 w2 : Int)
  | hasBits (code mask : Code)
  | setBits (code mask : Code)
  | clearBits (code mask : Code)
  | c2v (code20 : Payload) (twoComplement : Bool)
  | v2c (v : Volt) (twoComplement : Bool)
  | encNop
  | encWrite (r : Reg) (p : Payload)
  | encRead (r : Reg)
  | decReadback (r : Reg) (code : Code)
  | regRead (r : Reg)
  | regWrite (r : Reg) (p : Payload)
  | getTristate
  | setTristate (b : Bool)
  | getOpgnd
  | setOpgnd (b : Bool)
  | softLdac
  | softReset
  | softClear
  | runBatch (frames : List Int) (expect : List Expect)
  | getVoltage
  | setVoltage (v : Volt)
  | getDefer
  | setDefer (b : Bool)
  | sessionOpen
  | sessionClose
  | getSpeed
  | setSpeed (k : Nat)
  -- format TXT: transport lines (30_encoding.md R85 to R98)
  | lineInitDev (path : List Char)
  | lineSetDef
  | lineSetGet
  | lineSetMode
  | lineSetSpeed (k : Nat)
  | lineSetWord
  | lineSetSet
  | lineCreate (n : Nat)
  | lineStage (i : Nat) (b0 b1 b2 : Byte)
  | linePass
  | lineRxq (i : Nat)
  | lineDel
  | lineRelease
  | lineSpeedq
  deriving DecidableEq, Repr, Inhabited

/-- The encoded form of an instruction. The three formats are told apart by the interface they arrive on, not by
their bits (R70): a frame on the DAC's serial input, a host command record (R81), a line of text (R84). -/
inductive Packet where
  /-- One W24 frame. -/
  | wire (t : Triple)
  /-- A host command: its number `cmd[7:0]` (R81) and its operand words. The spec gives operands no binary form
  (N28); the words are the model's own, an integer each (assumption log 3). -/
  | host (cmd : Byte) (operands : List Int)
  /-- A transport line without its terminator (R99). -/
  | line (text : List Char)
  deriving DecidableEq, Repr, Inhabited

/-- Why a packet stands for no instruction. -/
inductive DecodeError where
  /-- A W24 code with select 5, 6 or 7, or a read of select 0 (R76, R80, U1). -/
  | reservedSelect (c : Code)
  /-- A NOP or a read code with a payload that is not zero (R76, R80, U1). -/
  | reservedPayload (c : Code)
  /-- A command number outside the table of R82 (R83, R248 d). -/
  | reservedCommand (cmd : Byte)
  /-- An operand outside its type, or the wrong number of operands (R83, R248 d). -/
  | operandType (cmd : Byte)
  /-- A text that is none of the fourteen lines (R85 to R98). -/
  | unknownLine
  deriving DecidableEq, Repr, Inhabited

end Sys2Proof
end

