-- ==== Sys2Proof/Decode.lean ====
section
/-! DEFINITION. Decoding, total on every packet, and after it the encoder. Bit fields and byte order:
30_encoding.md R71, R76, R77, R79; host command numbers: R82, R83; transport lines: R85 to R99. -/

namespace Sys2Proof

/-! ### Bit fields and byte order of a code -/

/-- `PACK` of a 24-bit code: `(c[23:16], c[15:8], c[7:0])` (R54, R79, R100). -/
def packCode (c : Code) : Triple :=
  { b0 := c.extractLsb' 16 8, b1 := c.extractLsb' 8 8, b2 := c.extractLsb' 0 8 }

/-- `UNPACK` of three bytes (R101): `(b0 << 16) | (b1 << 8) | b2`. -/
def unpackBytes (t : Triple) : Code :=
  (t.b0.setWidth 24 <<< 16) ||| (t.b1.setWidth 24 <<< 8) ||| t.b2.setWidth 24

/-- `payload`, bits 19..0 (R71). -/
def payloadOf (c : Code) : Payload := c.extractLsb' 0 20

/-- `sel`, bits 22..20 (R71). -/
def selectOf (c : Code) : BitVec 3 := c.extractLsb' 20 3

/-- `rw`, bit 23: true for a read (R71). -/
def isRead (c : Code) : Bool := c.getLsbD 23

/-- Bits 23..20, which select a W24 command (R76). -/
def opcodeOf (c : Code) : BitVec 4 := c.extractLsb' 20 4

/-- A code from its top four bits and its payload (R77). -/
def codeOf (op : BitVec 4) (p : Payload) : Code := (op.setWidth 24 <<< 20) ||| p.setWidth 24

/-! ### Format W24 -/

/-- A code that must carry payload zero (R76: NOP and the four reads). -/
def noPayload (c : Code) (i : Instr) : Except DecodeError Instr :=
  if payloadOf c = 0 then .ok i else .error (.reservedPayload c)

/-- A SOFT write: the three single-bit payloads have rows of their own (R76, R206 to R208). -/
def softWrite (p : Payload) : Instr :=
  if p = 1#20 then .wireSoftLdac
  else if p = 2#20 then .wireSoftClear
  else if p = 4#20 then .wireSoftReset
  else .wireWrSoft p

/-- The W24 opcode map of R76, complete for the sixteen values of `c[23:20]`. -/
def decodeWire (c : Code) : Except DecodeError Instr :=
  match (opcodeOf c).toNat with
  | 0 => noPayload c .wireNop
  | 1 => .ok (.wireWrData (payloadOf c))
  | 2 => .ok (.wireWrControl (payloadOf c))
  | 3 => .ok (.wireWrClear (payloadOf c))
  | 4 => .ok (softWrite (payloadOf c))
  | 9 => noPayload c .wireRdData
  | 10 => noPayload c .wireRdControl
  | 11 => noPayload c .wireRdClear
  | 12 => noPayload c .wireRdSoft
  | _ => .error (.reservedSelect c)

/-! ### Format CMD: operand words -/

/-- A `w`-bit operand: the integer is in `[0, 2^w)` (R81). -/
def asBits (w : Nat) (k : Int) : Option (BitVec w) :=
  if 0 ≤ k ∧ k < 2 ^ w then some (BitVec.ofNat w k.toNat) else none

/-- A `bool` operand. -/
def asBool (k : Int) : Option Bool :=
  if k = 0 then some false else if k = 1 then some true else none

/-- A `reg` operand, numbered in the order DATA, CONTROL, CLEAR, SOFT from 0 (assumption log 3). -/
def asReg (k : Int) : Option Reg :=
  if k = 0 then some .data else if k = 1 then some .control
  else if k = 2 then some .clear else if k = 3 then some .soft else none

/-- An `exp` operand, numbered in the order of R81 from 0. -/
def asExpect (k : Int) : Option Expect :=
  if k = 0 then some .none else if k = 1 then some .raw else (asReg (k - 2)).map Expect.reg

/-- A list of `exp` operands. -/
def asExpects : List Int → Option (List Expect)
  | [] => some []
  | k :: ks =>
    match asExpect k, asExpects ks with
    | some x, some xs => some (x :: xs)
    | _, _ => none

/-- A `positive integer` operand: the word is one less than the value (assumption log 3). -/
def asPositive (k : Int) : Option Nat :=
  if 0 ≤ k then some (k.toNat + 1) else none

/-- A `volt` operand: a kind word, then numerator and (denominator minus one) of a finite value. -/
def asVolt (kind num den : Int) : Option Volt :=
  if kind = 0 then (asPositive den).map fun d => Volt.fin (mkRat num d)
  else if kind = 1 ∧ num = 0 ∧ den = 0 then some .nan
  else if kind = 2 ∧ num = 0 ∧ den = 0 then some .posInf
  else if kind = 3 ∧ num = 0 ∧ den = 0 then some .negInf
  else none

/-- A counted list at the front of the operand words: the list and what follows it. -/
def takeCounted : List Int → Option (List Int × List Int)
  | [] => none
  | n :: ws => if 0 ≤ n ∧ n.toNat ≤ ws.length then some (ws.take n.toNat, ws.drop n.toNat) else none

/-- The operands of `RUN_BATCH`: the counted frames, then the counted `exp` values. -/
def asBatch (ws : List Int) : Option Instr :=
  match takeCounted ws with
  | none => none
  | some (frames, rest) =>
    match takeCounted rest with
    | some (es, []) => (asExpects es).map fun xs => .runBatch frames xs
    | _ => none

/-- The value of an omitted `two_complement` operand of `C2V` and `V2C` (R82, R111, R112, D30). That it is omitted by
leaving out its operand word, the last one, is the model's choice (assumption log 3). -/
def defaultTwoComplement : Bool := true

/-- The host command of a number, or `none` where an operand is outside its type (R81 to R83). The outer `none` is a
reserved number. -/
def commandOf (cmd : Nat) (ws : List Int) : Option (Option Instr) :=
  match cmd with
  | 0x01 => some (match ws with | [c] => some (.pack c) | _ => none)
  | 0x02 => some (match ws with | [a, b, c] => some (.unpack a b c) | _ => none)
  | 0x03 => some (match ws with
      | [c, m] => (asBits 24 c).bind fun c' => (asBits 24 m).map fun m' => .hasBits c' m'
      | _ => none)
  | 0x04 => some (match ws with
      | [c, m] => (asBits 24 c).bind fun c' => (asBits 24 m).map fun m' => .setBits c' m'
      | _ => none)
  | 0x05 => some (match ws with
      | [c, m] => (asBits 24 c).bind fun c' => (asBits 24 m).map fun m' => .clearBits c' m'
      | _ => none)
  | 0x08 => some (match ws with
      | [p] => (asBits 20 p).map fun p' => .c2v p' defaultTwoComplement
      | [p, b] => (asBits 20 p).bind fun p' => (asBool b).map fun b' => .c2v p' b'
      | _ => none)
  | 0x09 => some (match ws with
      | [k, n, d] => (asVolt k n d).map fun v => .v2c v defaultTwoComplement
      | [k, n, d, b] => (asVolt k n d).bind fun v => (asBool b).map fun b' => .v2c v b'
      | _ => none)
  | 0x10 => some (match ws with | [] => some .encNop | _ => none)
  | 0x11 => some (match ws with
      | [r, p] => (asReg r).bind fun r' => (asBits 20 p).map fun p' => .encWrite r' p'
      | _ => none)
  | 0x12 => some (match ws with | [r] => (asReg r).map .encRead | _ => none)
  | 0x13 => some (match ws with
      | [r, c] => (asReg r).bind fun r' => (asBits 24 c).map fun c' => .decReadback r' c'
      | _ => none)
  | 0x18 => some (match ws with | [r] => (asReg r).map .regRead | _ => none)
  | 0x19 => some (match ws with
      | [r, p] => (asReg r).bind fun r' => (asBits 20 p).map fun p' => .regWrite r' p'
      | _ => none)
  | 0x1A => some (match ws with | [] => some .getTristate | _ => none)
  | 0x1B => some (match ws with | [b] => (asBool b).map .setTristate | _ => none)
  | 0x1C => some (match ws with | [] => some .getOpgnd | _ => none)
  | 0x1D => some (match ws with | [b] => (asBool b).map .setOpgnd | _ => none)
  | 0x1E => some (match ws with | [] => some .softLdac | _ => none)
  | 0x1F => some (match ws with | [] => some .softReset | _ => none)
  | 0x20 => some (match ws with | [] => some .softClear | _ => none)
  | 0x28 => some (asBatch ws)
  | 0x30 => some (match ws with | [] => some .getVoltage | _ => none)
  | 0x31 => some (match ws with | [k, n, d] => (asVolt k n d).map .setVoltage | _ => none)
  | 0x32 => some (match ws with | [] => some .getDefer | _ => none)
  | 0x33 => some (match ws with | [b] => (asBool b).map .setDefer | _ => none)
  | 0x38 => some (match ws with | [] => some .sessionOpen | _ => none)
  | 0x39 => some (match ws with | [] => some .sessionClose | _ => none)
  | 0x3A => some (match ws with | [] => some .getSpeed | _ => none)
  | 0x3B => some (match ws with | [k] => (asPositive k).map .setSpeed | _ => none)
  | _ => none

/-- A host command packet (R81 to R83). -/
def decodeHost (cmd : Byte) (ws : List Int) : Except DecodeError Instr :=
  match commandOf cmd.toNat ws with
  | none => .error (.reservedCommand cmd)
  | some none => .error (.operandType cmd)
  | some (some i) => .ok i

/-! ### Format TXT: reading a line (formats of R99) -/

/-- The double quote. -/
def quoteChar : Char := Char.ofNat 34

/-- The text after a literal, where the text begins with it. -/
def dropLit : List Char → List Char → Option (List Char)
  | [], s => some s
  | _ :: _, [] => none
  | l :: ls, c :: cs => if l = c then dropLit ls cs else none

/-- The value of a decimal digit. -/
def decVal (c : Char) : Option Nat :=
  if 48 ≤ c.toNat ∧ c.toNat ≤ 57 then some (c.toNat - 48) else none

/-- The value of an upper-case hexadecimal digit (R99). -/
def hexVal (c : Char) : Option Nat :=
  if 48 ≤ c.toNat ∧ c.toNat ≤ 57 then some (c.toNat - 48)
  else if 65 ≤ c.toNat ∧ c.toNat ≤ 70 then some (c.toNat - 55)
  else none

/-- All leading decimal digits read onto `acc`, and the text after them. -/
def readDigits : Nat → List Char → Nat × List Char
  | acc, [] => (acc, [])
  | acc, c :: cs =>
    match decVal c with
    | some d => readDigits (acc * 10 + d) cs
    | none => (acc, c :: cs)

/-- A decimal number without sign or leading zeros (R99), and the text after it. -/
def readDec : List Char → Option (Nat × List Char)
  | [] => none
  | c :: cs =>
    match decVal c with
    | none => none
    | some 0 =>
      match cs with
      | [] => some (0, [])
      | c' :: cs' => if (decVal c').isSome then none else some (0, c' :: cs')
    | some d => some (readDigits d cs)

/-- A decimal number that ends the text. -/
def readLastDec (s : List Char) : Option Nat :=
  match readDec s with
  | some (n, []) => some n
  | _ => none

/-- Two hexadecimal digits as a byte, and the text after them. -/
def readHex2 : List Char → Option (Byte × List Char)
  | h :: l :: cs =>
    match hexVal h, hexVal l with
    | some a, some b => some (BitVec.ofNat 8 (a * 16 + b), cs)
    | _, _ => none
  | _ => none

/-- The path of `SPI:INIT:DEV`, up to the closing quote, which ends the line (R85). -/
def readPath : List Char → Option (List Char)
  | [] => none
  | c :: cs =>
    if c = quoteChar then (if cs = [] then some [] else none)
    else (readPath cs).map fun p => c :: p

/-- The three words of a stage line after the first `#H` (R93). -/
def readWords (s : List Char) : Option Triple :=
  match readHex2 s with
  | none => none
  | some (b0, s1) =>
    match (dropLit ",#H".toList s1).bind readHex2 with
    | none => none
    | some (b1, s2) =>
      match (dropLit ",#H".toList s2).bind readHex2 with
      | some (b2, []) => some ⟨b0, b1, b2⟩
      | _ => none

/-- The lines `SPI:MSG<i>…`, after `SPI:MSG` (R93, R95). -/
def readMsg (s : List Char) : Option Line :=
  match readDec s with
  | none => none
  | some (i, rest) =>
    if rest = ":RX?".toList then some (.rxq i)
    else ((dropLit ":TX3:RX:CS #H".toList rest).bind readWords).map fun t => .stage i t

/-- The fourteen lines of R85 to R98. -/
def readLine (s : List Char) : Option Line :=
  if s = "SPI:SET:DEF".toList then some .setDef
  else if s = "SPI:SET:GET".toList then some .setGet
  else if s = "SPI:SET:MODE LIST".toList then some .setMode
  else if s = "SPI:SET:WORD 8".toList then some .setWord
  else if s = "SPI:SET:SET".toList then some .setSet
  else if s = "SPI:PASS".toList then some .pass
  else if s = "SPI:MSG:DEL".toList then some .del
  else if s = "SPI:RELEASE".toList then some .release
  else if s = "SPI:SET:SPEED?".toList then some .speedq
  else
    match dropLit ("SPI:INIT:DEV ".toList ++ [quoteChar]) s with
    | some r => (readPath r).map .initDev
    | none =>
      match dropLit "SPI:SET:SPEED ".toList s with
      | some r => (readLastDec r).map .setSpeed
      | none =>
        match dropLit "SPI:MSG:CREATE ".toList s with
        | some r => (readLastDec r).map .create
        | none =>
          match dropLit "SPI:MSG".toList s with
          | some r => readMsg r
          | none => none

/-- The instruction that stands for a line (the TXT rows of the table). -/
def lineInstr : Line → Instr
  | .initDev p => .lineInitDev p
  | .setDef => .lineSetDef
  | .setGet => .lineSetGet
  | .setMode => .lineSetMode
  | .setSpeed k => .lineSetSpeed k
  | .setWord => .lineSetWord
  | .setSet => .lineSetSet
  | .create n => .lineCreate n
  | .stage i t => .lineStage i t.b0 t.b1 t.b2
  | .pass => .linePass
  | .rxq i => .lineRxq i
  | .del => .lineDel
  | .release => .lineRelease
  | .speedq => .lineSpeedq

/-- A transport line. -/
def decodeLine (text : List Char) : Except DecodeError Instr :=
  match readLine text with
  | some l => .ok (lineInstr l)
  | none => .error .unknownLine

/-! ### The decoder -/

/-- Decoding, total on every packet. -/
def decode : Packet → Except DecodeError Instr
  | .wire t => decodeWire (unpackBytes t)
  | .host cmd ws => decodeHost cmd ws
  | .line text => decodeLine text

/-! ### The encoder -/

/-- The digit character of a value below sixteen (R99: upper case). -/
def digitChar (d : Nat) : Char := if d < 10 then Char.ofNat (48 + d) else Char.ofNat (55 + d)

/-- Decimal digits of `n`, most significant first; the first argument bounds their number. -/
def decDigits : Nat → Nat → List Char
  | 0, _ => []
  | fuel + 1, n => if n < 10 then [digitChar n] else decDigits fuel (n / 10) ++ [digitChar (n % 10)]

/-- A plain decimal (R99). -/
def printDec (n : Nat) : List Char := decDigits (n + 1) n

/-- Two upper-case hexadecimal digits (R99). -/
def printHex2 (b : Byte) : List Char := [digitChar (b.toNat / 16), digitChar (b.toNat % 16)]

/-- The text of a line (R85 to R98, formats of R99). -/
def printLine : Line → List Char
  | .initDev p => "SPI:INIT:DEV ".toList ++ [quoteChar] ++ p ++ [quoteChar]
  | .setDef => "SPI:SET:DEF".toList
  | .setGet => "SPI:SET:GET".toList
  | .setMode => "SPI:SET:MODE LIST".toList
  | .setSpeed k => "SPI:SET:SPEED ".toList ++ printDec k
  | .setWord => "SPI:SET:WORD 8".toList
  | .setSet => "SPI:SET:SET".toList
  | .create n => "SPI:MSG:CREATE ".toList ++ printDec n
  | .stage i t =>
    "SPI:MSG".toList ++ printDec i ++ ":TX3:RX:CS #H".toList ++ printHex2 t.b0 ++ ",#H".toList
      ++ printHex2 t.b1 ++ ",#H".toList ++ printHex2 t.b2
  | .pass => "SPI:PASS".toList
  | .rxq i => "SPI:MSG".toList ++ printDec i ++ ":RX?".toList
  | .del => "SPI:MSG:DEL".toList
  | .release => "SPI:RELEASE".toList
  | .speedq => "SPI:SET:SPEED?".toList

/-- A `reg` operand word. -/
def regWord : Reg → Int
  | .data => 0
  | .control => 1
  | .clear => 2
  | .soft => 3

/-- An `exp` operand word. -/
def expectWord : Expect → Int
  | .none => 0
  | .raw => 1
  | .reg r => regWord r + 2

/-- A `bool` operand word. -/
def boolWord (b : Bool) : Int := if b then 1 else 0

/-- The operand words of a voltage. -/
def voltWords : Volt → List Int
  | .fin q => [0, q.num, (q.den : Int) - 1]
  | .nan => [1, 0, 0]
  | .posInf => [2, 0, 0]
  | .negInf => [3, 0, 0]

/-- A W24 packet from the top four bits and the payload (R77, R79). -/
def wirePacket (op : BitVec 4) (p : Payload) : Packet := .wire (packCode (codeOf op p))

/-- The packet of an instruction, from the encoding tables R76, R82 and R85 to R98. -/
def encode : Instr → Packet
  | .wireNop => wirePacket 0x0#4 0
  | .wireWrData p => wirePacket 0x1#4 p
  | .wireWrControl p => wirePacket 0x2#4 p
  | .wireWrClear p => wirePacket 0x3#4 p
  | .wireWrSoft p => wirePacket 0x4#4 p
  | .wireSoftLdac => wirePacket 0x4#4 1#20
  | .wireSoftClear => wirePacket 0x4#4 2#20
  | .wireSoftReset => wirePacket 0x4#4 4#20
  | .wireRdData => wirePacket 0x9#4 0
  | .wireRdControl => wirePacket 0xA#4 0
  | .wireRdClear => wirePacket 0xB#4 0
  | .wireRdSoft => wirePacket 0xC#4 0
  | .pack c => .host 0x01#8 [c]
  | .unpack a b c => .host 0x02#8 [a, b, c]
  | .hasBits c m => .host 0x03#8 [c.toNat, m.toNat]
  | .setBits c m => .host 0x04#8 [c.toNat, m.toNat]
  | .clearBits c m => .host 0x05#8 [c.toNat, m.toNat]
  | .c2v p b => .host 0x08#8 [p.toNat, boolWord b]
  | .v2c v b => .host 0x09#8 (voltWords v ++ [boolWord b])
  | .encNop => .host 0x10#8 []
  | .encWrite r p => .host 0x11#8 [regWord r, p.toNat]
  | .encRead r => .host 0x12#8 [regWord r]
  | .decReadback r c => .host 0x13#8 [regWord r, c.toNat]
  | .regRead r => .host 0x18#8 [regWord r]
  | .regWrite r p => .host 0x19#8 [regWord r, p.toNat]
  | .getTristate => .host 0x1A#8 []
  | .setTristate b => .host 0x1B#8 [boolWord b]
  | .getOpgnd => .host 0x1C#8 []
  | .setOpgnd b => .host 0x1D#8 [boolWord b]
  | .softLdac => .host 0x1E#8 []
  | .softReset => .host 0x1F#8 []
  | .softClear => .host 0x20#8 []
  | .runBatch fs es => .host 0x28#8 ((fs.length : Int) :: fs ++ (es.length : Int) :: es.map expectWord)
  | .getVoltage => .host 0x30#8 []
  | .setVoltage v => .host 0x31#8 (voltWords v)
  | .getDefer => .host 0x32#8 []
  | .setDefer b => .host 0x33#8 [boolWord b]
  | .sessionOpen => .host 0x38#8 []
  | .sessionClose => .host 0x39#8 []
  | .getSpeed => .host 0x3A#8 []
  | .setSpeed k => .host 0x3B#8 [(k : Int) - 1]
  | .lineInitDev p => .line (printLine (.initDev p))
  | .lineSetDef => .line (printLine .setDef)
  | .lineSetGet => .line (printLine .setGet)
  | .lineSetMode => .line (printLine .setMode)
  | .lineSetSpeed k => .line (printLine (.setSpeed k))
  | .lineSetWord => .line (printLine .setWord)
  | .lineSetSet => .line (printLine .setSet)
  | .lineCreate n => .line (printLine (.create n))
  | .lineStage i b0 b1 b2 => .line (printLine (.stage i ⟨b0, b1, b2⟩))
  | .linePass => .line (printLine .pass)
  | .lineRxq i => .line (printLine (.rxq i))
  | .lineDel => .line (printLine .del)
  | .lineRelease => .line (printLine .release)
  | .lineSpeedq => .line (printLine .speedq)

/-! ### Table words -/

/-- How many operand words a command has when its lists are empty. -/
def operandCount (cmd : Nat) : Nat :=
  match cmd with
  | 0x01 | 0x12 | 0x18 | 0x1B | 0x1D | 0x33 | 0x3B => 1
  | 0x03 | 0x04 | 0x05 | 0x08 | 0x11 | 0x13 | 0x19 | 0x28 => 2
  | 0x02 | 0x31 => 3
  | 0x09 => 4
  | _ => 0

/-- The packet of a table word: a row of 24 bits is a W24 code, stored most significant byte first (R54); a row of 8
bits is a command number, followed by operand words of zeros. The table gives the transport lines no bits. -/
def tablePacket (nbits w : Nat) : Option Packet :=
  if nbits = 24 then some (.wire (packCode (BitVec.ofNat 24 w)))
  else if nbits = 8 then some (.host (BitVec.ofNat 8 w) (List.replicate (operandCount (w % 256)) 0))
  else none

/-- The instruction the decoder reads from a table word. -/
def decodeTableWord (nbits w : Nat) : Option Instr :=
  match tablePacket nbits w with
  | none => none
  | some p =>
    match decode p with
    | .ok i => some i
    | .error _ => none

end Sys2Proof
end

