-- ==== Sys2Proof/Machine/State.lean ====
section
/-! DEFINITION. The state of the machine as plain data (10_state.md R21 to R40, 45_wire_commands.md R213), the error
kinds (60_exceptions.md R230 to R235), completions (30_encoding.md R81), and the reasons a step can stop. -/

namespace Sys2Proof.Machine

/-! ### Errors and completions -/

/-- What a `RangeError` records: the offending value, with its index where the rule gives one (R231). -/
inductive RangeInfo where
  /-- The operand of `PACK`. -/
  | code (v : Int)
  /-- Word `k` of `UNPACK`. -/
  | word (k : Nat) (v : Int)
  /-- Frame `i` of `RUN_BATCH`. -/
  | frame (i : Nat) (v : Int)
  /-- A voltage. -/
  | volt (v : Volt)
  deriving DecidableEq, Repr, Inhabited

/-- Which check of `DEC_READBACK` failed (R124, R233). -/
inductive ProtocolCheck where
  | selectMismatch
  | maskViolation
  deriving DecidableEq, Repr, Inhabited

/-- An error with what it records (R230 to R234). -/
inductive Err where
  | rangeError (info : RangeInfo)
  | invalidPayload (r : Reg) (bits : Payload)
  | protocolError (check : ProtocolCheck) (r : Reg) (code : Code)
  | transportError (l : Line)
  deriving DecidableEq, Repr, Inhabited

/-- The value of an `ok` completion (R82, column "value on ok"). -/
inductive Value where
  | none
  | bytes (t : Triple)
  | code (c : Code)
  | payload (p : Payload)
  | bool (b : Bool)
  | volt (q : Rat)
  | int (k : Int)
  | codes (l : List (Option Code))
  deriving DecidableEq, Repr, Inhabited

/-- The completion of a host command: `ok(value)` or `err(kind, info)` (R81). -/
inductive Completion where
  | ok (v : Value)
  | err (e : Err)
  deriving DecidableEq, Repr, Inhabited

/-! ### The peer -/

/-- The peer's answer to a line: `ok`, `ok(value)` or `fail` (R84). -/
inductive Answer where
  | ok
  /-- The triple a `RXQ` line is answered with (R95). -/
  | bytes (t : Triple)
  /-- The integer a `SPEEDQ` line is answered with (R98, R186). -/
  | int (k : Int)
  | fail
  deriving DecidableEq, Repr, Inhabited

/-- A transport event with its answer: one entry of `S.trace` (R27). -/
structure Event where
  line   : Line
  answer : Answer
  deriving DecidableEq, Repr, Inhabited

/-- The DAC: `x[1]`, `x[2]`, `x[3]`, `P.out`, `P.sdo` (R36, R37, R213). -/
structure Dac where
  /-- `x[1]`, DATA. -/
  data    : Payload
  /-- `x[2]`, CONTROL. -/
  control : Payload
  /-- `x[3]`, CLEAR. -/
  clear   : Payload
  /-- `P.out`, the code driving the analog output. -/
  out     : Payload
  /-- `P.sdo`, the code shifted out during the next frame. -/
  sdo     : Code
  deriving DecidableEq, Repr, Inhabited

/-- What the setup lines have recorded at the bridge (R216: "record the setting"). -/
structure Settings where
  dev     : Option (List Char)
  setDef  : Bool
  setGet  : Bool
  setMode : Bool
  speed   : Option Nat
  setWord : Bool
  setSet  : Bool
  deriving DecidableEq, Repr, Inhabited

/-- The bridge: `P.open`, `P.n`, `P.tx`, `P.rx`, `P.claimed` and the recorded settings (R37, R213, R216). -/
structure Bridge where
  isOpen   : Bool
  n        : Nat
  tx       : List (Option Triple)
  rx       : List (Option Triple)
  claimed  : Bool
  settings : Settings
  deriving DecidableEq, Repr, Inhabited

/-- Transport, bridge and DAC together (R20). -/
structure Peer where
  bridge : Bridge
  dac    : Dac
  deriving DecidableEq, Repr, Inhabited

/-- Which of the two peers of 45_wire_commands.md answers. -/
inductive PeerMode where
  /-- The unconstrained peer (R217). -/
  | unconstrained
  /-- The reference peer (R213 to R216). -/
  | reference
  deriving DecidableEq, Repr, Inhabited

/-- One entry of the peer's input queue: what the peer will answer to a line (R38: "the peer's answers, which are
inputs of each step"). -/
inductive Reply where
  /-- The peer's own answer: free for the unconstrained peer, that of R214 and R216 for the reference peer. -/
  | own
  /-- An acknowledgement without a value. -/
  | ok
  /-- A line of text, read as the answer of a `RXQ` line (R95, D25). -/
  | text (s : List Char)
  /-- An integer, read as the answer of a `SPEEDQ` line. -/
  | int (k : Int)
  /-- The channel failed (R84, R234). -/
  | fail
  deriving DecidableEq, Repr, Inhabited

/-- Everything outside the block: the peer, and the inputs that fix what the rules leave free. -/
structure Env where
  mode       : PeerMode
  peer       : Peer
  /-- Answers still to come; when the list is empty every answer is `Reply.own`. -/
  replies    : List Reply
  /-- Draws a test has fixed (R215: "a test may fix it"); when the list is empty a draw is a free value. -/
  fixedDraws : List Code
  /-- MODEL'S OWN: the number of free values taken so far; the next one is the opaque constant applied to it. -/
  draws      : Nat
  deriving DecidableEq, Repr, Inhabited

/-! ### The block -/

/-- `S.sess` (R22). -/
inductive Session where
  | closed
  | claimed
  deriving DecidableEq, Repr, Inhabited

/-- `S.seq.phase` (R24). -/
inductive Phase where
  | idle
  | staging
  | committed
  deriving DecidableEq, Repr, Inhabited

/-- `S.seq`, the sequencer's working state (R21, R24 to R26). -/
structure Seq where
  phase  : Phase
  n      : Nat
  tx     : List Triple
  expect : List Expect
  result : List (Option Code)
  ptr    : Nat
  fptr   : Nat
  err    : Option Err
  deriving DecidableEq, Repr, Inhabited

/-- The idle sequencer. U7 lets a model clear the working fields at `SEQ_END` (assumption log 5). -/
def Seq.idle : Seq :=
  { phase := .idle, n := 0, tx := [], expect := [], result := [], ptr := 0, fptr := 0, err := none }

/-- The whole machine: block, peer and host interface. -/
structure State where
  /-- The parameters of R7 and R8; no step writes them (R38, assumption log 1). -/
  params     : Params
  /-- `S.sess` (R22). -/
  sess       : Session
  /-- `S.defer` (R23). -/
  defer      : Bool
  /-- `S.seq` (R24 to R26). -/
  seq        : Seq
  /-- `S.trace` (R27). -/
  trace      : List Event
  /-- The completion of the last command that completed (R81); `none` before the first. -/
  completion : Option Completion
  /-- Peer and inputs (R37, R38, R213). -/
  env        : Env
  /-- Packets that wait to be executed, the next one first (R20: the host issues one command at a time). -/
  inbox      : List Packet
  deriving DecidableEq, Repr, Inhabited

/-- Why the machine stops with a fault. -/
inductive Fault where
  /-- A slot of `TX` or `RX` that does not exist: no batch is open, or the index is not below `S.seq.n` (R50:
  "`TX` and `RX` exist only while a batch is open"). Raised by the lines `STAGE` and `RXQ` alone. SAFE: the spec
  gives such an access no effect. -/
  | noSlot (i : Nat)
  deriving DecidableEq, Repr, Inhabited

/-- Why a packet or an instruction is refused: R248, "gives no completion, changes no state, emits no line". All are
SAFE: a claim about a run with a refusal says nothing. -/
inductive Refusal where
  /-- The instruction has no meaning in the model. Raised by no arm. -/
  | notModelled (mnemonic : String)
  /-- A command while `S.seq.phase` is not `IDLE` (R248 a). Raised by every host command and by the lines that are no
  step of an open batch. -/
  | busy
  /-- An I/O command without a session (R248 b). Raised by the I/O commands and the line `CREATE`. -/
  | sessionClosed
  /-- `SESSION_OPEN` while the session is claimed (R248 b). -/
  | sessionClaimed
  /-- A batch of size 0, above `MAX_BATCH`, or with lists of different lengths (R248 c). Raised by `RUN_BATCH` and
  the line `CREATE`. -/
  | batchSize
  /-- An operand outside its type (R248 d). Raised by `SET_SPEED` with 0. -/
  | operandType
  /-- A sequencer line where the transition table of R162 has no such transition. Raised by the lines `STAGE`,
  `PASS`, `RXQ` and `DEL`. -/
  | outOfOrder
  /-- A packet that stands for no instruction (R80, R83, R248 d). Raised by the step alone. -/
  | undecodable (why : DecodeError)
  deriving DecidableEq, Repr, Inhabited

/-- The DAC at reset: every value a draw, CONTROL inside its legal mask (R213); "a model must not assume zero" (R39, U5,
assumption log 4). The mask is `MASK_CONTROL` of the default layout, which the reset state carries (R31). -/
def Dac.reset : Dac :=
  { data := (Config.freeDraw 0).extractLsb' 0 20
    control := (Config.freeDraw 1).extractLsb' 0 20 &&& 0x003FE#20
    clear := (Config.freeDraw 2).extractLsb' 0 20
    out := (Config.freeDraw 3).extractLsb' 0 20
    sdo := Config.freeDraw 4 }

/-- The bridge at reset: not claimed, no batch open (R213); nothing recorded. -/
def Bridge.reset : Bridge :=
  { isOpen := false, n := 0, tx := [], rx := [], claimed := false,
    settings := { dev := none, setDef := false, setGet := false, setMode := false, speed := none, setWord := false,
                  setSet := false } }

/-- The machine right after reset (R39, R260): `CLOSED`, `IDLE`, `S.defer = DEFER_INIT`, empty trace. -/
def State.reset : State :=
  { params := Params.default
    sess := .closed
    defer := Params.default.deferInit
    seq := Seq.idle
    trace := []
    completion := none
    env := { mode := .unconstrained, peer := { bridge := Bridge.reset, dac := Dac.reset }, replies := [],
             fixedDraws := [], draws := 5 }
    inbox := [] }

end Sys2Proof.Machine

namespace Sys2Proof

/-- Free value: a whole peer, of which nothing is known (R217: the unconstrained peer "has no state the block can rely
on"; U6, U9: what a failed line leaves). No body. -/
opaque Config.freePeer : Nat → Machine.Peer

end Sys2Proof
end

