-- ==== Sys2Proof/Machine/Operands.lean ====
section
/-! DEFINITION. Operand assembly: register constants (42_register_model.md R120), the encoders and the decoder of
codes (R121 to R124), `PACK` and `UNPACK` with their range checks (40_codec.md R100, R101, R107). -/

namespace Sys2Proof.Machine

/-! ### Register constants (R120) -/

/-- `SEL(R)` (R29, R120). -/
def selectCode : Reg → BitVec 3
  | .data => 1#3
  | .control => 2#3
  | .clear => 3#3
  | .soft => 4#3

/-- `SELC(R) = SEL(R) << 20` (R72, R120). -/
def selectBits (r : Reg) : Code := (selectCode r).setWidth 24 <<< 20

/-- A payload with the one bit `i` set. -/
def payloadBit (i : Fin 20) : Payload := 1#20 <<< i.val

/-- `MASK_CONTROL`, the or of the nine bits of `CTRL_POS` (R31, R74). -/
def controlMask (P : Params) : Payload :=
  P.ctrlPos.positions.foldl (fun m i => m ||| payloadBit i) 0

/-- `MASK(R)` (R73, R120). -/
def regMask (P : Params) : Reg → Payload
  | .data => 0xFFFFF#20
  | .control => controlMask P
  | .clear => 0xFFFFF#20
  | .soft => 0x00007#20

/-- `OP_READ` (R72). -/
def opRead : Code := 0x800000#24

/-- `SOFT_LDAC_BIT` (R75). -/
def softLdacBit : Payload := 0x1#20

/-- `SOFT_CLEAR_BIT` (R75). -/
def softClearBit : Payload := 0x2#20

/-- `SOFT_RESET_BIT` (R75). -/
def softResetBit : Payload := 0x4#20

/-! ### Encoders and decoder (R121 to R124) -/

/-- `ENC_NOP` (R121). -/
def encNop : Code := 0x000000#24

/-- The write code `OP_WRITE | SELC(R) | p` of a payload that has passed its check (R77). -/
def writeCode (r : Reg) (p : Payload) : Code := selectBits r ||| p.setWidth 24

/-- `ENC_WRITE` (R122): the payload is rejected, never trimmed. -/
def encWrite (P : Params) (r : Reg) (p : Payload) : Except Err Code :=
  if p &&& regMask P r = p then .ok (writeCode r p) else .error (.invalidPayload r (p &&& ~~~ regMask P r))

/-- `ENC_READ` (R123). -/
def encRead (r : Reg) : Code := opRead ||| selectBits r

/-- `DEC_READBACK` (R124): the select check precedes the mask check; bit 23 is not examined. -/
def decReadback (P : Params) (r : Reg) (c : Code) : Except Err Payload :=
  if selectOf c ≠ selectCode r then .error (.protocolError .selectMismatch r c)
  else if payloadOf c &&& regMask P r ≠ payloadOf c then .error (.protocolError .maskViolation r c)
  else .ok (payloadOf c)

/-! ### `PACK` and `UNPACK` -/

/-- Whether an integer is in `[0, 2^24)`. -/
def isCode24 (k : Int) : Bool := decide (0 ≤ k) && decide (k < 16777216)

/-- Whether an integer is in `[0, 256)`. -/
def isByte (k : Int) : Bool := decide (0 ≤ k) && decide (k < 256)

/-- `PACK` (R100): the check precedes everything. -/
def pack (k : Int) : Except Err Triple :=
  if isCode24 k then .ok (packCode (BitVec.ofInt 24 k)) else .error (.rangeError (.code k))

/-- `UNPACK` (R101): the first word out of range is the one reported. -/
def unpack (w0 w1 w2 : Int) : Except Err Code :=
  if isByte w0 then
    if isByte w1 then
      if isByte w2 then .ok (unpackBytes ⟨BitVec.ofInt 8 w0, BitVec.ofInt 8 w1, BitVec.ofInt 8 w2⟩)
      else .error (.rangeError (.word 2 w2))
    else .error (.rangeError (.word 1 w1))
  else .error (.rangeError (.word 0 w0))

/-- `PACK` of every frame of a batch, from index `i`; the first bad frame in list order is reported (R151, R238). -/
def packFrames : Nat → List Int → Except Err (List Triple)
  | _, [] => .ok []
  | i, k :: ks =>
    if isCode24 k then (packFrames (i + 1) ks).map fun ts => packCode (BitVec.ofInt 24 k) :: ts
    else .error (.rangeError (.frame i k))

/-- `PACK` for other widths (R107), recorded beside the fixed one: word `k` of `count` words of `width` bits. -/
def packWords (width count : Nat) (code : Int) : Option (List Nat) :=
  if 0 ≤ code ∧ code < 2 ^ (width * count) then
    some ((List.range count).map fun k => (code.toNat >>> (width * (count - 1 - k))) % 2 ^ width)
  else none

/-! ### Error kinds -/

/-- The error numbers of R235, 1 to 4 (0 is "no error"). -/
def errNumber : Err → Nat
  | .rangeError _ => 1
  | .invalidPayload _ _ => 2
  | .protocolError _ _ _ => 3
  | .transportError _ => 4

end Sys2Proof.Machine
end

