-- ==== Sys2Proof/Machine/Flags.lean ====
section
/-! DEFINITION. The bit helpers (40_codec.md R103 to R105) and the two flags that are views of one CONTROL bit each
(10_state.md R35). -/

namespace Sys2Proof.Machine

/-- `HAS_BITS`: every bit of the mask is set (R103). -/
def hasBits {w : Nat} (c m : BitVec w) : Bool := c &&& m == m

/-- `SET_BITS` (R104). -/
def setBits {w : Nat} (c m : BitVec w) : BitVec w := c ||| m

/-- `CLEAR_BITS` (R105): the complement is taken within the width. -/
def clearBits {w : Nat} (c m : BitVec w) : BitVec w := c &&& ~~~ m

/-- The DACTRI bit of a CONTROL payload, the `tristate` flag (R31, R35). -/
def tristateBit (P : Params) : Payload := payloadBit P.ctrlPos.dactri

/-- The OPGND bit of a CONTROL payload, the `op_gnd` flag (R31, R35). -/
def opgndBit (P : Params) : Payload := payloadBit P.ctrlPos.opgnd

/-- A CONTROL payload with the flag bit `m` set or cleared and then masked to the legal bits (R128). -/
def withFlag (P : Params) (m : Payload) (b : Bool) (p : Payload) : Payload :=
  (if b then setBits p m else clearBits p m) &&& regMask P .control

end Sys2Proof.Machine
end

