-- ==== Sys2Proof/Machine/Dac.lean ====
section
/-! DEFINITION. What the DAC does with one frame (45_wire_commands.md R201 to R212, R215;
93_implementation_defined.md U1 to U5), as operations on the environment, whose draws they take. -/

namespace Sys2Proof.Machine

/-- One draw (R10): a value the test has fixed, or else the next free value. -/
def Env.draw (e : Env) : Code × Env :=
  match e.fixedDraws with
  | d :: ds => (d, { e with fixedDraws := ds })
  | [] => (Config.freeDraw e.draws, { e with draws := e.draws + 1 })

/-- The DAC of the environment. -/
def Env.dac (e : Env) : Dac := e.peer.dac

/-- The environment with another DAC. -/
def Env.setDac (e : Env) (d : Dac) : Env := { e with peer := { e.peer with dac := d } }

/-- The value shifted out next becomes a draw (R215: "P.sdo <- draw"). -/
def Env.drawSdo (e : Env) : Env := e.draw.2.setDac { e.draw.2.dac with sdo := e.draw.1 }

/-- `x[s]` (R10). SOFT stores nothing (R33, R205): it reads as zero, and no operation asks for it. -/
def Dac.read (d : Dac) : Reg → Payload
  | .data => d.data
  | .control => d.control
  | .clear => d.clear
  | .soft => 0

/-- `x[s] <- v` (R10). -/
def Dac.write (d : Dac) (r : Reg) (v : Payload) : Dac :=
  match r with
  | .data => { d with data := v }
  | .control => { d with control := v }
  | .clear => { d with clear := v }
  | .soft => d

/-- NOP: no register is addressed (R201, R215). -/
def dacNop (e : Env) : Env := e.drawSdo

/-- A write to DATA, CONTROL or CLEAR: `x[s] <- p & MASK(s)` (R202 to R204, R215). -/
def dacWrite (P : Params) (r : Reg) (p : Payload) (e : Env) : Env :=
  (e.setDac (e.dac.write r (p &&& regMask P r))).drawSdo

/-- DATA, CONTROL, CLEAR and the output become draws, each register inside its mask (R215, U4). -/
def drawRegisters (P : Params) (e : Env) : Env :=
  let d1 := e.draw
  let d2 := d1.2.draw
  let d3 := d2.2.draw
  let d4 := d3.2.draw
  d4.2.setDac
    { d4.2.dac with
      data := payloadOf d1.1 &&& regMask P .data
      control := payloadOf d2.1 &&& regMask P .control
      clear := payloadOf d3.1 &&& regMask P .clear
      out := payloadOf d4.1 }

/-- LDAC: the output takes DATA (R206, R215). -/
def dacLdac (e : Env) : Env := e.setDac { e.dac with out := e.dac.data }

/-- A SOFT write: bit 0 pulses LDAC, bit 1 CLEAR, bit 2 RESET; nothing is stored (R205, R215, U4). -/
def dacSoft (P : Params) (p : Payload) (e : Env) : Env :=
  let e1 := if p.getLsbD 0 then dacLdac e else e
  let e2 := if p.getLsbD 1 || p.getLsbD 2 then drawRegisters P e1 else e1
  e2.drawSdo

/-- The answer to a read: a drawn bit 23, the select code, the register (R209 to R211, R215, D8). -/
def readAnswer (bit23 : Code) (r : Reg) (v : Payload) : Code :=
  (bit23 &&& opRead) ||| selectBits r ||| v.setWidth 24

/-- A read of DATA, CONTROL or CLEAR: the answer is shifted out during the next frame (R209 to R211, R215). -/
def dacRead (r : Reg) (e : Env) : Env :=
  e.draw.2.setDac { e.draw.2.dac with sdo := readAnswer e.draw.1 r (e.dac.read r) }

/-- A read of SOFT: what is answered is not in the source (R212, R215, U3). -/
def dacReadSoft (e : Env) : Env := e.drawSdo

/-- A reserved code inside a committed batch: nothing is known of the DAC after it (U1, assumption log 8). -/
def dacUnknown (e : Env) : Env :=
  { e with peer := { e.peer with dac := (Config.freePeer e.draws).dac }, draws := e.draws + 1 }

/-- A NOP or a read inside a committed batch: with a payload that is not zero the code is reserved (R76, R80, U1). -/
def dacNoPayload (c : Code) (f : Env → Env) (e : Env) : Env := if payloadOf c = 0 then f e else dacUnknown e

/-- The DAC executes one frame of a committed batch: the cases (`rw`, `sel`) of R215. -/
def dacFrame (P : Params) (c : Code) (e : Env) : Env :=
  match (opcodeOf c).toNat with
  | 0 => dacNoPayload c dacNop e
  | 1 => dacWrite P .data (payloadOf c) e
  | 2 => dacWrite P .control (payloadOf c) e
  | 3 => dacWrite P .clear (payloadOf c) e
  | 4 => dacSoft P (payloadOf c) e
  | 9 => dacNoPayload c (dacRead .data) e
  | 10 => dacNoPayload c (dacRead .control) e
  | 11 => dacNoPayload c (dacRead .clear) e
  | 12 => dacNoPayload c dacReadSoft e
  | _ => dacUnknown e

end Sys2Proof.Machine
end

