-- ==== Sys2Proof/Machine/Bridge.lean ====
section
/-! DEFINITION. The peer's answer to one transport line: the unconstrained peer (45_wire_commands.md R217) and the
reference peer (R214, R216), with the answers and failures a test has named. -/

namespace Sys2Proof.Machine

/-! ### Reading an answer -/

/-- Three decimal integers in braces, separated by commas (R95). -/
def readTriple (s : List Char) : Option Triple :=
  match s with
  | [] => none
  | c :: s0 =>
    if c ≠ Char.ofNat 123 then none
    else
      match readByte s0 with
      | none => none
      | some (b0, s1) =>
        match (dropLit [','] s1).bind readByte with
        | none => none
        | some (b1, s2) =>
          match (dropLit [','] s2).bind readByte with
          | some (b2, [d]) => if d = Char.ofNat 125 then some ⟨b0, b1, b2⟩ else none
          | _ => none
where
  /-- A decimal integer in `0..255`, and the text after it; leading zeros are read (assumption log 9). -/
  readByte : List Char → Option (Byte × List Char)
    | [] => none
    | c :: cs =>
      match decVal c with
      | none => none
      | some d =>
        if (readDigits d cs).1 < 256 then some (BitVec.ofNat 8 (readDigits d cs).1, (readDigits d cs).2) else none

/-- How the block reads a reply to a line (R84, R95, R98, D25). `Reply.own` never gets here; it reads as `fail`. That
any reply to the speed query but an integer (a text, a bare `ok`) reads as `fail` is the model's choice: the spec leaves
the format of that answer open (N17, D28, U13; assumption log 9). -/
def readReply (l : Line) (r : Reply) : Answer :=
  match l, r with
  | _, .fail => .fail
  | _, .own => .fail
  | .rxq _, .text s =>
    match readTriple s with
    | some t => .bytes t
    | none => .fail
  | .rxq _, _ => .fail
  | .speedq, .int k => .int k
  | .speedq, _ => .fail
  | _, _ => .ok

/-! ### The unconstrained peer (R217) -/

/-- A free answer: `ok` or `fail` to a command line, a value or `fail` to a query line. -/
def freeAnswer (l : Line) (k : Nat) : Answer :=
  if Config.freeFails k then .fail
  else
    match l with
    | .rxq _ => .bytes (Config.freeTriple k)
    | .speedq => .int (Config.freeInt k)
    | _ => .ok

/-- The unconstrained peer answers; nothing is known of its state afterwards. -/
def unconstrainedAnswer (l : Line) (r : Reply) (e : Env) : Answer × Env :=
  (if r = .own then freeAnswer l e.draws else readReply l r,
   { e with peer := Config.freePeer e.draws, draws := e.draws + 1 })

/-! ### The reference peer (R214, R216) -/

/-- The environment with another bridge. -/
def Env.setBridge (e : Env) (b : Bridge) : Env := { e with peer := { e.peer with bridge := b } }

/-- The environment with other recorded settings. -/
def Env.setSettings (e : Env) (f : Settings → Settings) : Env :=
  e.setBridge { e.peer.bridge with settings := f e.peer.bridge.settings }

/-- The frames of a committed batch, in slot order: slot `i` receives what the DAC shifts out, then the DAC executes
frame `i` (R214). A slot that holds no frame transfers nothing. -/
def transfer (P : Params) : List (Option Triple) → Env → List (Option Triple) × Env
  | [], e => ([], e)
  | none :: ts, e =>
    let r := transfer P ts e
    (none :: r.1, r.2)
  | some t :: ts, e =>
    let r := transfer P ts (dacFrame P (unpackBytes t) e)
    (some (packCode e.dac.sdo) :: r.1, r.2)

/-- `PASS`: at the start of the assertion `P.sdo <- draw`, then the frames (R214). -/
def passBatch (P : Params) (e : Env) : Env :=
  let r := transfer P e.peer.bridge.tx e.drawSdo
  r.2.setBridge { r.2.peer.bridge with rx := r.1 }

/-- What the reference peer answers to a line and does with it (R214, R216). R214 says of `DEL` that the batch is no
longer open and its slots are dropped; that `P.n` is 0 then is the model's choice (assumption log 21). R214 says of
`RXQ(i)` that the answer is `P.rx[i]`; that it is a fresh draw where that slot is empty or absent is the model's choice
(DESIGN CHOICE, assumption log 22). -/
def referenceLine (P : Params) (l : Line) (e : Env) : Answer × Env :=
  match l with
  | .initDev path =>
    (.ok, e.setBridge { e.peer.bridge with
      claimed := true, settings := { e.peer.bridge.settings with dev := some path } })
  | .setDef => (.ok, e.setSettings fun c => { c with setDef := true })
  | .setGet => (.ok, e.setSettings fun c => { c with setGet := true })
  | .setMode => (.ok, e.setSettings fun c => { c with setMode := true })
  | .setSpeed k => (.ok, e.setSettings fun c => { c with speed := some k })
  | .setWord => (.ok, e.setSettings fun c => { c with setWord := true })
  | .setSet => (.ok, e.setSettings fun c => { c with setSet := true })
  | .create n =>
    (.ok, e.setBridge { e.peer.bridge with
      isOpen := true, n := n, tx := List.replicate n none, rx := List.replicate n none })
  | .stage i t => (.ok, e.setBridge { e.peer.bridge with tx := e.peer.bridge.tx.set i (some t) })
  | .pass => (.ok, passBatch P e)
  | .rxq i =>
    match e.peer.bridge.rx[i]? with
    | some (some t) => (.bytes t, e)
    | _ => (.bytes (packCode e.draw.1), e.draw.2)
  | .del => (.ok, e.setBridge { e.peer.bridge with isOpen := false, n := 0, tx := [], rx := [] })
  | .release => (.ok, e.setBridge { e.peer.bridge with claimed := false })
  | .speedq =>
    match e.peer.bridge.settings.speed with
    | some k => (.int k, e)
    | none => (.int (Config.freeInt e.draws), { e with draws := e.draws + 1 })

/-- Nothing is known of the bridge's batch (U9). -/
def batchUnknown (e : Env) : Env :=
  let f := (Config.freePeer e.draws).bridge
  { e with
    peer := { e.peer with bridge := { e.peer.bridge with isOpen := f.isOpen, n := f.n, tx := f.tx, rx := f.rx } }
    draws := e.draws + 1 }

/-- Nothing is known of the frames the bridge holds after a failed `STAGE`; nothing has been transferred. -/
def framesUnknown (e : Env) : Env :=
  { e with
    peer := { e.peer with bridge := { e.peer.bridge with tx := (Config.freePeer e.draws).bridge.tx } }
    draws := e.draws + 1 }

/-- Nothing is known of what a failed setup or release line left at the bridge. -/
def linkUnknown (e : Env) : Env :=
  let f := (Config.freePeer e.draws).bridge
  { e with
    peer := { e.peer with bridge := { e.peer.bridge with claimed := f.claimed, settings := f.settings } }
    draws := e.draws + 1 }

/-- Whether frames of the open batch have been transferred: some receive slot has been filled (R214). -/
def Bridge.transferred (b : Bridge) : Bool := b.rx.any Option.isSome

/-- What a line that was made to fail leaves of the reference peer (assumption log 10): the part of it that the line
acts on becomes unknown (U9), and the DAC as well where the failure comes at or after the commit (R56, R240 c, U6): at
`PASS`, at `RXQ`, and at the `DEL` of a batch that has been transferred. A failed speed query changes nothing.
DESIGN CHOICE (log 10): the `DEL` frees the DAC also where it fails behind a pending `ProtocolError`, an overlap that
R240 (c) and C13 leave open: every frame has taken effect for the one, the DAC is unknown for the other. -/
def failedLine (l : Line) (e : Env) : Env :=
  match l with
  | .initDev _ | .setDef | .setGet | .setMode | .setSpeed _ | .setWord | .setSet | .release => linkUnknown e
  | .create _ => batchUnknown e
  | .stage _ _ => framesUnknown e
  | .pass => dacUnknown (batchUnknown e)
  | .rxq _ => dacUnknown e
  | .del => if e.peer.bridge.transferred then dacUnknown (batchUnknown e) else batchUnknown e
  | .speedq => e

/-- The reference peer answers; a named reply replaces its answer. -/
def referenceAnswer (P : Params) (l : Line) (r : Reply) (e : Env) : Answer × Env :=
  if r = .own then referenceLine P l e
  else if readReply l r = .fail then (.fail, failedLine l e)
  else (readReply l r, (referenceLine P l e).2)

/-! ### The answer -/

/-- The next reply of the input queue. -/
def Env.nextReply (e : Env) : Reply := e.replies.headD .own

/-- The input queue without its first reply. -/
def Env.dropReply (e : Env) : Env := { e with replies := e.replies.tail }

/-- The peer's answer to a line (R84, R217). -/
def answer (P : Params) (l : Line) (e : Env) : Answer × Env :=
  match e.mode with
  | .unconstrained => unconstrainedAnswer l e.nextReply e.dropReply
  | .reference => referenceAnswer P l e.nextReply e.dropReply

end Sys2Proof.Machine
end

