-- ==== Sys2Proof/Machine/Ops.lean ====
section
/-! DEFINITION. The shared operations of the block: emitting a line (30_encoding.md R84), the two memory primitives
(20_memory.md R51, R52), error entry and completion (60_exceptions.md R236, R237), actions that end in a value or an
error, admission of a command (R248), block reset (70_reset_and_hazards.md R260), and what the memory of an open batch
must look like (10_state.md R40). -/

namespace Sys2Proof.Machine

/-! ### Emitting a line -/

/-- `emit E`: send one line, wait for its answer, append both to `S.trace` (R10, R84). -/
def emit (l : Line) (s : State) : Answer × State :=
  let a := answer s.params l s.env
  (a.1, { s with env := a.2, trace := s.trace ++ [⟨l, a.1⟩] })

/-! ### Memory: the slots of the open batch -/

/-- `MemWrite(TX, i, 3, t)`: set slot `i` and hand the frame to the bridge (R51). -/
def memWriteTx (i : Nat) (t : Triple) (s : State) : Answer × State :=
  emit (.stage i t) { s with seq := { s.seq with tx := s.seq.tx.set i t } }

/-- `MemRead(RX, i, 3)`: ask the bridge for slot `i`; `none` where the transport failed (R52). -/
def memReadRx (i : Nat) (s : State) : Option Triple × State :=
  let a := emit (.rxq i) s
  (match a.1 with
    | .bytes t => some t
    | _ => none,
   a.2)

/-- The canonical form of the batch buffer (R21, R40, R50): idle, it is the cleared one; open, its three lists have
`n` entries each, `0 <= ptr, fptr <= n`, and a committed batch has every slot staged. -/
def Memory.wf (q : Seq) : Bool :=
  match q.phase with
  | .idle => decide (q = Seq.idle)
  | .staging =>
    decide (q.tx.length = q.n) && decide (q.expect.length = q.n) && decide (q.result.length = q.n)
      && decide (q.ptr ≤ q.n) && decide (q.fptr = 0)
  | .committed =>
    decide (q.tx.length = q.n) && decide (q.expect.length = q.n) && decide (q.result.length = q.n)
      && decide (q.ptr = q.n) && decide (q.fptr ≤ q.n)

/-! ### Error entry and completion -/

/-- `raise K(info)` inside a batch: the error is recorded; the first error wins (R25, R236 b, R238). -/
def recordErr (e : Err) (s : State) : State :=
  match s.seq.err with
  | none => { s with seq := { s.seq with err := some e } }
  | some _ => s

/-- `return v` or `raise K(info)` outside a batch: the command completes (R81, R236 a, R237). Nothing is saved and
nothing is latched: the completion is the return. -/
def complete (r : Except Err Value) (s : State) : State :=
  match r with
  | .ok v => { s with completion := some (.ok v) }
  | .error e => { s with completion := some (.err e) }

/-! ### Actions: what a command does, up to its value or its error -/

/-- An action of the block: it ends in a value or an error, and in a state. -/
abbrev Act (α : Type) := State → Except Err α × State

/-- An action that touches nothing. -/
def Act.result {α : Type} (r : Except Err α) : Act α := fun s => (r, s)

/-- A composite command (R236 c): an error of the first part is the error of the whole, and none of the later steps
is performed. -/
def Act.andThen {α β : Type} (f : Act α) (g : α → Act β) : Act β := fun s =>
  match (f s).1 with
  | .ok a => g a (f s).2
  | .error e => (.error e, (f s).2)

/-- An action with its value rewritten. -/
def Act.map {α β : Type} (f : Act α) (g : α → β) : Act β := fun s => ((f s).1.map g, (f s).2)

/-- Send a command line outside a batch; `fail` raises `TransportError` (R84, R234, R236 a). -/
def sendLine (l : Line) : Act Unit := fun s =>
  let a := emit l s
  (if a.1 = .fail then .error (.transportError l) else .ok (), a.2)

/-- Send the speed query; `fail` raises `TransportError` (R98, R186). -/
def querySpeed : Act Int := fun s =>
  let a := emit .speedq s
  (match a.1 with
    | .int k => .ok k
    | _ => .error (.transportError .speedq),
   a.2)

/-- The action runs and the command completes. -/
def runAct (f : Act Value) (s : State) : State := complete (f s).1 (f s).2

/-! ### Admission (R248) -/

/-- A host command that performs no I/O: refused only while a batch is open (R248 a). -/
def hostCommand (f : Act Value) (s : State) : Host.Outcome State Fault Refusal :=
  if s.seq.phase = .idle then .next (runAct f s) else .refused .busy

/-- An I/O command: refused while a batch is open or no session is claimed (R22, R248 a, b). -/
def ioCommand (f : Act Value) (s : State) : Host.Outcome State Fault Refusal :=
  if s.seq.phase = .idle then
    if s.sess = .claimed then .next (runAct f s) else .refused .sessionClosed
  else .refused .busy

/-- What the size check of `RUN_BATCH` and `CREATE` asks (R151, R248 c). -/
def batchSizeOk (P : Params) (n : Nat) : Bool := decide (1 ≤ n) && decide (n ≤ P.maxBatch)

/-! ### Block reset -/

/-- Block reset (R39, R260, R261): the block state takes the values of R39, no line is emitted, the peer is not
reached, and the packets that wait still wait. -/
def blockReset (s : State) : State :=
  { s with sess := .closed, defer := s.params.deferInit, seq := Seq.idle, trace := [], completion := none }

end Sys2Proof.Machine
end

