-- ==== Sys2Proof/Machine/Codec.lean ====
section
/-! DEFINITION. The host commands of the codec (40_codec.md R100 to R105) and of the pure encoders and the decoder
(42_register_model.md R121 to R124). None touches block state beyond its completion, none emits a line. -/

namespace Sys2Proof.Machine

/-- Host command `PACK` (R100). -/
def execPack (code : Int) (s : State) : Host.Outcome State Fault Refusal :=
  hostCommand (Act.result ((pack code).map .bytes)) s

/-- Host command `UNPACK` (R101). -/
def execUnpack (w0 w1 w2 : Int) (s : State) : Host.Outcome State Fault Refusal :=
  hostCommand (Act.result ((unpack w0 w1 w2).map .code)) s

/-- Host command `HAS_BITS` (R103). -/
def execHasBits (code mask : Code) (s : State) : Host.Outcome State Fault Refusal :=
  hostCommand (Act.result (.ok (.bool (hasBits code mask)))) s

/-- Host command `SET_BITS` (R104). -/
def execSetBits (code mask : Code) (s : State) : Host.Outcome State Fault Refusal :=
  hostCommand (Act.result (.ok (.code (setBits code mask)))) s

/-- Host command `CLEAR_BITS` (R105). -/
def execClearBits (code mask : Code) (s : State) : Host.Outcome State Fault Refusal :=
  hostCommand (Act.result (.ok (.code (clearBits code mask)))) s

/-- Host command `ENC_NOP` (R121). -/
def execEncNop (s : State) : Host.Outcome State Fault Refusal :=
  hostCommand (Act.result (.ok (.code encNop))) s

/-- Host command `ENC_WRITE` (R122). -/
def execEncWrite (r : Reg) (p : Payload) (s : State) : Host.Outcome State Fault Refusal :=
  hostCommand (Act.result ((encWrite s.params r p).map .code)) s

/-- Host command `ENC_READ` (R123). -/
def execEncRead (r : Reg) (s : State) : Host.Outcome State Fault Refusal :=
  hostCommand (Act.result (.ok (.code (encRead r)))) s

/-- Host command `DEC_READBACK` (R124). -/
def execDecReadback (r : Reg) (code : Code) (s : State) : Host.Outcome State Fault Refusal :=
  hostCommand (Act.result ((decReadback s.params r code).map .payload)) s

end Sys2Proof.Machine
end

