-- ==== Sys2Proof/Machine/Sequencer.lean ====
section
/-! DEFINITION. The command sequencer (43_sequencer.md R150 to R162): the five micro-steps, `RUN_BATCH` built from
them, and the transport lines that encode them as single steps of the block (assumption log 6). -/

namespace Sys2Proof.Machine

/-! ### The micro-steps -/

/-- Load the batch (R25, R151). The phase stays `IDLE` until `SEQ_BEGIN` succeeds. -/
def seqLoad (tx : List Triple) (expect : List Expect) (s : State) : State :=
  { s with seq :=
      { phase := .idle, n := tx.length, tx := tx, expect := expect, result := List.replicate tx.length none,
        ptr := 0, fptr := 0, err := none } }

/-- `SEQ_BEGIN` (R152): on failure the command ends there, the phase stays `IDLE`, no `DEL` follows. -/
def seqBegin : Act Unit := fun s =>
  let a := emit (.create s.seq.n) s
  if a.1 = .fail then (.error (.transportError (.create s.seq.n)), { a.2 with seq := Seq.idle })
  else (.ok (), { a.2 with seq := { a.2.seq with phase := .staging, ptr := 0, fptr := 0 } })

/-- `SEQ_STAGE` of slot `ptr` (R153). -/
def seqStage (s : State) : State :=
  match s.seq.tx[s.seq.ptr]? with
  | none => s
  | some t =>
    let a := memWriteTx s.seq.ptr t s
    if a.1 = .fail then recordErr (.transportError (.stage s.seq.ptr t)) a.2
    else { a.2 with seq := { a.2.seq with ptr := s.seq.ptr + 1 } }

/-- `SEQ_COMMIT` (R154). -/
def seqCommit (s : State) : State :=
  let a := emit .pass s
  if a.1 = .fail then recordErr (.transportError .pass) a.2
  else { a.2 with seq := { a.2.seq with phase := .committed, ptr := s.seq.n, fptr := 0 } }

/-- The check of a fetched code against what its slot expects (R25, R155). -/
def checkResponse (P : Params) (x : Expect) (c : Code) : Except Err Unit :=
  match x with
  | .reg r => (decReadback P r c).map fun _ => ()
  | _ => .ok ()

/-- Fetch slot `i`, whose response is expected as `x` (R155, the part that emits a line). -/
def fetchSlot (i : Nat) (x : Expect) (s : State) : State :=
  let a := memReadRx i s
  match a.1 with
  | none => recordErr (.transportError (.rxq i)) a.2
  | some t =>
    match checkResponse s.params x (unpackBytes t) with
    | .error e => recordErr e a.2
    | .ok () =>
      { a.2 with seq := { a.2.seq with result := a.2.seq.result.set i (some (unpackBytes t)), fptr := i + 1 } }

/-- `SEQ_FETCH` of slot `fptr` (R155): a slot with `NONE` costs no line. -/
def seqFetch (s : State) : State :=
  match s.seq.expect[s.seq.fptr]? with
  | none => s
  | some .none => { s with seq := { s.seq with fptr := s.seq.fptr + 1 } }
  | some x => fetchSlot s.seq.fptr x s

/-- `SEQ_END` (R156): `DEL` always; the pending error wins over a failing `DEL`; the phase returns to `IDLE`. -/
def seqEnd : Act (List (Option Code)) := fun s =>
  let a := emit .del s
  (match s.seq.err with
    | some e => .error e
    | none => if a.1 = .fail then .error (.transportError .del) else .ok s.seq.result,
   { a.2 with seq := Seq.idle })

/-! ### `RUN_BATCH` (R151) -/

/-- `while S.seq.err is empty and S.seq.ptr < n: SEQ_STAGE`; the first argument bounds the rounds. -/
def stageAll : Nat → State → State
  | 0, s => s
  | k + 1, s => if s.seq.err = none ∧ s.seq.ptr < s.seq.n then stageAll k (seqStage s) else s

/-- `if S.seq.err is empty: SEQ_COMMIT`. -/
def commitIfClean (s : State) : State := if s.seq.err = none then seqCommit s else s

/-- `while S.seq.err is empty and S.seq.fptr < n: SEQ_FETCH`; the first argument bounds the rounds. -/
def fetchAll : Nat → State → State
  | 0, s => s
  | k + 1, s => if s.seq.err = none ∧ s.seq.fptr < s.seq.n then fetchAll k (seqFetch s) else s

/-- Steps 2 to 5 of an open batch of `n` slots (R150, R151, R157). -/
def finishBatch (n : Nat) : Act (List (Option Code)) := fun s =>
  seqEnd (fetchAll n (commitIfClean (stageAll n s)))

/-- `RUN_BATCH(frames, expect)` after its admission (R151): every frame is packed before anything is emitted. -/
def runBatch (frames : List Int) (expect : List Expect) : Act (List (Option Code)) := fun s =>
  match packFrames 0 frames with
  | .error e => (.error e, s)
  | .ok tx => Act.andThen seqBegin (fun _ => finishBatch tx.length) (seqLoad tx expect s)

/-- Host command `RUN_BATCH` (R151, R248 c). -/
def execRunBatch (frames : List Int) (expect : List Expect) (s : State) : Host.Outcome State Fault Refusal :=
  if s.seq.phase = .idle ∧ s.sess = .claimed ∧
      ¬ (frames.length = expect.length ∧ batchSizeOk s.params frames.length = true) then .refused .batchSize
  else ioCommand (Act.map (runBatch frames expect) .codes) s

/-! ### The transport lines of the batch protocol as single steps -/

/-- Line `CREATE(n)` (R92): `SEQ_BEGIN` of a batch of `n` slots that the following lines will stage and fetch. R50 gives
a slot not yet staged no content (only `RUN_BATCH` loads `S.seq.tx`); that the line fills the slots with the frame
`(0, 0, 0)` until they are staged is the model's choice (DESIGN CHOICE, assumption log 6). -/
def execLineCreate (n : Nat) (s : State) : Host.Outcome State Fault Refusal :=
  if s.seq.phase = .idle then
    if s.sess = .claimed then
      if batchSizeOk s.params n then
        let a := seqBegin (seqLoad (List.replicate n ⟨0, 0, 0⟩) (List.replicate n .none) s)
        .next (match a.1 with
          | .ok () => a.2
          | .error e => complete (.error e) a.2)
      else .refused .batchSize
    else .refused .sessionClosed
  else .refused .busy

/-- Whether slot `i` of the open batch exists (R50). -/
def slotExists (i : Nat) (s : State) : Bool := decide (s.seq.phase ≠ .idle) && decide (i < s.seq.n)

/-- Line `STAGE(i, b0, b1, b2)` (R93): `SEQ_STAGE` of the next slot with this frame (R51, R153). -/
def execLineStage (i : Nat) (b0 b1 b2 : Byte) (s : State) : Host.Outcome State Fault Refusal :=
  if slotExists i s then
    if s.seq.phase = .staging ∧ s.seq.err = none ∧ i = s.seq.ptr then
      .next (seqStage { s with seq := { s.seq with tx := s.seq.tx.set i ⟨b0, b1, b2⟩ } })
    else .refused .outOfOrder
  else .fault (.noSlot i)

/-- Line `PASS` (R94): `SEQ_COMMIT` of a batch whose slots are all staged (R154). -/
def execLinePass (s : State) : Host.Outcome State Fault Refusal :=
  if s.seq.phase = .staging ∧ s.seq.err = none ∧ s.seq.ptr = s.seq.n then .next (seqCommit s)
  else .refused .outOfOrder

/-- Whether every slot from `i` up to, not including, `j` expects nothing. -/
def skippable (i j : Nat) (s : State) : Bool := ((s.seq.expect.drop i).take (j - i)).all fun x => x == .none

/-- What a fetch of slot `i` by its line expects: what the batch says, and `RAW` where it says `NONE`. -/
def lineExpect (i : Nat) (s : State) : Expect :=
  match s.seq.expect[i]? with
  | some (.reg r) => .reg r
  | _ => .raw

/-- Line `RXQ(i)` (R95): `SEQ_FETCH` of slot `i`, the slots before it that expect nothing skipped (R52, R155). -/
def execLineRxq (i : Nat) (s : State) : Host.Outcome State Fault Refusal :=
  if slotExists i s then
    if s.seq.phase = .committed ∧ s.seq.err = none ∧ s.seq.fptr ≤ i ∧ skippable s.seq.fptr i s = true then
      .next (fetchSlot i (lineExpect i s) { s with seq := { s.seq with fptr := i } })
    else .refused .outOfOrder
  else .fault (.noSlot i)

/-- Line `DEL` (R96): `SEQ_END`, from an error or from a committed batch with nothing left to fetch (R156, R162). -/
def execLineDel (s : State) : Host.Outcome State Fault Refusal :=
  if s.seq.phase ≠ .idle ∧
      (s.seq.err ≠ none ∨ (s.seq.phase = .committed ∧ skippable s.seq.fptr s.seq.n s = true)) then
    .next (runAct (Act.map seqEnd .codes) s)
  else .refused .outOfOrder

end Sys2Proof.Machine
end

