-- ==== Sys2Proof/Machine/Register.lean ====
section
/-! DEFINITION. Register access, convenience flags and soft triggers (42_register_model.md R125 to R133). -/

namespace Sys2Proof.Machine

/-- The response of slot `i` in a batch result, as a payload (`res[i][19:0]`, R125, R181). -/
def resultPayload (i : Nat) (res : List (Option Code)) : Payload :=
  match res[i]? with
  | some (some c) => payloadOf c
  | _ => 0

/-- A code as a frame operand of `RUN_BATCH`. -/
def frameOf (c : Code) : Int := c.toNat

/-- `REG_READ(R)` (R125): one batch of 2, the answer fetched from slot 1. -/
def regRead (r : Reg) : Act Payload :=
  Act.map (runBatch [frameOf (encRead r), frameOf encNop] [.none, .reg r]) (resultPayload 1)

/-- `REG_WRITE(R, p)` (R126): the payload is checked before anything is emitted; nothing is fetched. -/
def regWrite (r : Reg) (p : Payload) : Act Unit := fun s =>
  match encWrite s.params r p with
  | .error e => (.error e, s)
  | .ok c => Act.map (runBatch [frameOf c, frameOf encNop] [.none, .none]) (fun _ => ()) s

/-- A flag setter (R128, R130): read CONTROL, set or clear the bit, mask, write back; two batches always. -/
def setFlag (m : Payload) (b : Bool) : Act Unit := fun s =>
  Act.andThen (regRead .control) (fun p => regWrite .control (withFlag s.params m b p)) s

/-- A flag getter (R127, R129): one CONTROL read. -/
def getFlag (m : Payload) : Act Bool := Act.map (regRead .control) fun p => hasBits p m

/-- Host command `REG_READ` (R125). -/
def execRegRead (r : Reg) (s : State) : Host.Outcome State Fault Refusal :=
  ioCommand (Act.map (regRead r) .payload) s

/-- Host command `REG_WRITE` (R126). -/
def execRegWrite (r : Reg) (p : Payload) (s : State) : Host.Outcome State Fault Refusal :=
  ioCommand (Act.map (regWrite r p) fun _ => .none) s

/-- Host command `GET_TRISTATE` (R127). -/
def execGetTristate (s : State) : Host.Outcome State Fault Refusal :=
  ioCommand (Act.map (getFlag (tristateBit s.params)) .bool) s

/-- Host command `SET_TRISTATE` (R128). -/
def execSetTristate (b : Bool) (s : State) : Host.Outcome State Fault Refusal :=
  ioCommand (Act.map (setFlag (tristateBit s.params) b) fun _ => .none) s

/-- Host command `GET_OPGND` (R129). -/
def execGetOpgnd (s : State) : Host.Outcome State Fault Refusal :=
  ioCommand (Act.map (getFlag (opgndBit s.params)) .bool) s

/-- Host command `SET_OPGND` (R130). -/
def execSetOpgnd (b : Bool) (s : State) : Host.Outcome State Fault Refusal :=
  ioCommand (Act.map (setFlag (opgndBit s.params) b) fun _ => .none) s

/-- Host command `SOFT_LDAC` (R131): `REG_WRITE(SOFT, 0x1)`. -/
def execSoftLdac (s : State) : Host.Outcome State Fault Refusal :=
  ioCommand (Act.map (regWrite .soft softLdacBit) fun _ => .none) s

/-- Host command `SOFT_RESET` (R132): `REG_WRITE(SOFT, 0x4)`. -/
def execSoftReset (s : State) : Host.Outcome State Fault Refusal :=
  ioCommand (Act.map (regWrite .soft softResetBit) fun _ => .none) s

/-- Host command `SOFT_CLEAR` (R133): `REG_WRITE(SOFT, 0x2)`. -/
def execSoftClear (s : State) : Host.Outcome State Fault Refusal :=
  ioCommand (Act.map (regWrite .soft softClearBit) fun _ => .none) s

end Sys2Proof.Machine
end

