-- ==== Sys2Proof/Machine/Voltage.lean ====
section
/-! DEFINITION. The voltage map (41_voltage_map.md R110 to R116): the exact reading, the family of evaluations that
R115 (a) to (d) bound, and the two host commands `C2V` and `V2C`. -/

namespace Sys2Proof.Machine

/-! ### The exact reading -/

/-- The quotient `(v - VREFN) * FS / SPAN` (R112). -/
def exactQuotient (vn vp v : Rat) : Rat := (v - vn) * (fullScale : Rat) / (vp - vn)

/-- Its floor (R112). -/
def exactRaw (vn vp v : Rat) : Nat := (exactQuotient vn vp v).floor.toNat

/-- `SPAN * raw / FS + VREFN` (R111). -/
def exactVolt (vn vp : Rat) (raw : Nat) : Rat := (vp - vn) * (raw : Rat) / (fullScale : Rat) + vn

/-- The quantization step `LSB = SPAN / FS` (R110). -/
def lsb (vn vp : Rat) : Rat := (vp - vn) / (fullScale : Rat)

/-- The four voltages of R115 (d). -/
def starVoltages : List Rat := [0, 1, defaultVrefp, defaultVrefn]

theorem fullScale_pos : (0 : Rat) < (fullScale : Rat) := by norm_num [fullScale]

theorem exactQuotient_nonneg {vn vp v : Rat} (h : vn < vp) (h1 : vn ≤ v) : 0 ≤ exactQuotient vn vp v :=
  div_nonneg (mul_nonneg (sub_nonneg.2 h1) fullScale_pos.le) (sub_pos.2 h).le

theorem exactQuotient_le {vn vp v : Rat} (h : vn < vp) (h2 : v ≤ vp) :
    exactQuotient vn vp v ≤ (fullScale : Rat) := by
  unfold exactQuotient
  rw [div_le_iff₀ (sub_pos.2 h), mul_comm]
  exact mul_le_mul_of_nonneg_left (sub_le_sub_right h2 vn) fullScale_pos.le

/-- The floor as an inequality between the quotient and the raw code. -/
theorem exactRaw_bounds {vn vp v : Rat} (h : vn < vp) (h1 : vn ≤ v) :
    ((exactRaw vn vp v : Nat) : Rat) ≤ exactQuotient vn vp v ∧
      exactQuotient vn vp v < ((exactRaw vn vp v : Nat) : Rat) + 1 := by
  have h0 : (0 : Int) ≤ ⌊exactQuotient vn vp v⌋ := Int.floor_nonneg.2 (exactQuotient_nonneg h h1)
  have e : ((exactRaw vn vp v : Nat) : Rat) = ((⌊exactQuotient vn vp v⌋ : Int) : Rat) := by
    have : ((exactRaw vn vp v : Nat) : Int) = ⌊exactQuotient vn vp v⌋ := Int.toNat_of_nonneg h0
    rw [← this]; norm_cast
  rw [e]
  exact ⟨Int.floor_le _, Int.lt_floor_add_one _⟩

/-- R112: `0 <= raw <= FS` for every valid voltage. -/
theorem exactRaw_le {vn vp v : Rat} (h : vn < vp) (h1 : vn ≤ v) (h2 : v ≤ vp) : exactRaw vn vp v ≤ fullScale := by
  have := (exactRaw_bounds h h1).1.trans (exactQuotient_le h h2)
  exact_mod_cast this

/-- R114, the stronger statement of exact arithmetic: `0 <= v - C2V(V2C(v)) < LSB`. -/
theorem exactVolt_exactRaw {vn vp v : Rat} (h : vn < vp) (h1 : vn ≤ v) :
    0 ≤ v - exactVolt vn vp (exactRaw vn vp v) ∧ v - exactVolt vn vp (exactRaw vn vp v) < lsb vn vp := by
  have hs : (0 : Rat) < vp - vn := sub_pos.2 h
  have hl : 0 < lsb vn vp := div_pos hs fullScale_pos
  have hf := fullScale_pos.ne'
  have key : v - exactVolt vn vp (exactRaw vn vp v)
      = (exactQuotient vn vp v - ((exactRaw vn vp v : Nat) : Rat)) * lsb vn vp := by
    unfold exactVolt exactQuotient lsb
    field_simp
    ring
  obtain ⟨hb1, hb2⟩ := exactRaw_bounds h h1
  rw [key]
  constructor
  · exact mul_nonneg (sub_nonneg.2 hb1) hl.le
  · calc (exactQuotient vn vp v - ((exactRaw vn vp v : Nat) : Rat)) * lsb vn vp
        < 1 * lsb vn vp := mul_lt_mul_of_pos_right (by linarith) hl
      _ = lsb vn vp := one_mul _

/-! ### Other evaluations (R115) -/

/-- A pair (`V2C_F`, `C2V_F`), before the exclusive or of bit 19, with what R115 lets a model assume of it: (a) it
depends on its operands and the constants alone; (c) at most one step from the exact raw code, inside `[0, 2^20)`, and
the property R114 for the pair; (d) exact at the four voltages. (b) holds by `v2c`, which alone checks the range. -/
structure VoltEval where
  raw : Rat → Rat → Rat → Nat
  volt : Rat → Rat → Nat → Rat
  raw_le : ∀ vn vp v, vn < vp → vn ≤ v → v ≤ vp → raw vn vp v ≤ fullScale
  raw_step : ∀ vn vp v, vn < vp → vn ≤ v → v ≤ vp →
    raw vn vp v ≤ exactRaw vn vp v + 1 ∧ exactRaw vn vp v ≤ raw vn vp v + 1
  pair : ∀ vn vp v, vn < vp → vn ≤ v → v ≤ vp → |volt vn vp (raw vn vp v) - v| ≤ lsb vn vp
  star : ∀ v ∈ starVoltages, raw defaultVrefn defaultVrefp v = exactRaw defaultVrefn defaultVrefp v

/-- The exact evaluation meets the bounds of R115. -/
def VoltEval.exact : VoltEval where
  raw := exactRaw
  volt := exactVolt
  raw_le := fun _ _ _ h h1 h2 => exactRaw_le h h1 h2
  raw_step := fun _ _ _ _ _ _ => ⟨Nat.le_succ _, Nat.le_succ _⟩
  pair := fun vn vp v h h1 _ => by
    obtain ⟨h3, h4⟩ := exactVolt_exactRaw h h1
    rw [abs_sub_comm, abs_of_nonneg h3]
    exact h4.le
  star := fun _ _ => rfl

end Sys2Proof.Machine

namespace Sys2Proof

/-- Free value: the k-th evaluation of the voltage map (U12, R115). No body: nothing is known of it beyond the bounds
that the type carries. -/
opaque Config.freeVoltEval [Inhabited Machine.VoltEval] : Nat → Machine.VoltEval

end Sys2Proof

namespace Sys2Proof.Machine

/-- The k-th evaluation of the family; the exact one shows that the family is not empty. -/
def voltFamily (k : Nat) : VoltEval := @Config.freeVoltEval ⟨VoltEval.exact⟩ k

/-- The raw code of a voltage inside the references, in the evaluation that the parameters select. -/
def rawOf (P : Params) (v : Rat) : Nat :=
  match P.voltEval with
  | none => exactRaw P.vrefn P.vrefp v
  | some k => (voltFamily k).raw P.vrefn P.vrefp v

/-- The voltage of a raw code, in the evaluation that the parameters select. -/
def voltOf (P : Params) (raw : Nat) : Rat :=
  match P.voltEval with
  | none => exactVolt P.vrefn P.vrefp raw
  | some k => (voltFamily k).volt P.vrefn P.vrefp raw

/-! ### `C2V` and `V2C` -/

/-- The two's-complement adjustment: exclusive or of bit 19 (R113). -/
def adjust (twoComplement : Bool) (p : Payload) : Payload := if twoComplement then p ^^^ 0x80000#20 else p

/-- `C2V` (R111): the adjustment, then the linear map. -/
def c2v (P : Params) (p : Payload) (twoComplement : Bool) : Rat := voltOf P (adjust twoComplement p).toNat

/-- `V2C` (R112, R116): the range check, both bounds inside, non-finite values outside; the floor; the adjustment. -/
def v2c (P : Params) (v : Volt) (twoComplement : Bool) : Except Err Payload :=
  match v with
  | .fin q =>
    if P.vrefn ≤ q ∧ q ≤ P.vrefp then .ok (adjust twoComplement (BitVec.ofNat 20 (rawOf P q)))
    else .error (.rangeError (.volt (.fin q)))
  | .nan => .error (.rangeError (.volt .nan))
  | .posInf => .error (.rangeError (.volt .posInf))
  | .negInf => .error (.rangeError (.volt .negInf))

/-- Host command `C2V` (R111). -/
def execC2v (p : Payload) (twoComplement : Bool) (s : State) : Host.Outcome State Fault Refusal :=
  hostCommand (Act.result (.ok (.volt (c2v s.params p twoComplement)))) s

/-- Host command `V2C` (R112). -/
def execV2c (v : Volt) (twoComplement : Bool) (s : State) : Host.Outcome State Fault Refusal :=
  hostCommand (Act.result ((v2c s.params v twoComplement).map .payload)) s

end Sys2Proof.Machine
end

