-- ==== Sys2Proof/Machine/Facade.lean ====
section
/-! DEFINITION. The device facade (44_facade.md R180 to R187): voltage access, the deferred trigger, session and
clock commands. -/

namespace Sys2Proof.Machine

/-! ### Voltage access -/

/-- `GET_VOLTAGE` (R180): `C2V(REG_READ(DATA))`. -/
def getVoltage : Act Rat := fun s => Act.map (regRead .data) (fun p => c2v s.params p true) s

/-- The third frame of a voltage write (R181): NOP when the trigger is deferred, an LDAC pulse when not. -/
def triggerFrame (defer : Bool) : Code := if defer then encNop else writeCode .soft softLdacBit

/-- `SET_VOLTAGE(v)` (R181): the range check before any I/O, then one batch of 3; the read-back is returned and not
compared. -/
def setVoltage (v : Volt) : Act Payload := fun s =>
  match v2c s.params v true with
  | .error e => (.error e, s)
  | .ok c =>
    Act.map
      (runBatch [frameOf (writeCode .data c), frameOf (encRead .data), frameOf (triggerFrame s.defer)]
        [.none, .none, .reg .data])
      (resultPayload 2) s

/-! ### Session and clock -/

/-- The setup sequence of seven lines (R85 to R91, R184, R187). -/
def setupLines (path : List Char) (speed : Nat) : List Line :=
  [.initDev path, .setDef, .setGet, .setMode, .setSpeed speed, .setWord, .setSet]

/-- Lines sent one after another until one fails (R184, R187). -/
def sendLines : List Line → Act Unit
  | [] => Act.result (.ok ())
  | l :: ls => Act.andThen (sendLine l) fun _ => sendLines ls

/-- `S.sess <- v` (R22). -/
def setSession (v : Session) : Act Unit := fun s => (.ok (), { s with sess := v })

/-- `SESSION_OPEN` (R184): the range check of the CLEAR default, the seven setup lines, the claim, the CLEAR write. -/
def sessionOpen : Act Unit := fun s =>
  match v2c s.params s.params.clearDefaultV true with
  | .error e => (.error e, s)
  | .ok c =>
    Act.andThen (sendLines (setupLines s.params.devPath s.params.spiSpeed)) (fun _ =>
      Act.andThen (setSession .claimed) fun _ => regWrite .clear c) s

/-- `SESSION_CLOSE` (R185): the claim is given up even when the line fails. -/
def sessionClose : Act Unit := fun s =>
  let r := sendLine .release s
  (r.1, { r.2 with sess := .closed })

/-- `SET_SPEED(k)` (R187): the whole setup sequence with the new speed. -/
def setSpeed (k : Nat) : Act Unit := fun s => sendLines (setupLines s.params.devPath k) s

/-! ### The host commands -/

/-- Host command `GET_VOLTAGE` (R180). -/
def execGetVoltage (s : State) : Host.Outcome State Fault Refusal :=
  ioCommand (Act.map getVoltage .volt) s

/-- Host command `SET_VOLTAGE` (R181). -/
def execSetVoltage (v : Volt) (s : State) : Host.Outcome State Fault Refusal :=
  ioCommand (Act.map (setVoltage v) .payload) s

/-- Host command `GET_DEFER` (R182). -/
def execGetDefer (s : State) : Host.Outcome State Fault Refusal :=
  hostCommand (Act.result (.ok (.bool s.defer))) s

/-- Host command `SET_DEFER` (R183): the only writer of `S.defer` (R23). -/
def execSetDefer (b : Bool) (s : State) : Host.Outcome State Fault Refusal :=
  hostCommand (fun s => (.ok .none, { s with defer := b })) s

/-- Host command `SESSION_OPEN` (R184); refused while the session is claimed (R248 b). -/
def execSessionOpen (s : State) : Host.Outcome State Fault Refusal :=
  if s.seq.phase = .idle ∧ s.sess = .claimed then .refused .sessionClaimed
  else hostCommand (Act.map sessionOpen fun _ => .none) s

/-- Host command `SESSION_CLOSE` (R185): accepted in either session state. -/
def execSessionClose (s : State) : Host.Outcome State Fault Refusal :=
  hostCommand (Act.map sessionClose fun _ => .none) s

/-- Host command `GET_SPEED` (R186). -/
def execGetSpeed (s : State) : Host.Outcome State Fault Refusal :=
  ioCommand (Act.map querySpeed .int) s

/-- Host command `SET_SPEED` (R187); a speed of 0 is outside the operand's type (R81, R83). -/
def execSetSpeed (k : Nat) (s : State) : Host.Outcome State Fault Refusal :=
  if s.seq.phase = .idle ∧ s.sess = .claimed ∧ k = 0 then .refused .operandType
  else ioCommand (Act.map (setSpeed k) fun _ => .none) s

end Sys2Proof.Machine
end

