-- ==== Sys2Proof/Machine/Lines.lean ====
section
/-! DEFINITION. The transport lines outside the batch protocol as single steps of the block: the seven setup lines,
the teardown and the speed query (30_encoding.md R84 to R91, R97, R98). The lines of the batch protocol are in
Sequencer.lean. `S.sess` is written by the session commands alone (10_state.md R22). -/

namespace Sys2Proof.Machine

/-- A command line sent by itself: it completes without a value, or with `TransportError` (R84, R234, R236 a). -/
def lineCommand (l : Line) (s : State) : Host.Outcome State Fault Refusal :=
  hostCommand (Act.map (sendLine l) fun _ => .none) s

/-- Line `INIT_DEV(path)` (R85). -/
def execLineInitDev (path : List Char) (s : State) : Host.Outcome State Fault Refusal := lineCommand (.initDev path) s

/-- Line `SET_DEF` (R86). -/
def execLineSetDef (s : State) : Host.Outcome State Fault Refusal := lineCommand .setDef s

/-- Line `SET_GET` (R87). -/
def execLineSetGet (s : State) : Host.Outcome State Fault Refusal := lineCommand .setGet s

/-- Line `SET_MODE` (R88). -/
def execLineSetMode (s : State) : Host.Outcome State Fault Refusal := lineCommand .setMode s

/-- Line `SET_SPEED(k)` (R89). The spec emits it with a positive `k` alone; that the line with 0, sent by itself, is
emitted as well is the model's choice (assumption log 6). -/
def execLineSetSpeed (k : Nat) (s : State) : Host.Outcome State Fault Refusal := lineCommand (.setSpeed k) s

/-- Line `SET_WORD` (R90). -/
def execLineSetWord (s : State) : Host.Outcome State Fault Refusal := lineCommand .setWord s

/-- Line `SET_SET` (R91). -/
def execLineSetSet (s : State) : Host.Outcome State Fault Refusal := lineCommand .setSet s

/-- Line `RELEASE` (R97). -/
def execLineRelease (s : State) : Host.Outcome State Fault Refusal := lineCommand .release s

/-- Line `SPEEDQ` (R98). -/
def execLineSpeedq (s : State) : Host.Outcome State Fault Refusal := hostCommand (Act.map querySpeed .int) s

end Sys2Proof.Machine
end

