-- ==== Sys2Proof/Machine/Wire.lean ====
section
/-! DEFINITION. The twelve W24 commands as the DAC executes them (45_wire_commands.md R201 to R212, R215). A frame
acts on the DAC and on nothing else; it has no completion. -/

namespace Sys2Proof.Machine

/-- A frame acts on the environment alone. -/
def onDac (f : Env → Env) (s : State) : Host.Outcome State Fault Refusal := .next { s with env := f s.env }

/-- Wire `NOP` (R201). -/
def execWireNop (s : State) : Host.Outcome State Fault Refusal := onDac dacNop s

/-- Wire `WR_DATA p` (R202). -/
def execWireWrData (p : Payload) (s : State) : Host.Outcome State Fault Refusal := onDac (dacWrite s.params .data p) s

/-- Wire `WR_CONTROL p` (R203). -/
def execWireWrControl (p : Payload) (s : State) : Host.Outcome State Fault Refusal :=
  onDac (dacWrite s.params .control p) s

/-- Wire `WR_CLEAR p` (R204). -/
def execWireWrClear (p : Payload) (s : State) : Host.Outcome State Fault Refusal :=
  onDac (dacWrite s.params .clear p) s

/-- Wire `WR_SOFT p` (R205). -/
def execWireWrSoft (p : Payload) (s : State) : Host.Outcome State Fault Refusal := onDac (dacSoft s.params p) s

/-- Wire `SOFT_LDAC` (R206). -/
def execWireSoftLdac (s : State) : Host.Outcome State Fault Refusal := onDac (dacSoft s.params softLdacBit) s

/-- Wire `SOFT_CLEAR` (R207). -/
def execWireSoftClear (s : State) : Host.Outcome State Fault Refusal := onDac (dacSoft s.params softClearBit) s

/-- Wire `SOFT_RESET` (R208). -/
def execWireSoftReset (s : State) : Host.Outcome State Fault Refusal := onDac (dacSoft s.params softResetBit) s

/-- Wire `RD_DATA` (R209). -/
def execWireRdData (s : State) : Host.Outcome State Fault Refusal := onDac (dacRead .data) s

/-- Wire `RD_CONTROL` (R210). -/
def execWireRdControl (s : State) : Host.Outcome State Fault Refusal := onDac (dacRead .control) s

/-- Wire `RD_CLEAR` (R211). -/
def execWireRdClear (s : State) : Host.Outcome State Fault Refusal := onDac (dacRead .clear) s

/-- Wire `RD_SOFT` (R212). -/
def execWireRdSoft (s : State) : Host.Outcome State Fault Refusal := onDac dacReadSoft s

end Sys2Proof.Machine
end

