-- ==== Sys2Proof/Machine/Dispatch.lean ====
section
/-! DEFINITION. One arm per instruction. -/

namespace Sys2Proof.Machine

def exec (i : Instr) (s : State) : Host.Outcome State Fault Refusal :=
  match i with
  | .wireNop => Sys2Proof.Machine.execWireNop s
  | .wireWrData p => Sys2Proof.Machine.execWireWrData p s
  | .wireWrControl p => Sys2Proof.Machine.execWireWrControl p s
  | .wireWrClear p => Sys2Proof.Machine.execWireWrClear p s
  | .wireWrSoft p => Sys2Proof.Machine.execWireWrSoft p s
  | .wireSoftLdac => Sys2Proof.Machine.execWireSoftLdac s
  | .wireSoftClear => Sys2Proof.Machine.execWireSoftClear s
  | .wireSoftReset => Sys2Proof.Machine.execWireSoftReset s
  | .wireRdData => Sys2Proof.Machine.execWireRdData s
  | .wireRdControl => Sys2Proof.Machine.execWireRdControl s
  | .wireRdClear => Sys2Proof.Machine.execWireRdClear s
  | .wireRdSoft => Sys2Proof.Machine.execWireRdSoft s
  | .pack code => Sys2Proof.Machine.execPack code s
  | .unpack w0 w1 w2 => Sys2Proof.Machine.execUnpack w0 w1 w2 s
  | .hasBits code mask => Sys2Proof.Machine.execHasBits code mask s
  | .setBits code mask => Sys2Proof.Machine.execSetBits code mask s
  | .clearBits code mask => Sys2Proof.Machine.execClearBits code mask s
  | .c2v code20 twoComplement => Sys2Proof.Machine.execC2v code20 twoComplement s
  | .v2c v twoComplement => Sys2Proof.Machine.execV2c v twoComplement s
  | .encNop => Sys2Proof.Machine.execEncNop s
  | .encWrite r p => Sys2Proof.Machine.execEncWrite r p s
  | .encRead r => Sys2Proof.Machine.execEncRead r s
  | .decReadback r code => Sys2Proof.Machine.execDecReadback r code s
  | .regRead r => Sys2Proof.Machine.execRegRead r s
  | .regWrite r p => Sys2Proof.Machine.execRegWrite r p s
  | .getTristate => Sys2Proof.Machine.execGetTristate s
  | .setTristate b => Sys2Proof.Machine.execSetTristate b s
  | .getOpgnd => Sys2Proof.Machine.execGetOpgnd s
  | .setOpgnd b => Sys2Proof.Machine.execSetOpgnd b s
  | .softLdac => Sys2Proof.Machine.execSoftLdac s
  | .softReset => Sys2Proof.Machine.execSoftReset s
  | .softClear => Sys2Proof.Machine.execSoftClear s
  | .runBatch frames expect => Sys2Proof.Machine.execRunBatch frames expect s
  | .getVoltage => Sys2Proof.Machine.execGetVoltage s
  | .setVoltage v => Sys2Proof.Machine.execSetVoltage v s
  | .getDefer => Sys2Proof.Machine.execGetDefer s
  | .setDefer b => Sys2Proof.Machine.execSetDefer b s
  | .sessionOpen => Sys2Proof.Machine.execSessionOpen s
  | .sessionClose => Sys2Proof.Machine.execSessionClose s
  | .getSpeed => Sys2Proof.Machine.execGetSpeed s
  | .setSpeed k => Sys2Proof.Machine.execSetSpeed k s
  | .lineInitDev path => Sys2Proof.Machine.execLineInitDev path s
  | .lineSetDef => Sys2Proof.Machine.execLineSetDef s
  | .lineSetGet => Sys2Proof.Machine.execLineSetGet s
  | .lineSetMode => Sys2Proof.Machine.execLineSetMode s
  | .lineSetSpeed k => Sys2Proof.Machine.execLineSetSpeed k s
  | .lineSetWord => Sys2Proof.Machine.execLineSetWord s
  | .lineSetSet => Sys2Proof.Machine.execLineSetSet s
  | .lineCreate n => Sys2Proof.Machine.execLineCreate n s
  | .lineStage k b0 b1 b2 => Sys2Proof.Machine.execLineStage k b0 b1 b2 s
  | .linePass => Sys2Proof.Machine.execLinePass s
  | .lineRxq k => Sys2Proof.Machine.execLineRxq k s
  | .lineDel => Sys2Proof.Machine.execLineDel s
  | .lineRelease => Sys2Proof.Machine.execLineRelease s
  | .lineSpeedq => Sys2Proof.Machine.execLineSpeedq s

end Sys2Proof.Machine
end

