-- ==== Sys2Proof/Machine/Step.lean ====
section
/-! DEFINITION. One step of the machine: the next packet is decoded and executed (10_state.md R20, R39). -/

namespace Sys2Proof.Machine

/-- One step. With no packet waiting the block "is idle and waits for a host command" (R39): nothing changes. A packet
that stands for no instruction is refused (R83, R248 d). -/
def step (s : State) : Host.Outcome State Fault Refusal :=
  match s.inbox with
  | [] => .next s
  | p :: rest =>
    match decode p with
    | .ok i => exec i { s with inbox := rest }
    | .error e => .refused (.undecodable e)

/-- The state with one instruction of the opcode table placed in front of the packets that wait (assumption log 7);
a width that the table gives no row changes nothing. -/
def State.withFetchWord (s : State) (nbits w : Nat) : State :=
  match tablePacket nbits w with
  | some p => { s with inbox := p :: s.inbox }
  | none => s

end Sys2Proof.Machine
end

