-- ==== Sys2Proof/WellFormed.lean ====
section
/-! DEFINITION. Which instructions are well formed: the operand constraints of the opcode table that the types of
the constructors do not carry (30_encoding.md R76, R81; 43_sequencer.md R151; 20_memory.md R50). -/

namespace Sys2Proof

/-- Whether an instruction's operands are ones the spec admits, under the parameters. -/
def Instr.wellFormed (P : Params) : Instr → Bool
  -- R203, R76: the payload lies inside MASK_CONTROL
  | .wireWrControl p => decide (p &&& Machine.regMask P .control = p)
  -- R205, R76: the payload lies inside MASK_SOFT; the three single-bit payloads are rows of their own
  | .wireWrSoft p =>
    decide (p &&& Machine.regMask P .soft = p) && decide (p ≠ 1#20) && decide (p ≠ 2#20) && decide (p ≠ 4#20)
  -- R151: 1 <= n <= MAX_BATCH, two lists of one length
  | .runBatch frames expect =>
    decide (frames.length = expect.length) && decide (1 ≤ frames.length) && decide (frames.length ≤ P.maxBatch)
  -- R81: a positive integer
  | .setSpeed k => decide (0 < k)
  | .lineSetSpeed k => decide (0 < k)
  -- R85: the path stands inside double quotes
  | .lineInitDev path => path.all fun c => c != quoteChar
  -- R92: the size of a batch
  | .lineCreate n => decide (1 ≤ n) && decide (n ≤ P.maxBatch)
  -- R50: a slot index
  | .lineStage i _ _ _ => decide (i < P.maxBatch)
  | .lineRxq i => decide (i < P.maxBatch)
  | .wireNop | .wireWrData _ | .wireWrClear _ | .wireSoftLdac | .wireSoftClear | .wireSoftReset
  | .wireRdData | .wireRdControl | .wireRdClear | .wireRdSoft
  | .pack _ | .unpack _ _ _ | .hasBits _ _ | .setBits _ _ | .clearBits _ _ | .c2v _ _ | .v2c _ _
  | .encNop | .encWrite _ _ | .encRead _ | .decReadback _ _ | .regRead _ | .regWrite _ _
  | .getTristate | .setTristate _ | .getOpgnd | .setOpgnd _ | .softLdac | .softReset | .softClear
  | .getVoltage | .setVoltage _ | .getDefer | .setDefer _ | .sessionOpen | .sessionClose | .getSpeed
  | .lineSetDef | .lineSetGet | .lineSetMode | .lineSetWord | .lineSetSet | .linePass | .lineDel | .lineRelease
  | .lineSpeedq => true

end Sys2Proof
end

