-- ==== Sys2Proof/Safety.lean ====
section
/-! DEFINITION. What counts as a safe run, in the terms the claims use: the bracket discipline of the batch protocol
read off `S.trace` (43_sequencer.md R158, R160), the invariant of the state (10_state.md R22, R40), the lines of a batch
and what they were answered (R160), and runs of several lines. -/

namespace Sys2Proof.Safety

open Sys2Proof Sys2Proof.Machine

/-! ### The bracket discipline of the trace -/

/-- Where a trace stands in the batch protocol (R150, R160). -/
inductive BatchState where
  /-- No batch is open. -/
  | free
  /-- `k` of `n` slots are staged. -/
  | staging (n k : Nat)
  /-- Committed; the slots below `j` are no longer fetched. -/
  | fetching (n j : Nat)
  /-- A line failed: only `DEL` may follow. -/
  | closing
  deriving DecidableEq, Repr

/-- One event of the protocol; `none` where the protocol forbids the line. -/
def nextBatchState : BatchState → Event → Option BatchState
  | .free, ⟨.create n, a⟩ => some (if a = .fail then .free else .staging n 0)
  | .free, ⟨.stage _ _, _⟩ => none
  | .free, ⟨.pass, _⟩ => none
  | .free, ⟨.rxq _, _⟩ => none
  | .free, ⟨.del, _⟩ => none
  | .free, _ => some .free
  | .staging n k, ⟨.stage i _, a⟩ =>
    if i = k ∧ k < n then some (if a = .fail then .closing else .staging n (k + 1)) else none
  | .staging n k, ⟨.pass, a⟩ => if k = n then some (if a = .fail then .closing else .fetching n 0) else none
  | .fetching n j, ⟨.rxq i, a⟩ =>
    if j ≤ i ∧ i < n then some (if a = .fail then .closing else .fetching n (i + 1)) else none
  | .fetching _ _, ⟨.del, _⟩ => some .free
  | .closing, ⟨.del, _⟩ => some .free
  | _, _ => none

/-- A list of events read from a protocol state. -/
def scanFrom : BatchState → List Event → Option BatchState
  | b, [] => some b
  | b, e :: es =>
    match nextBatchState b e with
    | some b' => scanFrom b' es
    | none => none

/-- A whole trace: before its first event no batch is open. -/
def scan (l : List Event) : Option BatchState := scanFrom .free l

/-- Whether the sequencer's working state is at the place of the protocol that its trace has reached (R26, R162). -/
def traceAgrees (q : Seq) : Option BatchState → Bool
  | some .free => decide (q.phase = .idle)
  | some (.staging n k) => decide (q.phase = .staging) && decide (q.err = none) && decide (n = q.n) && decide (k = q.ptr)
  | some (.fetching n j) =>
    decide (q.phase = .committed) && decide (n = q.n) && (decide (q.err ≠ none) || decide (j ≤ q.fptr))
  | some .closing => decide (q.phase ≠ .idle) && decide (q.err ≠ none)
  | none => false

/-- The invariant: the batch buffer is in its canonical form (R40, R50), the trace is a bracketed one that agrees with
the position (R158, R160, R162), and a batch is open only while a session is claimed (R22). -/
structure Safe (s : State) : Prop where
  buffer : Memory.wf s.seq = true
  trace : traceAgrees s.seq (scan s.trace) = true
  session : s.seq.phase ≠ .idle → s.sess = .claimed

/-- A trace of whole batches and of lines outside batches: `CREATE` and `DEL` pair, `PASS` comes at most once in a
batch and after every slot of it is staged, no `RXQ` precedes it (R158, R160). -/
def Bracketed (l : List Event) : Prop := scan l = some .free

/-! ### The lines of one batch -/

/-- The `STAGE` lines of a batch, from slot `i`. -/
def stageLines : Nat → List Triple → List Line
  | _, [] => []
  | i, t :: ts => .stage i t :: stageLines (i + 1) ts

/-- The `RXQ` lines of a batch, from slot `i`: a slot that expects nothing costs no line. -/
def fetchLines : Nat → List Expect → List Line
  | _, [] => []
  | i, .none :: xs => fetchLines (i + 1) xs
  | i, .raw :: xs => .rxq i :: fetchLines (i + 1) xs
  | i, .reg _ :: xs => .rxq i :: fetchLines (i + 1) xs

/-- The lines between `CREATE` and `DEL` of a batch that meets no error (R160). -/
def bodyLines (tx : List Triple) (expect : List Expect) : List Line :=
  stageLines 0 tx ++ .pass :: fetchLines 0 expect

/-- Every event but possibly the last was answered without `fail`. -/
def AllButLastAnswered : List Event → Prop
  | [] => True
  | [_] => True
  | e :: es => e.answer ≠ .fail ∧ AllButLastAnswered es

/-- The first line of a list of events that was answered `fail`. -/
def firstFailure : List Event → Option Line
  | [] => none
  | e :: es => if e.answer = .fail then some e.line else firstFailure es

/-- The codes of a batch whose fetches answered these triples, slot by slot: nothing where nothing is expected. -/
def placeResults : List Expect → List Triple → List (Option Code)
  | [], _ => []
  | .none :: xs, ts => none :: placeResults xs ts
  | _ :: xs, t :: ts => some (unpackBytes t) :: placeResults xs ts
  | _ :: xs, [] => none :: placeResults xs []

/-- Every fetched triple passes the check of its slot, and there is one for each slot that is fetched. -/
def ChecksPass (P : Params) : List Expect → List Triple → Prop
  | [], ts => ts = []
  | .none :: xs, ts => ChecksPass P xs ts
  | .raw :: xs, _ :: ts => ChecksPass P xs ts
  | .reg r :: xs, t :: ts => (∃ p, decReadback P r (unpackBytes t) = .ok p) ∧ ChecksPass P xs ts
  | .raw :: _, [] => False
  | .reg _ :: _, [] => False

/-- A host command: format CMD of R70. -/
def isHostCommand (i : Instr) : Bool :=
  match encode i with
  | .host _ _ => true
  | _ => false

/-- A W24 command: format W24 of R70. -/
def isWireCommand (i : Instr) : Bool :=
  match encode i with
  | .wire _ => true
  | _ => false

/-- An I/O command: one that needs a claimed session (R22, R248 b). -/
def needsSession : Instr → Bool
  | .regRead _ | .regWrite _ _ | .getTristate | .setTristate _ | .getOpgnd | .setOpgnd _ | .softLdac | .softReset
  | .softClear | .runBatch _ _ | .getVoltage | .setVoltage _ | .getSpeed | .setSpeed _ => true
  | _ => false

/-- A validation error (R230: "detected before any I/O"). -/
def isValidationError : Err → Bool
  | .rangeError _ => true
  | .invalidPayload _ _ => true
  | .protocolError _ _ _ => false
  | .transportError _ => false

/-! ### Peers for statements -/

/-- The replies a batch is answered with when nothing fails: `ok` to `CREATE`, the stages and `PASS`, a text to each
fetch, `ok` to `DEL`. -/
def goodReplies (n : Nat) (texts : List (List Char)) : List Reply :=
  List.replicate (n + 2) .ok ++ texts.map .text ++ [.ok]

/-- Decimal digits, at least one, that write a number. -/
def IsDecimal (ds : List Char) (v : Nat) : Prop :=
  ds ≠ [] ∧ (∀ c ∈ ds, 48 ≤ c.toNat ∧ c.toNat ≤ 57) ∧ ds.foldl (fun v c => v * 10 + (c.toNat - 48)) 0 = v

/-- Three decimals in braces (characters 123 and 125), separated by commas, and nothing else (R95; assumption log 9). -/
def IsTriple (text : List Char) (v0 v1 v2 : Nat) : Prop :=
  ∃ d0 d1 d2, IsDecimal d0 v0 ∧ IsDecimal d1 v1 ∧ IsDecimal d2 v2 ∧
    text = Char.ofNat 123 :: d0 ++ ',' :: d1 ++ ',' :: d2 ++ [Char.ofNat 125]

/-- The block is between commands and holds a session. -/
def Ready (s : State) : Prop := s.seq.phase = .idle ∧ s.sess = .claimed

/-- The reference peer answers, and no reply has been named for it (R213 to R216). -/
def WellBehaved (s : State) : Prop := s.env.mode = .reference ∧ s.env.replies = []

/-- What is left of the peer's input queue after an instruction; the peer's kind has not changed. -/
def LeavesReplies (s : State) (rest : List Reply) (e : Env) : Prop := e.replies = rest ∧ e.mode = s.env.mode

/-! ### Several lines -/

/-- Instructions executed one after another, stopping at the first that does not answer a next state. -/
def execAll : List Instr → State → Host.Outcome State Fault Refusal
  | [], s => .next s
  | i :: is, s =>
    match exec i s with
    | .next t => execAll is t
    | .fault r => .fault r
    | .refused r => .refused r

/-- The whole batch as transport lines: `CREATE`, the stages, `PASS`, the fetches, `DEL`. -/
def batchInstrs (tx : List Triple) (expect : List Expect) : List Instr :=
  (Line.create tx.length :: bodyLines tx expect ++ [Line.del]).map lineInstr

end Sys2Proof.Safety
end

