-- ==== Sys2Proof/Certificates/Slice0/Obligations.lean ====
section
/-! DEFINITION. The statements for the provers. Each docstring names the rules of spec/ it formalises; what rests on a
choice of the model names its assumption log entry. -/

open Sys2Proof Sys2Proof.Machine Sys2Proof.Safety

/-! ### Codec (40_codec.md) -/

/-- R102, both quoted properties: `PACK` and `UNPACK` are inverse to each other on codes and on byte triples. -/
def Obligations.UnpackInvertsPack : Prop :=
  (∀ k : Int, 0 ≤ k → k < 16777216 →
    ∃ t : Triple, pack k = .ok t ∧ unpack t.b0.toNat t.b1.toNat t.b2.toNat = .ok (BitVec.ofInt 24 k)) ∧
  (∀ t : Triple, ∃ c : Code, unpack t.b0.toNat t.b1.toNat t.b2.toNat = .ok c ∧ pack c.toNat = .ok t)

/-- R100: `PACK` answers the three big-endian bytes of a code in `[0, 2^24)` and `RangeError` outside, and changes
nothing but the completion. -/
def Obligations.PackAnswersBigEndianBytes : Prop :=
  ∀ (k : Int) (s : State), s.seq.phase = .idle →
    exec (.pack k) s = .next { s with completion := some (
      if 0 ≤ k ∧ k < 16777216 then
        .ok (.bytes ⟨BitVec.ofInt 8 (k / 65536), BitVec.ofInt 8 (k / 256), BitVec.ofInt 8 k⟩)
      else .err (.rangeError (.code k))) }

/-- R101: `UNPACK` answers `b0 * 2^16 + b1 * 2^8 + b2` for three words in `0..255`; otherwise `RangeError` with the
first word out of range in the order `b0`, `b1`, `b2`. Nothing but the completion changes. -/
def Obligations.UnpackAnswersCodeOrFirstBadWord : Prop :=
  ∀ (w0 w1 w2 : Int) (s : State), s.seq.phase = .idle →
    exec (.unpack w0 w1 w2) s = .next { s with completion := some (
      if ¬ (0 ≤ w0 ∧ w0 < 256) then .err (.rangeError (.word 0 w0))
      else if ¬ (0 ≤ w1 ∧ w1 < 256) then .err (.rangeError (.word 1 w1))
      else if ¬ (0 ≤ w2 ∧ w2 < 256) then .err (.rangeError (.word 2 w2))
      else .ok (.code (BitVec.ofInt 24 (w0 * 65536 + w1 * 256 + w2)))) }

/-- R103, R104, R105: `HAS_BITS` asks for every bit of the mask, `SET_BITS` is or, `CLEAR_BITS` is and-not within 24
bits; nothing but the completion changes. -/
def Obligations.BitHelpersAnswer : Prop :=
  ∀ (c m : Code) (s : State), s.seq.phase = .idle →
    exec (.hasBits c m) s = .next { s with completion := some (.ok (.bool (decide
      (∀ i : Fin 24, m.getLsbD i.val = true → c.getLsbD i.val = true)))) } ∧
    exec (.setBits c m) s = .next { s with completion := some (.ok (.code (c ||| m))) } ∧
    exec (.clearBits c m) s = .next { s with completion := some (.ok (.code (c &&& (0xFFFFFF#24 ^^^ m)))) }

/-! ### Voltage map (41_voltage_map.md) -/

/-- R111, R113, R115: for every evaluation `C2V` completes with the voltage of the evaluation that the parameters
select; in the exact reading that is the exclusive or of bit 19 where asked for, then the linear map of `[0, 2^20 - 1]`
onto the references. -/
def Obligations.C2vAnswersLinearMap : Prop :=
  ∀ (p : Payload) (tc : Bool) (s : State), s.seq.phase = .idle →
    exec (.c2v p tc) s = .next { s with completion := some (.ok (.volt (c2v s.params p tc))) } ∧
    (s.params.voltEval = none →
      c2v s.params p tc = (s.params.vrefp - s.params.vrefn) *
        (((if tc then p ^^^ 0x80000#20 else p).toNat : Nat) : Rat) / 1048575 + s.params.vrefn)

/-- R112, R115, R116: inside the references `V2C` answers a raw code, then the exclusive or of bit 19 where asked for.
In the exact reading the raw code is the floor of the quotient; for every evaluation it is at most one step from that
floor, and `C2V` of the answer completes within one quantization step of the voltage (R115 c). -/
def Obligations.V2cAnswersFlooredCode : Prop :=
  ∀ (q : Rat) (tc : Bool) (s : State), s.seq.phase = .idle →
    s.params.vrefn < s.params.vrefp → s.params.vrefn ≤ q → q ≤ s.params.vrefp →
    ∃ (raw floor : Nat) (p : Payload) (w : Rat), raw ≤ 1048575 ∧
      (floor : Rat) ≤ (q - s.params.vrefn) * 1048575 / (s.params.vrefp - s.params.vrefn) ∧
      (q - s.params.vrefn) * 1048575 / (s.params.vrefp - s.params.vrefn) < (floor : Rat) + 1 ∧
      (s.params.voltEval = none → raw = floor) ∧ raw ≤ floor + 1 ∧ floor ≤ raw + 1 ∧
      p = (if tc then BitVec.ofNat 20 raw ^^^ 0x80000#20 else BitVec.ofNat 20 raw) ∧
      exec (.v2c (.fin q) tc) s = .next { s with completion := some (.ok (.payload p)) } ∧
      exec (.c2v p tc) s = .next { s with completion := some (.ok (.volt w)) } ∧
      |w - q| ≤ (s.params.vrefp - s.params.vrefn) / 1048575

/-- R116: outside the references, and for the non-finite values, `V2C` answers `RangeError`, whatever evaluation of the
map the parameters select (R115 b). -/
def Obligations.V2cRangeError : Prop :=
  ∀ (v : Volt) (tc : Bool) (s : State), s.seq.phase = .idle →
    (∀ q, v = .fin q → q < s.params.vrefn ∨ s.params.vrefp < q) →
    exec (.v2c v tc) s = .next { s with completion := some (.err (.rangeError (.volt v))) }

/-- R114: for every evaluation that R115 admits, a voltage inside the references comes back within one quantization
step; in the exact reading it comes back from below by less than a step, and `V2C(C2V(c)) = c` for every 20-bit code. -/
def Obligations.VoltageRoundTrips : Prop :=
  (∀ (P : Params) (q : Rat) (tc : Bool), P.vrefn < P.vrefp → P.vrefn ≤ q → q ≤ P.vrefp →
    ∃ p, v2c P (.fin q) tc = .ok p ∧ |c2v P p tc - q| ≤ (P.vrefp - P.vrefn) / 1048575 ∧
      (P.voltEval = none → 0 ≤ q - c2v P p tc ∧ q - c2v P p tc < (P.vrefp - P.vrefn) / 1048575)) ∧
  (∀ (P : Params) (p : Payload) (tc : Bool), P.voltEval = none → P.vrefn < P.vrefp →
    v2c P (.fin (c2v P p tc)) tc = .ok p)

/-! ### Encoders and decoder (42_register_model.md R121 to R124) -/

/-- R121, R122, R123: `ENC_NOP` is 0; `ENC_WRITE` is `SEL(R) * 2^20 + p` for a payload inside the legal mask and
`InvalidPayload` with the offending bits otherwise; `ENC_READ` sets bit 23 and carries payload 0. The constants are
those of R120 (R72 to R75): selects 1 to 4; all twenty bits legal in DATA and CLEAR, bits 2..0 in SOFT, and in CONTROL
the nine positions of `CTRL_POS` (R31) and no other bit. -/
def Obligations.EncodersAnswerCodes : Prop :=
  (∀ (r : Reg) (p : Payload) (s : State), s.seq.phase = .idle →
    exec .encNop s = .next { s with completion := some (.ok (.code 0#24)) } ∧
    exec (.encWrite r p) s = .next { s with completion := some (
      if p &&& regMask s.params r = p then
        .ok (.code (BitVec.ofNat 24 ((selectCode r).toNat * 1048576 + p.toNat)))
      else .err (.invalidPayload r (p &&& ~~~ regMask s.params r))) } ∧
    exec (.encRead r) s = .next { s with completion := some (.ok (.code
      (BitVec.ofNat 24 (8388608 + (selectCode r).toNat * 1048576)))) }) ∧
  (selectCode .data = 1#3 ∧ selectCode .control = 2#3 ∧ selectCode .clear = 3#3 ∧ selectCode .soft = 4#3) ∧
  (∀ P : Params, regMask P .data = 0xFFFFF#20 ∧ regMask P .clear = 0xFFFFF#20 ∧ regMask P .soft = 0x00007#20 ∧
    ∀ k : Fin 20, (regMask P .control).getLsbD k.val = true ↔
      k = P.ctrlPos.rbuf ∨ k = P.ctrlPos.opgnd ∨ k = P.ctrlPos.dactri ∨ k = P.ctrlPos.bin2sc ∨
      k = P.ctrlPos.sdodis ∨ k = P.ctrlPos.lincomp0 ∨ k = P.ctrlPos.lincomp1 ∨ k = P.ctrlPos.lincomp2 ∨
      k = P.ctrlPos.lincomp3)

/-- R124: the select check, then the mask check, then bits 19..0; bit 23 is not examined. -/
def Obligations.DecReadbackChecksSelectThenMask : Prop :=
  ∀ (r : Reg) (c : Code) (s : State), s.seq.phase = .idle →
    exec (.decReadback r c) s = .next { s with completion := some (
      if c.toNat / 1048576 % 8 ≠ (selectCode r).toNat then .err (.protocolError .selectMismatch r c)
      else if BitVec.ofNat 20 c.toNat &&& regMask s.params r ≠ BitVec.ofNat 20 c.toNat then
        .err (.protocolError .maskViolation r c)
      else .ok (.payload (BitVec.ofNat 20 c.toNat))) }

/-! ### Wire commands (45_wire_commands.md) -/

/-- R202, R203, R204, R215: a register write stores `p & MASK(R)` in its register, leaves the other registers and
the output alone, and touches nothing outside the DAC. (A frame by itself: assumption log 14.) -/
def Obligations.WireWritesStoreMaskedPayload : Prop :=
  ∀ (p : Payload) (s : State),
    (∃ e : Env, exec (.wireWrData p) s = .next { s with env := e } ∧ e.dac.data = p ∧
      e.dac.control = s.env.dac.control ∧ e.dac.clear = s.env.dac.clear ∧ e.dac.out = s.env.dac.out ∧
      e.peer.bridge = s.env.peer.bridge ∧ e.mode = s.env.mode ∧ e.replies = s.env.replies) ∧
    (∃ e : Env, exec (.wireWrControl p) s = .next { s with env := e } ∧
      e.dac.control = p &&& regMask s.params .control ∧
      e.dac.data = s.env.dac.data ∧ e.dac.clear = s.env.dac.clear ∧ e.dac.out = s.env.dac.out ∧
      e.peer.bridge = s.env.peer.bridge ∧ e.mode = s.env.mode ∧ e.replies = s.env.replies) ∧
    (∃ e : Env, exec (.wireWrClear p) s = .next { s with env := e } ∧ e.dac.clear = p ∧
      e.dac.data = s.env.dac.data ∧ e.dac.control = s.env.dac.control ∧ e.dac.out = s.env.dac.out ∧
      e.peer.bridge = s.env.peer.bridge ∧ e.mode = s.env.mode ∧ e.replies = s.env.replies)

/-- R201, R212, R215: NOP and a read of SOFT address no register: registers and output stay, and nothing outside the
DAC changes (the code shifted out next is free). (A frame by itself, in either mode of the peer and without
completion: assumption log 14.) -/
def Obligations.WireNopAndSoftReadChangeNoRegister : Prop :=
  ∀ (s : State) (i : Instr), i = .wireNop ∨ i = .wireRdSoft →
    ∃ e : Env, exec i s = .next { s with env := e } ∧ e.dac = { s.env.dac with sdo := e.dac.sdo } ∧
      e.peer.bridge = s.env.peer.bridge ∧ e.mode = s.env.mode ∧ e.replies = s.env.replies

/-- R209, R210, R211, R215: a read leaves the registers and the output alone, and the code shifted out during the
next frame carries the register's select code in bits 22..20 and its value in bits 19..0. (A frame by itself, in
either mode of the peer: assumption log 14.) -/
def Obligations.WireReadsAnswerInTheNextFrame : Prop :=
  ∀ (s : State) (r : Reg) (i : Instr),
    (r = .data ∧ i = .wireRdData) ∨ (r = .control ∧ i = .wireRdControl) ∨ (r = .clear ∧ i = .wireRdClear) →
    ∃ e : Env, exec i s = .next { s with env := e } ∧ e.dac = { s.env.dac with sdo := e.dac.sdo } ∧
      e.dac.sdo.toNat / 1048576 % 8 = (selectCode r).toNat ∧
      e.dac.sdo.toNat % 1048576 = (s.env.dac.read r).toNat ∧
      e.peer.bridge = s.env.peer.bridge ∧ e.mode = s.env.mode ∧ e.replies = s.env.replies

/-- R205 to R208, R215, U4: a SOFT write with none of bits 2..0 pulses nothing; with bit 0 alone the output takes DATA and
the registers stay; with bit 1 or 2 DATA, CONTROL, CLEAR, the output and the code shifted out next become five fresh
draws, CONTROL inside its mask, those a test has fixed where it has fixed them (the order of the draws is assumption
log 12). Nothing outside the DAC changes in any case. The three named SOFT commands are `WR_SOFT` with payloads 1, 2 and
4. (A frame by itself: assumption log 14.) -/
def Obligations.WireSoftWritesPulse : Prop :=
  (∀ (p : Payload) (s : State), ∃ e : Env,
    exec (.wireWrSoft p) s = .next { s with env := e } ∧
    (p.getLsbD 0 = false → p.getLsbD 1 = false → p.getLsbD 2 = false →
      e.dac = { s.env.dac with sdo := e.dac.sdo }) ∧
    (p.getLsbD 0 = true → p.getLsbD 1 = false → p.getLsbD 2 = false →
      e.dac = { s.env.dac with sdo := e.dac.sdo, out := s.env.dac.data }) ∧
    (p.getLsbD 1 = true ∨ p.getLsbD 2 = true →
      let d1 := s.env.draw
      let d2 := d1.2.draw
      let d3 := d2.2.draw
      let d4 := d3.2.draw
      let d5 := d4.2.draw
      e.dac = { data := d1.1.extractLsb' 0 20
                control := d2.1.extractLsb' 0 20 &&& regMask s.params .control
                clear := d3.1.extractLsb' 0 20
                out := d4.1.extractLsb' 0 20
                sdo := d5.1 }) ∧
    (∀ (a b c d x : Code) (rest : List Code), p.getLsbD 1 = true ∨ p.getLsbD 2 = true →
      s.env.fixedDraws = a :: b :: c :: d :: x :: rest →
      e.fixedDraws = rest ∧
      e.dac = { data := a.extractLsb' 0 20
                control := b.extractLsb' 0 20 &&& regMask s.params .control
                clear := c.extractLsb' 0 20
                out := d.extractLsb' 0 20
                sdo := x }) ∧
    e.peer.bridge = s.env.peer.bridge ∧ e.mode = s.env.mode ∧ e.replies = s.env.replies) ∧
  (∀ s : State,
    (∃ e : Env, exec .wireSoftLdac s = .next { s with env := e } ∧
      e.dac = { s.env.dac with sdo := e.dac.sdo, out := s.env.dac.data }) ∧
    (∃ e : Env, exec .wireSoftClear s = .next { s with env := e }) ∧
    (∃ e : Env, exec .wireSoftReset s = .next { s with env := e }) ∧
    exec .wireSoftLdac s = exec (.wireWrSoft 1#20) s ∧
    exec .wireSoftClear s = exec (.wireWrSoft 2#20) s ∧
    exec .wireSoftReset s = exec (.wireWrSoft 4#20) s)

/-- R214, R215: what the DAC does with a frame inside a committed batch is what the wire command that the frame
decodes to does by itself. (A frame by itself: assumption log 14.) -/
def Obligations.BatchFrameMeansItsWireCommand : Prop :=
  ∀ (c : Code) (i : Instr) (s : State), decode (.wire (packCode c)) = .ok i →
    exec i s = .next { s with env := dacFrame s.params c s.env }

/-- R73, R215: no wire command, whatever its payload, leaves an illegal bit in CONTROL. (A frame by itself, and a
write that stores the masked payload: assumption log 14.) -/
def Obligations.WireCommandsKeepControlLegal : Prop :=
  ∀ (i : Instr) (s t : State), isWireCommand i = true →
    s.env.dac.control &&& regMask s.params .control = s.env.dac.control →
    exec i s = .next t → t.env.dac.control &&& regMask t.params .control = t.env.dac.control

/-! ### Transport lines (30_encoding.md R84 to R98) -/

/-- R84, R234, R236 (a): each of the seven setup lines and the teardown line, sent between batches, is emitted once,
with its answer appended to the trace; it completes without a value, or with `TransportError` naming the line.
(Assumption log 6: the line as a step by itself.) -/
def Obligations.CommandLinesAreEmitted : Prop :=
  ∀ (l : Line) (s : State), s.seq.phase = .idle →
    ((∃ path, l = .initDev path) ∨ l = .setDef ∨ l = .setGet ∨ l = .setMode ∨ (∃ k, l = .setSpeed k) ∨ l = .setWord ∨
      l = .setSet ∨ l = .release) →
    ∃ (a : Answer) (e : Env), (a = .ok ∨ a = .fail) ∧ LeavesReplies s s.env.replies.tail e ∧
      exec (lineInstr l) s = .next { s with
        env := e, trace := s.trace ++ [⟨l, a⟩],
        completion := some (if a = .fail then .err (.transportError l) else .ok .none) }

/-- R216: the reference peer answers `ok` to each of the seven setup lines and to the teardown line, and records what
they say. (Assumption log 6: the line as a step by itself. That its record is a flag or the last operand of each line is
log 4.) -/
def Obligations.ReferencePeerRecordsSettings : Prop :=
  ∀ (s : State) (path : List Char) (k : Nat), s.seq.phase = .idle → WellBehaved s →
    let b := s.env.peer.bridge
    let answered : Line → Bridge → Host.Outcome State Fault Refusal := fun l b' => .next { s with
      env := s.env.setBridge b', trace := s.trace ++ [⟨l, .ok⟩], completion := some (.ok .none) }
    exec (.lineInitDev path) s = answered (.initDev path)
      { b with claimed := true, settings := { b.settings with dev := some path } } ∧
    exec .lineSetDef s = answered .setDef { b with settings := { b.settings with setDef := true } } ∧
    exec .lineSetGet s = answered .setGet { b with settings := { b.settings with setGet := true } } ∧
    exec .lineSetMode s = answered .setMode { b with settings := { b.settings with setMode := true } } ∧
    exec (.lineSetSpeed k) s = answered (.setSpeed k) { b with settings := { b.settings with speed := some k } } ∧
    exec .lineSetWord s = answered .setWord { b with settings := { b.settings with setWord := true } } ∧
    exec .lineSetSet s = answered .setSet { b with settings := { b.settings with setSet := true } } ∧
    exec .lineRelease s = answered .release { b with claimed := false }

/-- R98, R186, R216: the speed query emits one line and completes with the integer it is answered, or with
`TransportError`; `GET_SPEED` is that line under a session; the reference peer answers the last speed set. (Assumption
log 6: the line as a step by itself. That an answer that is no integer counts as a failure is log 9.) -/
def Obligations.SpeedQueryReturnsItsAnswer : Prop :=
  ∀ s : State, s.seq.phase = .idle →
    (∃ (a : Answer) (e : Env), (a = .fail ∨ ∃ k, a = .int k) ∧ LeavesReplies s s.env.replies.tail e ∧
      (WellBehaved s → ∀ k, s.env.peer.bridge.settings.speed = some k → a = .int k ∧ e = s.env) ∧
      exec .lineSpeedq s = .next { s with
        env := e, trace := s.trace ++ [⟨.speedq, a⟩],
        completion := some (match a with
          | .int k => .ok (.int k)
          | _ => .err (.transportError .speedq)) }) ∧
    (s.sess = .claimed → exec .getSpeed s = exec .lineSpeedq s)

/-- R92, R152, R162: `CREATE(n)` under a session opens a batch of `n` slots in `(STAGING, 0, 0)`; when it fails the
phase stays `IDLE` and the completion is `TransportError`. R214: the reference peer answers `ok` and opens `n` empty
slots. (That the line stands as a step by itself, and that a slot not yet staged holds the frame `(0, 0, 0)`, is
assumption log 6; the cleared working state is log 5.) -/
def Obligations.CreateLineOpensBatch : Prop :=
  ∀ (n : Nat) (s : State), Ready s → 1 ≤ n → n ≤ s.params.maxBatch →
    ∃ (a : Answer) (e : Env), (a = .ok ∨ a = .fail) ∧ LeavesReplies s s.env.replies.tail e ∧
      (WellBehaved s → a = .ok ∧ e = s.env.setBridge { s.env.peer.bridge with
        isOpen := true, n := n, tx := List.replicate n none, rx := List.replicate n none }) ∧
      exec (.lineCreate n) s = .next (
        if a = .fail then { s with
          env := e, trace := s.trace ++ [⟨.create n, a⟩], seq := Seq.idle,
          completion := some (.err (.transportError (.create n))) }
        else { s with
          env := e, trace := s.trace ++ [⟨.create n, a⟩],
          seq := { phase := .staging, n := n, tx := List.replicate n ⟨0, 0, 0⟩, expect := List.replicate n .none,
                   result := List.replicate n none, ptr := 0, fptr := 0, err := none } })

/-- R51, R93, R153, R162: `STAGE` of the next slot writes the slot, emits the line, and moves `ptr` on; when the line
fails the position stays and `TransportError` is recorded. R214: the reference peer answers `ok` and holds the frame in
that slot. (Assumption log 6: the line as a step by itself.) -/
def Obligations.StageLineStagesNextSlot : Prop :=
  ∀ (b0 b1 b2 : Byte) (s : State), s.seq.phase = .staging → s.seq.err = none → s.seq.ptr < s.seq.n →
    s.seq.tx.length = s.seq.n →
    ∃ (a : Answer) (e : Env), (a = .ok ∨ a = .fail) ∧ LeavesReplies s s.env.replies.tail e ∧
      (WellBehaved s → a = .ok ∧ e = s.env.setBridge { s.env.peer.bridge with
        tx := s.env.peer.bridge.tx.set s.seq.ptr (some ⟨b0, b1, b2⟩) }) ∧
      exec (.lineStage s.seq.ptr b0 b1 b2) s = .next { s with
        env := e, trace := s.trace ++ [⟨.stage s.seq.ptr ⟨b0, b1, b2⟩, a⟩],
        seq := if a = .fail then { s.seq with
            tx := s.seq.tx.set s.seq.ptr ⟨b0, b1, b2⟩,
            err := some (.transportError (.stage s.seq.ptr ⟨b0, b1, b2⟩)) }
          else { s.seq with tx := s.seq.tx.set s.seq.ptr ⟨b0, b1, b2⟩, ptr := s.seq.ptr + 1 } }

/-- R94, R154, R162: `PASS` with every slot staged commits the batch; when it fails the position stays and
`TransportError` is recorded. R214: the reference peer answers `ok`; from a drawn shift-out code on, its DAC executes
the frames in slot order, and each receive slot takes what the DAC shifts out before it executes the slot's frame.
(Assumption log 6: the line as a step by itself.) -/
def Obligations.PassLineCommits : Prop :=
  ∀ s : State, s.seq.phase = .staging → s.seq.err = none → s.seq.ptr = s.seq.n →
    ∃ (a : Answer) (e : Env), (a = .ok ∨ a = .fail) ∧ LeavesReplies s s.env.replies.tail e ∧
      (WellBehaved s → a = .ok ∧ ∀ frames : List Triple, s.env.peer.bridge.tx = frames.map some →
        ∃ (states : List Env) (last : Env), states.length = frames.length ∧
          (states ++ [last])[0]? = some s.env.drawSdo ∧
          (∀ i f d, frames[i]? = some f → states[i]? = some d →
            (states ++ [last])[i + 1]? = some (dacFrame s.params (unpackBytes f) d)) ∧
          e = last.setBridge { s.env.peer.bridge with rx := states.map fun d => some (packCode d.dac.sdo) }) ∧
      exec .linePass s = .next { s with
        env := e, trace := s.trace ++ [⟨.pass, a⟩],
        seq := if a = .fail then { s.seq with err := some (.transportError .pass) }
          else { s.seq with phase := .committed, ptr := s.seq.n, fptr := 0 } }

/-- R52, R95, R155, R162: `RXQ(i)` of the next wanted slot, the slots before it expecting nothing, emits the line. Where
the slot names a register, the triple must pass `DEC_READBACK` for it; a triple that passes is kept and `fptr` moves past
the slot; a failure or a failed check is recorded. R95, R55, R234, D25: a text answer of three decimals in `0..255` is
those three bytes, the first the most significant; any other text, a number above 255 among them, is answered `fail` and
so recorded as `TransportError` of this line. The first clause says the same of the reader of such texts. (Braces without
spaces, leading zeros read: assumption log 9.) R214: the reference peer answers what it holds in the slot. (Assumption
log 6: the line as a step by itself, of a slot that expects nothing as well.) -/
def Obligations.RxqLineFetchesSlot : Prop :=
  (∀ (text : List Char) (t : Triple),
    readTriple text = some t ↔ IsTriple text t.b0.toNat t.b1.toNat t.b2.toNat) ∧
  (∀ (i : Nat) (s : State), s.seq.phase = .committed → s.seq.err = none → s.seq.fptr ≤ i → i < s.seq.n →
    (∀ j x, s.seq.fptr ≤ j → j < i → s.seq.expect[j]? = some x → x = .none) →
    ∃ (a : Answer) (e : Env), (a = .fail ∨ ∃ t, a = .bytes t) ∧ LeavesReplies s s.env.replies.tail e ∧
      (WellBehaved s → ∀ t, s.env.peer.bridge.rx[i]? = some (some t) → a = .bytes t ∧ e = s.env) ∧
      (∀ (text : List Char) (rest : List Reply), s.env.replies = .text text :: rest →
        (∀ v0 v1 v2, IsTriple text v0 v1 v2 → v0 < 256 → v1 < 256 → v2 < 256 →
          a = .bytes ⟨BitVec.ofNat 8 v0, BitVec.ofNat 8 v1, BitVec.ofNat 8 v2⟩ ∧
          (unpackBytes ⟨BitVec.ofNat 8 v0, BitVec.ofNat 8 v1, BitVec.ofNat 8 v2⟩).toNat
            = v0 * 65536 + v1 * 256 + v2) ∧
        ((∀ v0 v1 v2, IsTriple text v0 v1 v2 → 255 < v0 ∨ 255 < v1 ∨ 255 < v2) → a = .fail)) ∧
      exec (.lineRxq i) s = .next { s with
        env := e, trace := s.trace ++ [⟨.rxq i, a⟩],
        seq := match a with
          | .bytes t =>
            match s.seq.expect[i]? with
            | some (.reg r) =>
              match decReadback s.params r (unpackBytes t) with
              | .ok _ => { s.seq with result := s.seq.result.set i (some (unpackBytes t)), fptr := i + 1 }
              | .error x => { s.seq with fptr := i, err := some x }
            | _ => { s.seq with result := s.seq.result.set i (some (unpackBytes t)), fptr := i + 1 }
          | _ => { s.seq with fptr := i, err := some (.transportError (.rxq i)) } })

/-- R96, R156, R239: `DEL`, from a pending error or a committed batch with no wanted slot left to fetch, returns to
`IDLE` whatever it is answered; the pending error wins, a failing `DEL` alone is `TransportError`, else the results are
the value. R214: the reference peer answers `ok`, closes its batch and drops the slots (that its slot count is 0 then is
assumption log 21). (That the working state is cleared is log 5; that the line stands as a step by itself is log 6.) -/
def Obligations.DelLineEndsBatch : Prop :=
  ∀ s : State, s.seq.phase ≠ .idle →
    (s.seq.err ≠ none ∨ (s.seq.phase = .committed ∧
      ∀ j x, s.seq.fptr ≤ j → j < s.seq.n → s.seq.expect[j]? = some x → x = .none)) →
    ∃ (a : Answer) (e : Env), (a = .ok ∨ a = .fail) ∧ LeavesReplies s s.env.replies.tail e ∧
      (WellBehaved s → a = .ok ∧ e = s.env.setBridge { s.env.peer.bridge with
        isOpen := false, n := 0, tx := [], rx := [] }) ∧
      exec .lineDel s = .next { s with
        env := e, trace := s.trace ++ [⟨.del, a⟩], seq := Seq.idle,
        completion := some (match s.seq.err with
          | some x => .err x
          | none => if a = .fail then .err (.transportError .del) else .ok (.codes s.seq.result)) }

/-- R50, R152 to R156, R162: the lines of the batch protocol stop where the transition table has no transition: a slot
that does not exist faults; `CREATE` is refused while a batch is open, without a session, and for a size that no batch
has; `STAGE`, `PASS`, `RXQ` and `DEL` are refused out of order, with an error pending (`DEL` alone may follow it), and
where a wanted slot would be passed over. (Which fault or refusal it is, is assumption log 6.) -/
def Obligations.SequencerLinesStopOutOfOrder : Prop :=
  ∀ (s : State) (i : Nat) (b0 b1 b2 : Byte),
    (s.seq.phase ≠ .idle → exec (.lineCreate i) s = .refused .busy) ∧
    (s.seq.phase = .idle → s.sess = .closed → exec (.lineCreate i) s = .refused .sessionClosed) ∧
    (s.seq.phase = .idle → s.sess = .claimed → i = 0 ∨ s.params.maxBatch < i →
      exec (.lineCreate i) s = .refused .batchSize) ∧
    (s.seq.phase = .idle ∨ s.seq.n ≤ i →
      exec (.lineStage i b0 b1 b2) s = .fault (.noSlot i) ∧ exec (.lineRxq i) s = .fault (.noSlot i)) ∧
    (s.seq.phase ≠ .idle → i < s.seq.n →
      (s.seq.phase = .committed ∨ s.seq.err ≠ none ∨ i ≠ s.seq.ptr →
        exec (.lineStage i b0 b1 b2) s = .refused .outOfOrder) ∧
      (s.seq.phase = .staging ∨ s.seq.err ≠ none ∨ i < s.seq.fptr ∨
          (∃ j x, s.seq.fptr ≤ j ∧ j < i ∧ s.seq.expect[j]? = some x ∧ x ≠ .none) →
        exec (.lineRxq i) s = .refused .outOfOrder)) ∧
    (s.seq.phase ≠ .staging ∨ s.seq.err ≠ none ∨ s.seq.ptr ≠ s.seq.n → exec .linePass s = .refused .outOfOrder) ∧
    (s.seq.phase = .idle ∨ (s.seq.err = none ∧ (s.seq.phase = .staging ∨
        ∃ j x, s.seq.fptr ≤ j ∧ j < s.seq.n ∧ s.seq.expect[j]? = some x ∧ x ≠ .none)) →
      exec .lineDel s = .refused .outOfOrder)

/-! ### Register access (42_register_model.md R125 to R133) -/

/-- R125: `REG_READ(R)` sends the read code and NOP as one batch of 2, fetches slot 1, and returns its checked
payload (or the `ProtocolError` of R124); it leaves the block state as it was. For every peer it is the `RUN_BATCH` of
that batch: where that completes with an error it completes with the same error (R236 b, R237), else with bits 19..0 of
the code fetched in slot 1. (Cleared working state: assumption log 5.) -/
def Obligations.RegReadReturnsCheckedPayload : Prop :=
  (∀ (r : Reg) (s : State) (txt : List Char) (t : Triple) (rest : List Reply),
    Ready s → s.env.replies = goodReplies 2 [txt] ++ rest → readTriple txt = some t →
    ∃ e : Env, LeavesReplies s rest e ∧
      exec (.regRead r) s = .next { s with
        seq := Seq.idle, env := e,
        trace := s.trace ++ [⟨.create 2, .ok⟩, ⟨.stage 0 (packCode (encRead r)), .ok⟩, ⟨.stage 1 ⟨0, 0, 0⟩, .ok⟩,
          ⟨.pass, .ok⟩, ⟨.rxq 1, .bytes t⟩, ⟨.del, .ok⟩],
        completion := some (match decReadback s.params r (unpackBytes t) with
          | .ok p => .ok (.payload p)
          | .error x => .err x) }) ∧
  (∀ (r : Reg) (s u : State),
    exec (.runBatch [8388608 + ((selectCode r).toNat : Int) * 1048576, 0] [.none, .reg r]) s = .next u →
    (∃ x, u.completion = some (.err x) ∧ exec (.regRead r) s = .next u) ∨
    (∃ cs c, u.completion = some (.ok (.codes cs)) ∧ cs[1]? = some (some c) ∧
      exec (.regRead r) s = .next { u with completion := some (.ok (.payload (c.extractLsb' 0 20))) }))

/-- R126: `REG_WRITE(R, p)` with a legal payload sends the write code and NOP as one batch of 2 and fetches nothing.
For every peer it is the `RUN_BATCH` of that batch: where that completes with an error it completes with the same error
(R236 b, R237), else with nothing. (Cleared working state: assumption log 5.) -/
def Obligations.RegWriteSendsOneBatch : Prop :=
  (∀ (r : Reg) (p : Payload) (s : State) (rest : List Reply),
    Ready s → p &&& regMask s.params r = p → s.env.replies = goodReplies 2 [] ++ rest →
    ∃ e : Env, LeavesReplies s rest e ∧
      exec (.regWrite r p) s = .next { s with
        seq := Seq.idle, env := e,
        trace := s.trace ++ [⟨.create 2, .ok⟩, ⟨.stage 0 (packCode (writeCode r p)), .ok⟩, ⟨.stage 1 ⟨0, 0, 0⟩, .ok⟩,
          ⟨.pass, .ok⟩, ⟨.del, .ok⟩],
        completion := some (.ok .none) }) ∧
  (∀ (r : Reg) (p : Payload) (s u : State), p &&& regMask s.params r = p →
    exec (.runBatch [((selectCode r).toNat : Int) * 1048576 + p.toNat, 0] [.none, .none]) s = .next u →
    (∃ x, u.completion = some (.err x) ∧ exec (.regWrite r p) s = .next u) ∨
    (∃ cs, u.completion = some (.ok (.codes cs)) ∧
      exec (.regWrite r p) s = .next { u with completion := some (.ok .none) }))

/-- R122, R126, R232: an illegal payload is rejected with the offending bits, "and performs no transaction". -/
def Obligations.RegWriteRejectsIllegalPayload : Prop :=
  ∀ (r : Reg) (p : Payload) (s : State), Ready s → p &&& regMask s.params r ≠ p →
    exec (.regWrite r p) s = .next { s with completion := some (.err (.invalidPayload r (p &&& ~~~ regMask s.params r))) }

/-- R127, R129: the flag getters answer one bit of CONTROL after exactly one CONTROL read. For every peer: where that
read completes with an error, the getter is that read and completes with that error; where it completes with a payload,
the getter is that read with one bit of the payload as its value. (Cleared working state: assumption log 5.) -/
def Obligations.FlagGettersReadControlOnce : Prop :=
  (∀ (s : State) (txt : List Char) (t : Triple) (p : Payload) (rest : List Reply),
    Ready s → s.env.replies = goodReplies 2 [txt] ++ rest → readTriple txt = some t →
    decReadback s.params .control (unpackBytes t) = .ok p →
    ∃ e : Env, LeavesReplies s rest e ∧
      (∀ (i : Instr) (k : Fin 20),
        (i = .getTristate ∧ k = s.params.ctrlPos.dactri) ∨ (i = .getOpgnd ∧ k = s.params.ctrlPos.opgnd) →
        exec i s = .next { s with
          seq := Seq.idle, env := e,
          trace := s.trace ++ [⟨.create 2, .ok⟩, ⟨.stage 0 ⟨0xA0, 0, 0⟩, .ok⟩, ⟨.stage 1 ⟨0, 0, 0⟩, .ok⟩,
            ⟨.pass, .ok⟩, ⟨.rxq 1, .bytes t⟩, ⟨.del, .ok⟩],
          completion := some (.ok (.bool (p.getLsbD k.val))) })) ∧
  (∀ (s t : State) (x : Err) (i : Instr), i = .getTristate ∨ i = .getOpgnd →
    exec (.regRead .control) s = .next t → t.completion = some (.err x) → exec i s = .next t) ∧
  (∀ (s t : State) (p : Payload) (i : Instr) (k : Fin 20),
    (i = .getTristate ∧ k = s.params.ctrlPos.dactri) ∨ (i = .getOpgnd ∧ k = s.params.ctrlPos.opgnd) →
    exec (.regRead .control) s = .next t → t.completion = some (.ok (.payload p)) →
    exec i s = .next { t with completion := some (.ok (.bool (p.getLsbD k.val))) })

/-- R128, R130: the flag setters read CONTROL in one batch and write it back in a second one, always, with the one bit
set or cleared and every other bit as it was read. R236 (c), whatever the peer: where the CONTROL read completes with an
error, the setter is that read: it completes with that error, and there is no second batch; where it completes with a
payload, the setter is that read and then the `REG_WRITE` of the changed payload, in whatever that ends. (Cleared working
state: assumption log 5.) -/
def Obligations.FlagSettersChangeOneBit : Prop :=
  (∀ (b : Bool) (s : State) (txt : List Char) (t : Triple) (p : Payload) (rest : List Reply),
    Ready s → s.env.replies = goodReplies 2 [txt] ++ goodReplies 2 [] ++ rest → readTriple txt = some t →
    decReadback s.params .control (unpackBytes t) = .ok p →
    ∀ (i : Instr) (k : Fin 20),
      (i = .setTristate b ∧ k = s.params.ctrlPos.dactri) ∨ (i = .setOpgnd b ∧ k = s.params.ctrlPos.opgnd) →
      ∃ (e : Env) (w : Payload), LeavesReplies s rest e ∧
        (∀ j : Fin 20, w.getLsbD j.val = if j = k then b else p.getLsbD j.val) ∧
        exec i s = .next { s with
          seq := Seq.idle, env := e,
          trace := s.trace ++ [⟨.create 2, .ok⟩, ⟨.stage 0 ⟨0xA0, 0, 0⟩, .ok⟩, ⟨.stage 1 ⟨0, 0, 0⟩, .ok⟩,
            ⟨.pass, .ok⟩, ⟨.rxq 1, .bytes t⟩, ⟨.del, .ok⟩,
            ⟨.create 2, .ok⟩, ⟨.stage 0 (packCode (writeCode .control w)), .ok⟩, ⟨.stage 1 ⟨0, 0, 0⟩, .ok⟩,
            ⟨.pass, .ok⟩, ⟨.del, .ok⟩],
          completion := some (.ok .none) }) ∧
  (∀ (b : Bool) (s t : State) (x : Err) (i : Instr), i = .setTristate b ∨ i = .setOpgnd b →
    exec (.regRead .control) s = .next t → t.completion = some (.err x) → exec i s = .next t) ∧
  (∀ (b : Bool) (s t : State) (p : Payload) (i : Instr) (k : Fin 20),
    (i = .setTristate b ∧ k = s.params.ctrlPos.dactri) ∨ (i = .setOpgnd b ∧ k = s.params.ctrlPos.opgnd) →
    exec (.regRead .control) s = .next t → t.completion = some (.ok (.payload p)) →
    ∃ w : Payload, (∀ j : Fin 20, w.getLsbD j.val = if j = k then b else p.getLsbD j.val) ∧
      exec i s = exec (.regWrite .control w) t)

/-- R131, R132, R133: each soft trigger is one batch, a single-bit write to SOFT and NOP, with nothing fetched; the
block's own state does not change. For every peer it is the `RUN_BATCH` of that batch: where that completes with an error
it completes with the same error (R236 b, R237), else with nothing. (Cleared working state: assumption log 5.) -/
def Obligations.SoftTriggersSendOnePulse : Prop :=
  (∀ (s : State) (rest : List Reply), Ready s → s.env.replies = goodReplies 2 [] ++ rest →
    ∀ (i : Instr) (b : Byte),
      (i = .softLdac ∧ b = 0x01#8) ∨ (i = .softClear ∧ b = 0x02#8) ∨ (i = .softReset ∧ b = 0x04#8) →
      ∃ e : Env, LeavesReplies s rest e ∧
        exec i s = .next { s with
          seq := Seq.idle, env := e,
          trace := s.trace ++ [⟨.create 2, .ok⟩, ⟨.stage 0 ⟨0x40, 0, b⟩, .ok⟩, ⟨.stage 1 ⟨0, 0, 0⟩, .ok⟩,
            ⟨.pass, .ok⟩, ⟨.del, .ok⟩],
          completion := some (.ok .none) }) ∧
  (∀ (s u : State) (i : Instr) (k : Int),
    (i = .softLdac ∧ k = 0x400001) ∨ (i = .softClear ∧ k = 0x400002) ∨ (i = .softReset ∧ k = 0x400004) →
    exec (.runBatch [k, 0] [.none, .none]) s = .next u →
    (∃ x, u.completion = some (.err x) ∧ exec i s = .next u) ∨
    (∃ cs, u.completion = some (.ok (.codes cs)) ∧
      exec i s = .next { u with completion := some (.ok .none) }))

/-! ### The sequencer (43_sequencer.md) -/

/-- R151: with every line answered and every check passed, `RUN_BATCH` emits `CREATE`, every `STAGE` in slot order,
`PASS`, one `RXQ` for each slot that expects something, `DEL`, and returns the codes slot by slot. The frame staged in
slot `i` is `PACK(frames[i])`, its three big-endian bytes (R100), and frames that are all in range are all packed.
(Cleared working state: assumption log 5.) -/
def Obligations.RunBatchReturnsFetchedCodes : Prop :=
  (∀ (frames : List Int) (expect : List Expect) (s : State) (tx : List Triple) (texts : List (List Char))
    (ts : List Triple) (rest : List Reply),
    Ready s → frames.length = expect.length → 1 ≤ frames.length → frames.length ≤ s.params.maxBatch →
    packFrames 0 frames = .ok tx →
    texts.map readTriple = ts.map some → ChecksPass s.params expect ts →
    s.env.replies = goodReplies frames.length texts ++ rest →
    ∃ (e : Env) (es : List Event), LeavesReplies s rest e ∧
      es.map Event.line = Line.create frames.length :: bodyLines tx expect ++ [Line.del] ∧
      (∀ ev ∈ es, ev.answer ≠ .fail) ∧
      exec (.runBatch frames expect) s = .next { s with
        seq := Seq.idle, env := e, trace := s.trace ++ es,
        completion := some (.ok (.codes (placeResults expect ts))) }) ∧
  (∀ frames : List Int, (∀ f ∈ frames, 0 ≤ f ∧ f < 16777216) → ∃ tx, packFrames 0 frames = .ok tx) ∧
  (∀ (frames : List Int) (tx : List Triple), packFrames 0 frames = .ok tx →
    tx.length = frames.length ∧
    ∀ (i : Nat) (k : Int), frames[i]? = some k → ∃ t, tx[i]? = some t ∧ pack k = .ok t ∧
      t = ⟨BitVec.ofInt 8 (k / 65536), BitVec.ofInt 8 (k / 256), BitVec.ofInt 8 k⟩)

/-- R151, R231, R238: a frame outside `[0, 2^24)` is a `RangeError` with the first such frame in list order, before any
line: nothing but the completion changes. -/
def Obligations.RunBatchRangeErrorNamesFirstBadFrame : Prop :=
  ∀ (pre post : List Int) (k : Int) (expect : List Expect) (s : State),
    Ready s → (pre ++ k :: post).length = expect.length → (pre ++ k :: post).length ≤ s.params.maxBatch →
    (∀ f ∈ pre, 0 ≤ f ∧ f < 16777216) → ¬ (0 ≤ k ∧ k < 16777216) →
    exec (.runBatch (pre ++ k :: post) expect) s =
      .next { s with completion := some (.err (.rangeError (.frame pre.length k))) }

/-- R160: for every peer, what a `RUN_BATCH` that is not refused appends to the trace is nothing when a frame is out of
range; else a failed `CREATE`, or `CREATE`, an initial part of the body lines with every line but possibly the last
answered, and `DEL`; and the part is the whole body unless its last line failed or a fetched response failed its check. -/
def Obligations.RunBatchTraceShape : Prop :=
  ∀ (frames : List Int) (expect : List Expect) (s t : State),
    exec (.runBatch frames expect) s = .next t →
    (∀ x, packFrames 0 frames = .error x → t.trace = s.trace) ∧
    (∀ tx, packFrames 0 frames = .ok tx →
      t.trace = s.trace ++ [⟨.create frames.length, .fail⟩] ∨
      ∃ (body : List Event) (a : Answer),
        t.trace = s.trace ++ (⟨.create frames.length, .ok⟩ :: body ++ [⟨.del, a⟩]) ∧
        body.map Event.line <+: bodyLines tx expect ∧ AllButLastAnswered body ∧
        (body.map Event.line = bodyLines tx expect ∨ (∃ l, firstFailure body = some l) ∨
          ∃ c r k, t.completion = some (.err (.protocolError c r k))))

/-- R152, R156, R157, R238, R239: the completion of an admitted `RUN_BATCH` is decided by the first error in protocol
order: a failed `CREATE`, with which the command ends (R152, vector T4); else the first failed line before `DEL`; else the
failed check of a fetched response; else a failed `DEL`; else it is `ok`. -/
def Obligations.RunBatchFirstErrorWins : Prop :=
  (∀ (frames : List Int) (expect : List Expect) (s t : State) (body : List Event) (a : Answer),
    frames.length = expect.length →
    exec (.runBatch frames expect) s = .next t →
    t.trace = s.trace ++ (⟨.create frames.length, .ok⟩ :: body ++ [⟨.del, a⟩]) →
    (∀ l, firstFailure body = some l → t.completion = some (.err (.transportError l))) ∧
    (firstFailure body = none →
      (∀ i u r x, (⟨.rxq i, .bytes u⟩ : Event) ∈ body → expect[i]? = some (.reg r) →
        decReadback s.params r (unpackBytes u) = .error x → t.completion = some (.err x)) ∧
      ((∀ i u r, (⟨.rxq i, .bytes u⟩ : Event) ∈ body → expect[i]? = some (.reg r) →
          ∃ p, decReadback s.params r (unpackBytes u) = .ok p) →
        (a = .fail → t.completion = some (.err (.transportError .del))) ∧
        (a ≠ .fail → ∃ cs, t.completion = some (.ok (.codes cs)))))) ∧
  (∀ (frames : List Int) (expect : List Expect) (s t : State),
    exec (.runBatch frames expect) s = .next t →
    t.trace = s.trace ++ [⟨.create frames.length, .fail⟩] →
    t.completion = some (.err (.transportError (.create frames.length))))

/-- R152 to R156, R162: a batch that `RUN_BATCH` completes without an error is the same run of the machine as its
transport lines executed one after another (assumption log 6). -/
def Obligations.BatchLinesRefineRunBatch : Prop :=
  ∀ (frames : List Int) (expect : List Expect) (s t : State) (tx : List Triple) (v : Value),
    packFrames 0 frames = .ok tx → exec (.runBatch frames expect) s = .next t → t.completion = some (.ok v) →
    execAll (batchInstrs tx expect) s = .next t

/-! ### The facade (44_facade.md) -/

/-- R180: `GET_VOLTAGE` is a DATA read whose checked payload goes through `C2V` with the default adjustment. For every
peer it is the `RUN_BATCH` of that read: where that completes with an error it completes with the same error (R236 b,
R237), else with the voltage of bits 19..0 of the code fetched in slot 1. (Cleared working state: assumption log 5.) -/
def Obligations.GetVoltageConvertsData : Prop :=
  (∀ (s : State) (txt : List Char) (t : Triple) (rest : List Reply),
    Ready s → s.env.replies = goodReplies 2 [txt] ++ rest → readTriple txt = some t →
    ∃ e : Env, LeavesReplies s rest e ∧
      exec .getVoltage s = .next { s with
        seq := Seq.idle, env := e,
        trace := s.trace ++ [⟨.create 2, .ok⟩, ⟨.stage 0 ⟨0x90, 0, 0⟩, .ok⟩, ⟨.stage 1 ⟨0, 0, 0⟩, .ok⟩,
          ⟨.pass, .ok⟩, ⟨.rxq 1, .bytes t⟩, ⟨.del, .ok⟩],
        completion := some (match decReadback s.params .data (unpackBytes t) with
          | .ok p => .ok (.volt (c2v s.params p true))
          | .error x => .err x) }) ∧
  (∀ s u : State, exec (.runBatch [0x900000, 0] [.none, .reg .data]) s = .next u →
    (∃ x, u.completion = some (.err x) ∧ exec .getVoltage s = .next u) ∨
    (∃ cs c, u.completion = some (.ok (.codes cs)) ∧ cs[1]? = some (some c) ∧
      exec .getVoltage s = .next { u with
        completion := some (.ok (.volt (c2v s.params (c.extractLsb' 0 20) true))) }))

/-- R181: `SET_VOLTAGE(v)` sends the DATA write, the DATA read and, as third frame, NOP when the trigger is deferred and
an LDAC pulse when not, in one batch of 3; it returns the checked read-back and does not compare it. For every peer it is
the `RUN_BATCH` of those three frames: where that completes with an error it completes with the same error (R236 b, R237,
vector T5), else with bits 19..0 of the code fetched in slot 2. A voltage outside the references, or a non-finite one, is
a `RangeError` and nothing is sent. (Cleared working state: assumption log 5.) -/
def Obligations.SetVoltageSendsBatchOfThree : Prop :=
  (∀ (v : Volt) (c : Payload) (s : State) (txt : List Char) (t : Triple) (rest : List Reply),
    Ready s → v2c s.params v true = .ok c → s.env.replies = goodReplies 3 [txt] ++ rest →
    readTriple txt = some t →
    ∃ e : Env, LeavesReplies s rest e ∧
      exec (.setVoltage v) s = .next { s with
        seq := Seq.idle, env := e,
        trace := s.trace ++ [⟨.create 3, .ok⟩, ⟨.stage 0 (packCode (writeCode .data c)), .ok⟩,
          ⟨.stage 1 ⟨0x90, 0, 0⟩, .ok⟩,
          ⟨.stage 2 (if s.defer = true then ⟨0, 0, 0⟩ else ⟨0x40, 0, 0x01⟩), .ok⟩,
          ⟨.pass, .ok⟩, ⟨.rxq 2, .bytes t⟩, ⟨.del, .ok⟩],
        completion := some (match decReadback s.params .data (unpackBytes t) with
          | .ok p => .ok (.payload p)
          | .error x => .err x) }) ∧
  (∀ (v : Volt) (p : Payload) (s u : State), v2c s.params v true = .ok p →
    exec (.runBatch [0x100000 + (p.toNat : Int), 0x900000, if s.defer = true then 0 else 0x400001]
      [.none, .none, .reg .data]) s = .next u →
    (∃ x, u.completion = some (.err x) ∧ exec (.setVoltage v) s = .next u) ∨
    (∃ cs c, u.completion = some (.ok (.codes cs)) ∧ cs[2]? = some (some c) ∧
      exec (.setVoltage v) s = .next { u with completion := some (.ok (.payload (c.extractLsb' 0 20))) })) ∧
  (∀ (v : Volt) (s : State), Ready s → (∀ q, v = .fin q → q < s.params.vrefn ∨ s.params.vrefp < q) →
    exec (.setVoltage v) s = .next { s with completion := some (.err (.rangeError (.volt v))) })

/-- R182, R183: `GET_DEFER` returns the flag, `SET_DEFER` writes it; no I/O, in any session state. -/
def Obligations.DeferFlagIsReadAndWritten : Prop :=
  ∀ (b : Bool) (s : State), s.seq.phase = .idle →
    exec .getDefer s = .next { s with completion := some (.ok (.bool s.defer)) } ∧
    exec (.setDefer b) s = .next { s with defer := b, completion := some (.ok .none) }

/-- R184, R262, R263: `SESSION_OPEN` sends the seven setup lines in order, claims the session, and writes CLEAR as
the first batch. (Cleared working state: assumption log 5.) -/
def Obligations.SessionOpenSetsUpAndWritesClear : Prop :=
  ∀ (s : State) (c : Payload) (rest : List Reply),
    s.seq.phase = .idle → s.sess = .closed → v2c s.params s.params.clearDefaultV true = .ok c →
    s.env.replies = List.replicate 7 .ok ++ goodReplies 2 [] ++ rest →
    ∃ e : Env, LeavesReplies s rest e ∧
      exec .sessionOpen s = .next { s with
        sess := .claimed, seq := Seq.idle, env := e,
        trace := s.trace ++ [⟨.initDev s.params.devPath, .ok⟩, ⟨.setDef, .ok⟩, ⟨.setGet, .ok⟩, ⟨.setMode, .ok⟩,
          ⟨.setSpeed s.params.spiSpeed, .ok⟩, ⟨.setWord, .ok⟩, ⟨.setSet, .ok⟩,
          ⟨.create 2, .ok⟩, ⟨.stage 0 (packCode (writeCode .clear c)), .ok⟩, ⟨.stage 1 ⟨0, 0, 0⟩, .ok⟩,
          ⟨.pass, .ok⟩, ⟨.del, .ok⟩],
        completion := some (.ok .none) }

/-- R184, D27: what `SESSION_OPEN` does when it does not succeed: a CLEAR default outside the references is a
`RangeError` with no line; a setup line that fails ends it with the session closed and nothing sent after. After seven
good setup lines it is the CLEAR write under the claimed session, and the session stays claimed whatever that write
completes with; a failed `CREATE` of it is `TransportError`. -/
def Obligations.SessionOpenStopsAtFirstError : Prop :=
  ∀ s : State, s.seq.phase = .idle → s.sess = .closed →
    (∀ x, v2c s.params s.params.clearDefaultV true = .error x →
      exec .sessionOpen s = .next { s with completion := some (.err x) }) ∧
    (∀ (c : Payload) (pre post : List Line) (l : Line) (rest : List Reply),
      v2c s.params s.params.clearDefaultV true = .ok c →
      pre ++ l :: post = [.initDev s.params.devPath, .setDef, .setGet, .setMode, .setSpeed s.params.spiSpeed,
        .setWord, .setSet] →
      s.env.replies = List.replicate pre.length .ok ++ .fail :: rest →
      ∃ e : Env, LeavesReplies s rest e ∧
        exec .sessionOpen s = .next { s with
          env := e, trace := s.trace ++ (pre.map fun m => ⟨m, .ok⟩) ++ [⟨l, .fail⟩],
          completion := some (.err (.transportError l)) }) ∧
    (∀ (c : Payload) (rest : List Reply), v2c s.params s.params.clearDefaultV true = .ok c →
      s.env.replies = List.replicate 7 .ok ++ rest →
      (∃ e : Env, LeavesReplies s rest e ∧
        exec .sessionOpen s = exec (.regWrite .clear c) { s with
          sess := .claimed, env := e,
          trace := s.trace ++ [⟨.initDev s.params.devPath, .ok⟩, ⟨.setDef, .ok⟩, ⟨.setGet, .ok⟩, ⟨.setMode, .ok⟩,
            ⟨.setSpeed s.params.spiSpeed, .ok⟩, ⟨.setWord, .ok⟩, ⟨.setSet, .ok⟩] }) ∧
      (∃ t, exec .sessionOpen s = .next t ∧ t.sess = .claimed ∧
        (rest.head? = some .fail → t.completion = some (.err (.transportError (.create 2))))))

/-- R185: `SESSION_CLOSE` sends `RELEASE` in either session state and ends `CLOSED` even when the line fails; the
deferred flag keeps its value. -/
def Obligations.SessionCloseAlwaysReleases : Prop :=
  ∀ s : State, s.seq.phase = .idle →
    ∃ (a : Answer) (e : Env), (a = .ok ∨ a = .fail) ∧ LeavesReplies s s.env.replies.tail e ∧
      exec .sessionClose s = .next { s with
        sess := .closed, env := e, trace := s.trace ++ [⟨.release, a⟩],
        completion := some (if a = .fail then .err (.transportError .release) else .ok .none) }

/-- R187: `SET_SPEED(k)` repeats the whole setup sequence with the new speed, opens no batch and leaves the session as
it is; it stops at the first line that fails, with `TransportError` and the session as it was. -/
def Obligations.SetSpeedRepeatsSetup : Prop :=
  ∀ (k : Nat) (s : State) (rest : List Reply), Ready s → 0 < k →
    (s.env.replies = List.replicate 7 .ok ++ rest →
      ∃ e : Env, LeavesReplies s rest e ∧
        exec (.setSpeed k) s = .next { s with
          env := e,
          trace := s.trace ++ [⟨.initDev s.params.devPath, .ok⟩, ⟨.setDef, .ok⟩, ⟨.setGet, .ok⟩, ⟨.setMode, .ok⟩,
            ⟨.setSpeed k, .ok⟩, ⟨.setWord, .ok⟩, ⟨.setSet, .ok⟩],
          completion := some (.ok .none) }) ∧
    (∀ (pre post : List Line) (l : Line),
      pre ++ l :: post = [.initDev s.params.devPath, .setDef, .setGet, .setMode, .setSpeed k, .setWord, .setSet] →
      s.env.replies = List.replicate pre.length .ok ++ .fail :: rest →
      ∃ e : Env, LeavesReplies s rest e ∧
        exec (.setSpeed k) s = .next { s with
          env := e, trace := s.trace ++ (pre.map fun m => ⟨m, .ok⟩) ++ [⟨l, .fail⟩],
          completion := some (.err (.transportError l)) })

/-! ### Whole-machine rules -/

/-- R28, R40, R161, R236, R240 (a): for every peer, a host command that is not refused completes, and it ends
between batches: parameters, waiting packets and the peer's mode stay, the trace only grows, and no error stays
behind in the block. (That the idle working state is the cleared one is assumption log 5; the parameters as a field
of the state are log 1, the queue of packets is log 7.) -/
def Obligations.HostCommandsCompleteBetweenBatches : Prop :=
  ∀ (i : Instr) (s t : State), isHostCommand i = true → s.seq = Seq.idle → exec i s = .next t →
    t.seq = Seq.idle ∧ t.params = s.params ∧ t.inbox = s.inbox ∧ t.env.mode = s.env.mode ∧
    s.trace <+: t.trace ∧ ∃ c, t.completion = some c

/-- R22, R83, R151, R248: exactly when a host command is refused: a batch is open; an I/O command has no session;
`SESSION_OPEN` finds one; `RUN_BATCH` is given no frames, more than `MAX_BATCH`, or lists of different lengths;
`SET_SPEED` is given 0. In every other case it answers a next state, for every peer. (The names of the refusals and
their priority are assumption log 15.) -/
def Obligations.HostCommandsAreRefusedExactlyWhen : Prop :=
  ∀ (i : Instr) (s : State), isHostCommand i = true →
    (s.seq.phase ≠ .idle → exec i s = .refused .busy) ∧
    (s.seq.phase = .idle → needsSession i = true → s.sess = .closed → exec i s = .refused .sessionClosed) ∧
    (s.seq.phase = .idle → i = .sessionOpen → s.sess = .claimed → exec i s = .refused .sessionClaimed) ∧
    (∀ fs xs, s.seq.phase = .idle → s.sess = .claimed → i = .runBatch fs xs →
      fs.length = 0 ∨ s.params.maxBatch < fs.length ∨ fs.length ≠ xs.length → exec i s = .refused .batchSize) ∧
    (s.seq.phase = .idle → s.sess = .claimed → i = .setSpeed 0 → exec i s = .refused .operandType) ∧
    (s.seq.phase = .idle → (needsSession i = true → s.sess = .claimed) → (i = .sessionOpen → s.sess = .closed) →
      (∀ fs xs, i = .runBatch fs xs →
        1 ≤ fs.length ∧ fs.length ≤ s.params.maxBatch ∧ fs.length = xs.length) →
      i ≠ .setSpeed 0 → ∃ t, exec i s = .next t)

/-- R59, R230, R231, R232, R268: a host command that completes with a validation error has emitted nothing and changed
nothing but its completion: neither block, nor trace, nor peer. -/
def Obligations.ValidationErrorsChangeNothing : Prop :=
  ∀ (i : Instr) (s t : State) (x : Err), isHostCommand i = true → exec i s = .next t →
    t.completion = some (.err x) → isValidationError x = true →
    t = { s with completion := some (.err x) }

/-- R23: `S.defer` is written by `SET_DEFER` alone: no other instruction of any format changes it, and no error does. -/
def Obligations.DeferIsWrittenBySetDeferAlone : Prop :=
  ∀ (i : Instr) (s t : State), (∀ b, i ≠ .setDefer b) → exec i s = .next t → t.defer = s.defer

/-- R22: `S.sess` is written by `SESSION_OPEN` and `SESSION_CLOSE` alone (that a bare setup or release line leaves it
alone is assumption log 6). -/
def Obligations.SessionIsWrittenBySessionCommandsAlone : Prop :=
  ∀ (i : Instr) (s t : State), i ≠ .sessionOpen → i ≠ .sessionClose → exec i s = .next t → t.sess = s.sess

/-- R135, R80 (a): every frame that a host command other than `RUN_BATCH` stages decodes to a well-formed wire command,
with no payload bit outside the register's legal mask; and every payload that `REG_READ` returns is inside the mask. -/
def Obligations.OnlyLegalBitsAreAsserted : Prop :=
  (∀ (i : Instr) (s t : State), isHostCommand i = true → (∀ fs xs, i ≠ .runBatch fs xs) → exec i s = .next t →
    ∀ ev ∈ t.trace.drop s.trace.length, ∀ k u, ev.line = .stage k u →
      ∃ j, decode (.wire u) = .ok j ∧ j.wellFormed s.params = true) ∧
  (∀ (r : Reg) (p : Payload) (s t : State), exec (.regRead r) s = .next t →
    t.completion = some (.ok (.payload p)) → p &&& regMask s.params r = p)

/-- R134 against the reference peer of R213 to R216: a legal payload written to DATA, CONTROL or CLEAR reads back. -/
def Obligations.WriteThenReadReturnsPayload : Prop :=
  ∀ (r : Reg) (p : Payload) (s : State), r ≠ .soft → Ready s → WellBehaved s → p &&& regMask s.params r = p →
    ∃ t u, exec (.regWrite r p) s = .next t ∧ t.completion = some (.ok .none) ∧
      exec (.regRead r) t = .next u ∧ u.completion = some (.ok (.payload p))

/-- R181, R188, R206 against the reference peer: with the trigger deferred, `SET_VOLTAGE` writes DATA and leaves the
output, `GET_VOLTAGE` returns the new code's voltage with the output still as it was, and `SOFT_LDAC` then moves it;
without the deferred trigger the output has moved when `SET_VOLTAGE` completes. -/
def Obligations.OutputMovesAtTheTrigger : Prop :=
  ∀ (v : Volt) (c : Payload) (s : State), Ready s → WellBehaved s → v2c s.params v true = .ok c →
    (s.defer = true → ∃ t u w, exec (.setVoltage v) s = .next t ∧ t.completion = some (.ok (.payload c)) ∧
      t.env.dac.data = c ∧ t.env.dac.out = s.env.dac.out ∧
      exec .getVoltage t = .next u ∧ u.completion = some (.ok (.volt (c2v s.params c true))) ∧
      u.env.dac.out = s.env.dac.out ∧
      exec .softLdac u = .next w ∧ w.completion = some (.ok .none) ∧ w.env.dac.out = c) ∧
    (s.defer = false → ∃ t, exec (.setVoltage v) s = .next t ∧ t.completion = some (.ok (.payload c)) ∧
      t.env.dac.data = c ∧ t.env.dac.out = c ∧
      t.env.dac.control = s.env.dac.control ∧ t.env.dac.clear = s.env.dac.clear)

/-- R61, R154, R214, R216: against the reference peer nothing reaches the DAC before `PASS`: every other transport line
leaves its registers, its output and the code it shifts out next as they were. R240 (c): that holds as well where a
setup line, `CREATE` or `STAGE` fails, and for the `DEL` of a batch that has not been transferred. (Assumption log 6: the
line as a step by itself; what a failed line leaves is log 10.) -/
def Obligations.OnlyPassReachesTheDac : Prop :=
  (∀ (l : Line) (s t : State), WellBehaved s → l ≠ .pass → exec (lineInstr l) s = .next t → t.env.dac = s.env.dac) ∧
  (∀ (l : Line) (s t : State), s.env.mode = .reference → l ≠ .pass → (∀ i, l ≠ .rxq i) →
    (l = .del → ∀ r ∈ s.env.peer.bridge.rx, r = none) → exec (lineInstr l) s = .next t → t.env.dac = s.env.dac)

/-! ### Reset, step and encoding -/

/-- R39, R260, R261: block reset puts the block state at its reset values for every state, emits no line and does not
reach the peer; and the machine's reset state has those values. -/
def Obligations.ResetPutsBlockAtItsResetValues : Prop :=
  (∀ s : State, (blockReset s).sess = .closed ∧ (blockReset s).defer = s.params.deferInit ∧
    (blockReset s).seq.phase = .idle ∧ (blockReset s).trace = [] ∧ (blockReset s).env = s.env) ∧
  State.reset.sess = .closed ∧ State.reset.defer = State.reset.params.deferInit ∧
  State.reset.seq.phase = .idle ∧ State.reset.trace = []

/-- A step runs the decoded instruction: the next packet is taken from the queue and its instruction executed; with
no packet the machine waits (R39); a packet that stands for no instruction is refused: a host command by R83 and R248
(d), a reserved frame by itself by U1 (assumption log 8), a line in another spelling by assumption log 16. (The queue
is assumption log 7.) -/
def Obligations.StepRunsDecodedInstruction : Prop :=
  ∀ (s : State) (p : Packet) (rest : List Packet), s.inbox = p :: rest →
    (∀ i, decode p = .ok i → step s = exec i { s with inbox := rest }) ∧
    (∀ x, decode p = .error x → step s = .refused (.undecodable x)) ∧
    step { s with inbox := [] } = .next { s with inbox := [] }

/-- R76, R80, R83: reserved codes and numbers stand for no instruction: select 5, 6 and 7, a read of select 0, a NOP or
a read with a payload, and a command number outside the table of R82. -/
def Obligations.ReservedEncodingsAreRejected : Prop :=
  (∀ c : Code, (c.toNat / 1048576 ∈ [5, 6, 7, 8, 13, 14, 15] →
      decode (.wire (packCode c)) = .error (.reservedSelect c)) ∧
    (c.toNat / 1048576 ∈ [0, 9, 10, 11, 12] → c.toNat % 1048576 ≠ 0 →
      decode (.wire (packCode c)) = .error (.reservedPayload c))) ∧
  (∀ (cmd : Byte) (ws : List Int),
    cmd.toNat ∉ [0x01, 0x02, 0x03, 0x04, 0x05, 0x08, 0x09, 0x10, 0x11, 0x12, 0x13, 0x18, 0x19, 0x1A, 0x1B, 0x1C, 0x1D,
      0x1E, 0x1F, 0x20, 0x28, 0x30, 0x31, 0x32, 0x33, 0x38, 0x39, 0x3A, 0x3B] →
    decode (.host cmd ws) = .error (.reservedCommand cmd))

/-- Words written out from R76, R79, R82 and R85 to R99 decode to the instructions they stand for; the operand
`two_complement` of `C2V` and `V2C` is true where it is omitted (R111, R112). (The operand words of the host commands,
and that an operand is omitted by leaving out its word, are assumption log 3: R81 and R82 give operands no bits.) -/
def Obligations.WrittenOutWordsDecode : Prop :=
  decode (.wire ⟨0x1F, 0xFF, 0xCF⟩) = .ok (.wireWrData 0xFFFCF#20) ∧
  decode (.wire ⟨0xA0, 0x00, 0x00⟩) = .ok .wireRdControl ∧
  decode (.wire ⟨0x40, 0x00, 0x01⟩) = .ok .wireSoftLdac ∧
  decode (.host 0x19#8 [1, 0x12]) = .ok (.regWrite .control 0x12#20) ∧
  decode (.host 0x31#8 [0, 1, 0]) = .ok (.setVoltage (.fin 1)) ∧
  decode (.host 0x08#8 [0x80000]) = .ok (.c2v 0x80000#20 true) ∧
  decode (.host 0x08#8 [0x80000, 0]) = .ok (.c2v 0x80000#20 false) ∧
  decode (.host 0x09#8 [0, 1, 0]) = .ok (.v2c (.fin 1) true) ∧
  decode (.line "SPI:MSG2:TX3:RX:CS #H40,#H00,#H01".toList) = .ok (.lineStage 2 0x40#8 0x00#8 0x01#8) ∧
  decode (.line "SPI:MSG:CREATE 3".toList) = .ok (.lineCreate 3)

/-- Decode and encode agree: every well-formed instruction, with every operand at every value its encoding admits, is
what the decoder reads from its encoding (R76, R79, R82, R85 to R99; the operand words are assumption log 3). -/
def Obligations.DecodeInvertsEncode : Prop :=
  ∀ (P : Params) (i : Instr), i.wellFormed P = true → decode (encode i) = .ok i

/-- The other direction, where each packet has one meaning: a frame or a line that decodes is the encoding of its
instruction (R76, R79, R85 to R98). That a line has no second spelling is assumption log 16: R99 and D23 leave its
number formats open. -/
def Obligations.EncodeInvertsDecodeOfFramesAndLines : Prop :=
  (∀ (t : Triple) (i : Instr), decode (.wire t) = .ok i → encode i = .wire t) ∧
  (∀ (text : List Char) (i : Instr), decode (.line text) = .ok i → encode i = .line text)

/-! ### The invariant -/

/-- The invariant holds right after reset (R39: phase IDLE, empty trace, session closed). That the working state is
the cleared one there, which R39 leaves unspecified, is assumption log 5; the canonical form of the batch buffer is
log 17. -/
def Obligations.ResetIsSafe : Prop := Safe State.reset

/-- R22, R40, R158, R160, R162: every step keeps the invariant: the batch buffer stays in its canonical form, the
trace stays bracketed (`CREATE` and `DEL` pair, `PASS` at most once in a batch and only after every slot is staged,
no `RXQ` before it) and agrees with the sequencer's position, and a batch is open only under a session. (The
canonical form is assumption log 17.) -/
def Obligations.EveryStepKeepsTheInvariant : Prop :=
  ∀ s t : State, Safe s → step s = .next t → Safe t
end

