-- ==== Sys2Proof/Laws/State.lean ====
section
/-! SUPPORT. The field lemmas: what each named update of the state, the environment and the DAC leaves in each field,
so that no later proof unfolds a record update. -/

namespace Sys2Proof.Machine

/-! ### `Env.setDac`, `Env.setBridge`, `Env.setSettings`, `Env.dropReply` -/

@[simp] theorem Env.setDac_dac (e : Env) (d : Dac) : (e.setDac d).dac = d := rfl
@[simp] theorem Env.setDac_peer_dac (e : Env) (d : Dac) : (e.setDac d).peer.dac = d := rfl
@[simp] theorem Env.setDac_bridge (e : Env) (d : Dac) : (e.setDac d).peer.bridge = e.peer.bridge := rfl
@[simp] theorem Env.setDac_mode (e : Env) (d : Dac) : (e.setDac d).mode = e.mode := rfl
@[simp] theorem Env.setDac_replies (e : Env) (d : Dac) : (e.setDac d).replies = e.replies := rfl
@[simp] theorem Env.setDac_fixedDraws (e : Env) (d : Dac) : (e.setDac d).fixedDraws = e.fixedDraws := rfl
@[simp] theorem Env.setDac_draws (e : Env) (d : Dac) : (e.setDac d).draws = e.draws := rfl

@[simp] theorem Env.setBridge_bridge (e : Env) (b : Bridge) : (e.setBridge b).peer.bridge = b := rfl
@[simp] theorem Env.setBridge_dac (e : Env) (b : Bridge) : (e.setBridge b).dac = e.dac := rfl
@[simp] theorem Env.setBridge_peer_dac (e : Env) (b : Bridge) : (e.setBridge b).peer.dac = e.peer.dac := rfl
@[simp] theorem Env.setBridge_mode (e : Env) (b : Bridge) : (e.setBridge b).mode = e.mode := rfl
@[simp] theorem Env.setBridge_replies (e : Env) (b : Bridge) : (e.setBridge b).replies = e.replies := rfl
@[simp] theorem Env.setBridge_fixedDraws (e : Env) (b : Bridge) : (e.setBridge b).fixedDraws = e.fixedDraws := rfl
@[simp] theorem Env.setBridge_draws (e : Env) (b : Bridge) : (e.setBridge b).draws = e.draws := rfl

@[simp] theorem Env.setSettings_dac (e : Env) (f : Settings → Settings) : (e.setSettings f).dac = e.dac := rfl
@[simp] theorem Env.setSettings_peer_dac (e : Env) (f : Settings → Settings) :
    (e.setSettings f).peer.dac = e.peer.dac := rfl
@[simp] theorem Env.setSettings_mode (e : Env) (f : Settings → Settings) : (e.setSettings f).mode = e.mode := rfl
@[simp] theorem Env.setSettings_replies (e : Env) (f : Settings → Settings) :
    (e.setSettings f).replies = e.replies := rfl

@[simp] theorem Env.dropReply_mode (e : Env) : e.dropReply.mode = e.mode := rfl
@[simp] theorem Env.dropReply_peer (e : Env) : e.dropReply.peer = e.peer := rfl
@[simp] theorem Env.dropReply_dac (e : Env) : e.dropReply.dac = e.dac := rfl
@[simp] theorem Env.dropReply_replies (e : Env) : e.dropReply.replies = e.replies.tail := rfl
@[simp] theorem Env.dropReply_fixedDraws (e : Env) : e.dropReply.fixedDraws = e.fixedDraws := rfl
@[simp] theorem Env.dropReply_draws (e : Env) : e.dropReply.draws = e.draws := rfl

/-! ### `Env.draw` -/

@[simp] theorem Env.draw_peer (e : Env) : e.draw.2.peer = e.peer := by unfold Env.draw; split <;> rfl
@[simp] theorem Env.draw_dac (e : Env) : e.draw.2.dac = e.dac := by unfold Env.draw; split <;> rfl
@[simp] theorem Env.draw_mode (e : Env) : e.draw.2.mode = e.mode := by unfold Env.draw; split <;> rfl
@[simp] theorem Env.draw_replies (e : Env) : e.draw.2.replies = e.replies := by unfold Env.draw; split <;> rfl

@[simp] theorem Env.drawSdo_bridge (e : Env) : e.drawSdo.peer.bridge = e.peer.bridge := by simp [Env.drawSdo]
@[simp] theorem Env.drawSdo_dac (e : Env) : e.drawSdo.dac = { e.dac with sdo := e.draw.1 } := by simp [Env.drawSdo]
@[simp] theorem Env.drawSdo_peer_dac (e : Env) : e.drawSdo.peer.dac = { e.dac with sdo := e.draw.1 } := by
  simp [Env.drawSdo]
@[simp] theorem Env.drawSdo_mode (e : Env) : e.drawSdo.mode = e.mode := by simp [Env.drawSdo]
@[simp] theorem Env.drawSdo_replies (e : Env) : e.drawSdo.replies = e.replies := by simp [Env.drawSdo]

/-! ### The DAC's registers -/

@[simp] theorem Dac.read_write_same (d : Dac) (r : Reg) (v : Payload) (h : r ≠ .soft) : (d.write r v).read r = v := by
  cases r <;> first | rfl | exact absurd rfl h
@[simp] theorem Dac.read_write_other (d : Dac) (r q : Reg) (v : Payload) (h : q ≠ r) :
    (d.write r v).read q = d.read q := by cases r <;> cases q <;> first | rfl | exact absurd rfl h
@[simp] theorem Dac.write_out (d : Dac) (r : Reg) (v : Payload) : (d.write r v).out = d.out := by cases r <;> rfl
@[simp] theorem Dac.write_sdo (d : Dac) (r : Reg) (v : Payload) : (d.write r v).sdo = d.sdo := by cases r <;> rfl

/-! ### `emit`: everything but the environment and the trace -/

@[simp] theorem emit_params (l : Line) (s : State) : (emit l s).2.params = s.params := rfl
@[simp] theorem emit_sess (l : Line) (s : State) : (emit l s).2.sess = s.sess := rfl
@[simp] theorem emit_defer (l : Line) (s : State) : (emit l s).2.defer = s.defer := rfl
@[simp] theorem emit_seq (l : Line) (s : State) : (emit l s).2.seq = s.seq := rfl
@[simp] theorem emit_completion (l : Line) (s : State) : (emit l s).2.completion = s.completion := rfl
@[simp] theorem emit_inbox (l : Line) (s : State) : (emit l s).2.inbox = s.inbox := rfl
@[simp] theorem emit_trace (l : Line) (s : State) : (emit l s).2.trace = s.trace ++ [⟨l, (emit l s).1⟩] := rfl
@[simp] theorem emit_env (l : Line) (s : State) : (emit l s).2.env = (answer s.params l s.env).2 := rfl
theorem emit_answer (l : Line) (s : State) : (emit l s).1 = (answer s.params l s.env).1 := rfl

/-! ### The memory primitives -/

@[simp] theorem memWriteTx_params (i : Nat) (t : Triple) (s : State) : (memWriteTx i t s).2.params = s.params := rfl
@[simp] theorem memWriteTx_sess (i : Nat) (t : Triple) (s : State) : (memWriteTx i t s).2.sess = s.sess := rfl
@[simp] theorem memWriteTx_defer (i : Nat) (t : Triple) (s : State) : (memWriteTx i t s).2.defer = s.defer := rfl
@[simp] theorem memWriteTx_seq (i : Nat) (t : Triple) (s : State) :
    (memWriteTx i t s).2.seq = { s.seq with tx := s.seq.tx.set i t } := rfl
@[simp] theorem memWriteTx_completion (i : Nat) (t : Triple) (s : State) :
    (memWriteTx i t s).2.completion = s.completion := rfl
@[simp] theorem memWriteTx_inbox (i : Nat) (t : Triple) (s : State) : (memWriteTx i t s).2.inbox = s.inbox := rfl
@[simp] theorem memWriteTx_trace (i : Nat) (t : Triple) (s : State) :
    (memWriteTx i t s).2.trace = s.trace ++ [⟨.stage i t, (memWriteTx i t s).1⟩] := rfl

@[simp] theorem memReadRx_state (i : Nat) (s : State) : (memReadRx i s).2 = (emit (.rxq i) s).2 := rfl

/-! ### `recordErr`, `complete`, `seqLoad`, `blockReset` -/

@[simp] theorem recordErr_params (e : Err) (s : State) : (recordErr e s).params = s.params := by
  unfold recordErr; split <;> rfl
@[simp] theorem recordErr_sess (e : Err) (s : State) : (recordErr e s).sess = s.sess := by
  unfold recordErr; split <;> rfl
@[simp] theorem recordErr_defer (e : Err) (s : State) : (recordErr e s).defer = s.defer := by
  unfold recordErr; split <;> rfl
@[simp] theorem recordErr_trace (e : Err) (s : State) : (recordErr e s).trace = s.trace := by
  unfold recordErr; split <;> rfl
@[simp] theorem recordErr_completion (e : Err) (s : State) : (recordErr e s).completion = s.completion := by
  unfold recordErr; split <;> rfl
@[simp] theorem recordErr_env (e : Err) (s : State) : (recordErr e s).env = s.env := by
  unfold recordErr; split <;> rfl
@[simp] theorem recordErr_inbox (e : Err) (s : State) : (recordErr e s).inbox = s.inbox := by
  unfold recordErr; split <;> rfl
/-- The first error wins: with none pending the error is recorded, and nothing else of the working state changes. -/
theorem recordErr_seq (e : Err) (s : State) (h : s.seq.err = none) :
    (recordErr e s).seq = { s.seq with err := some e } := by unfold recordErr; rw [h]
theorem recordErr_pending (e e' : Err) (s : State) (h : s.seq.err = some e') : recordErr e s = s := by
  unfold recordErr; rw [h]

@[simp] theorem complete_params (r : Except Err Value) (s : State) : (complete r s).params = s.params := by
  cases r <;> rfl
@[simp] theorem complete_sess (r : Except Err Value) (s : State) : (complete r s).sess = s.sess := by cases r <;> rfl
@[simp] theorem complete_defer (r : Except Err Value) (s : State) : (complete r s).defer = s.defer := by
  cases r <;> rfl
@[simp] theorem complete_seq (r : Except Err Value) (s : State) : (complete r s).seq = s.seq := by cases r <;> rfl
@[simp] theorem complete_trace (r : Except Err Value) (s : State) : (complete r s).trace = s.trace := by
  cases r <;> rfl
@[simp] theorem complete_env (r : Except Err Value) (s : State) : (complete r s).env = s.env := by cases r <;> rfl
@[simp] theorem complete_inbox (r : Except Err Value) (s : State) : (complete r s).inbox = s.inbox := by
  cases r <;> rfl
@[simp] theorem complete_ok (v : Value) (s : State) : (complete (.ok v) s).completion = some (.ok v) := rfl
@[simp] theorem complete_error (e : Err) (s : State) : (complete (.error e) s).completion = some (.err e) := rfl

@[simp] theorem seqLoad_params (tx : List Triple) (x : List Expect) (s : State) :
    (seqLoad tx x s).params = s.params := rfl
@[simp] theorem seqLoad_sess (tx : List Triple) (x : List Expect) (s : State) : (seqLoad tx x s).sess = s.sess := rfl
@[simp] theorem seqLoad_defer (tx : List Triple) (x : List Expect) (s : State) :
    (seqLoad tx x s).defer = s.defer := rfl
@[simp] theorem seqLoad_trace (tx : List Triple) (x : List Expect) (s : State) :
    (seqLoad tx x s).trace = s.trace := rfl
@[simp] theorem seqLoad_completion (tx : List Triple) (x : List Expect) (s : State) :
    (seqLoad tx x s).completion = s.completion := rfl
@[simp] theorem seqLoad_env (tx : List Triple) (x : List Expect) (s : State) : (seqLoad tx x s).env = s.env := rfl
@[simp] theorem seqLoad_inbox (tx : List Triple) (x : List Expect) (s : State) :
    (seqLoad tx x s).inbox = s.inbox := rfl

@[simp] theorem seqEnd_seq (s : State) : (seqEnd s).2.seq = Seq.idle := rfl
@[simp] theorem seqEnd_params (s : State) : (seqEnd s).2.params = s.params := rfl
@[simp] theorem seqEnd_sess (s : State) : (seqEnd s).2.sess = s.sess := rfl
@[simp] theorem seqEnd_defer (s : State) : (seqEnd s).2.defer = s.defer := rfl
@[simp] theorem seqEnd_completion (s : State) : (seqEnd s).2.completion = s.completion := rfl
@[simp] theorem seqEnd_inbox (s : State) : (seqEnd s).2.inbox = s.inbox := rfl
@[simp] theorem seqEnd_trace (s : State) : (seqEnd s).2.trace = s.trace ++ [⟨.del, (emit .del s).1⟩] := rfl

@[simp] theorem blockReset_params (s : State) : (blockReset s).params = s.params := rfl
@[simp] theorem blockReset_sess (s : State) : (blockReset s).sess = .closed := rfl
@[simp] theorem blockReset_defer (s : State) : (blockReset s).defer = s.params.deferInit := rfl
@[simp] theorem blockReset_seq (s : State) : (blockReset s).seq = Seq.idle := rfl
@[simp] theorem blockReset_trace (s : State) : (blockReset s).trace = [] := rfl
@[simp] theorem blockReset_env (s : State) : (blockReset s).env = s.env := rfl
@[simp] theorem blockReset_inbox (s : State) : (blockReset s).inbox = s.inbox := rfl

end Sys2Proof.Machine
end

