-- ==== Sys2Proof/Laws/Text.lean ====
section
/-! SUPPORT. The transport lines as text (30_encoding.md R85 to R99): the readers read back what the printers print, and
whatever they read is what the printers print. -/

namespace Sys2Proof

/-! ### Literals -/

theorem dropLit_append (l s : List Char) : dropLit l (l ++ s) = some s := by
  induction l with
  | nil => rfl
  | cons c l ih => simp [dropLit, ih]

theorem dropLit_some {l s r : List Char} (h : dropLit l s = some r) : s = l ++ r := by
  induction l generalizing s with
  | nil => simp [dropLit] at h; simp [h]
  | cons c l ih =>
    cases s with
    | nil => simp [dropLit] at h
    | cons d s =>
      simp only [dropLit] at h
      split at h
      · subst_vars; simp [ih h]
      · cases h

/-- Whether two texts differ at a position that both have. -/
def clash : List Char → List Char → Bool
  | [], _ => false
  | _ :: _, [] => false
  | c :: cs, d :: ds => c != d || clash cs ds

/-- A text that begins with one that clashes with a literal is not the literal and does not begin with it. -/
theorem clash_append {a l : List Char} (h : clash a l = true) (t : List Char) :
    a ++ t ≠ l ∧ dropLit l (a ++ t) = none := by
  induction a generalizing l with
  | nil => cases h
  | cons c cs ih =>
    cases l with
    | nil => cases h
    | cons d ds =>
      simp only [clash, Bool.or_eq_true, bne_iff_ne, ne_eq] at h
      by_cases hc : c = d
      · subst hc
        obtain ⟨h1, h2⟩ := ih (h.resolve_left (fun hn => hn rfl))
        simp [dropLit, h1, h2]
      · simp [dropLit, hc, Ne.symm hc]

/-- Texts that differ after a common beginning. -/
theorem differ_append (a : List Char) {c d : Char} (h : c ≠ d) (t u : List Char) :
    a ++ c :: t ≠ a ++ d :: u ∧ dropLit (a ++ d :: u) (a ++ c :: t) = none := by
  induction a with
  | nil => simp [dropLit, h, Ne.symm h]
  | cons e a ih => simp [dropLit, ih.1, ih.2]

/-! ### Digits -/

theorem decVal_digitChar {d : Nat} (h : d < 10) : decVal (digitChar d) = some d := by
  interval_cases d <;> rfl

theorem hexVal_digitChar {d : Nat} (h : d < 16) : hexVal (digitChar d) = some d := by
  interval_cases d <;> rfl

theorem decVal_some {c : Char} {d : Nat} (h : decVal c = some d) : d < 10 ∧ digitChar d = c := by
  unfold decVal at h
  split at h
  · next hc =>
    injection h with h
    subst h
    have h10 : c.toNat - 48 < 10 := by omega
    refine ⟨h10, ?_⟩
    rw [digitChar, if_pos h10, show 48 + (c.toNat - 48) = c.toNat by omega, Char.ofNat_toNat]
  · cases h

theorem hexVal_some {c : Char} {d : Nat} (h : hexVal c = some d) : d < 16 ∧ digitChar d = c := by
  unfold hexVal at h
  split at h
  · next hc =>
    injection h with h
    subst h
    have h10 : c.toNat - 48 < 10 := by omega
    refine ⟨by omega, ?_⟩
    rw [digitChar, if_pos h10, show 48 + (c.toNat - 48) = c.toNat by omega, Char.ofNat_toNat]
  · split at h
    · next hc =>
      injection h with h
      subst h
      have h10 : ¬ c.toNat - 55 < 10 := by omega
      refine ⟨by omega, ?_⟩
      rw [digitChar, if_neg h10, show 55 + (c.toNat - 55) = c.toNat by omega, Char.ofNat_toNat]
    · cases h

/-- No digit stands at the front of the text. -/
def NoDigit (s : List Char) : Prop := ∀ c cs, s = c :: cs → decVal c = none

theorem noDigit_nil : NoDigit [] := fun _ _ h => nomatch h
theorem noDigit_cons {c : Char} (h : decVal c = none) (cs : List Char) : NoDigit (c :: cs) := fun _ _ e => by
  injection e with e1 _; rw [← e1]; exact h

/-! ### Decimal numbers -/

theorem readDigits_stop {s : List Char} (h : NoDigit s) (acc : Nat) : readDigits acc s = (acc, s) := by
  cases s with
  | nil => rfl
  | cons c cs => simp [readDigits, h c cs rfl]

/-- Reading printed digits onto `acc`. -/
theorem readDigits_decDigits (fuel n acc : Nat) (rest : List Char) (h : n < fuel) :
    readDigits acc (decDigits fuel n ++ rest) = readDigits (acc * 10 ^ (decDigits fuel n).length + n) rest := by
  induction fuel generalizing n acc rest with
  | zero => omega
  | succ fuel ih =>
    unfold decDigits
    split
    · next h10 => simp [readDigits, decVal_digitChar h10]
    · next h10 =>
      have hm : n % 10 < 10 := Nat.mod_lt _ (by omega)
      rw [List.append_assoc, ih _ _ _ (by omega)]
      simp only [List.cons_append, List.nil_append, readDigits, decVal_digitChar hm, List.length_append,
        List.length_cons, List.length_nil]
      congr 1
      rw [Nat.zero_add, Nat.pow_succ, ← Nat.mul_assoc]
      omega

theorem decDigits_fuel (f g n : Nat) (hf : n < f) (hg : n < g) : decDigits f n = decDigits g n := by
  induction f generalizing g n with
  | zero => omega
  | succ f ih =>
    cases g with
    | zero => omega
    | succ g =>
      unfold decDigits
      split
      · rfl
      · rw [ih g (n / 10) (by omega) (by omega)]

/-- One more digit at the end. -/
theorem printDec_snoc (a d : Nat) (ha : 0 < a) (hd : d < 10) :
    printDec (a * 10 + d) = printDec a ++ [digitChar d] := by
  unfold printDec
  rw [show decDigits (a * 10 + d + 1) (a * 10 + d)
      = decDigits (a * 10 + d) ((a * 10 + d) / 10) ++ [digitChar ((a * 10 + d) % 10)] by
    rw [decDigits, if_neg (by omega)]]
  rw [show (a * 10 + d) / 10 = a by omega, show (a * 10 + d) % 10 = d by omega,
    decDigits_fuel (a * 10 + d) (a + 1) a (by omega) (by omega)]

theorem printDec_digit {d : Nat} (h : d < 10) : printDec d = [digitChar d] := by simp [printDec, decDigits, h]

/-- The first digit of a printed positive number is not zero. -/
theorem printDec_head (n : Nat) (h : 0 < n) : ∃ c cs d, printDec n = c :: cs ∧ decVal c = some (d + 1) := by
  have key : ∀ fuel n, 0 < n → n < fuel → ∃ c cs d, decDigits fuel n = c :: cs ∧ decVal c = some (d + 1) := by
    intro fuel
    induction fuel with
    | zero => intro n h h'; omega
    | succ fuel ih =>
      intro n h h'
      unfold decDigits
      split
      · next h10 => exact ⟨_, _, n - 1, rfl, by rw [decVal_digitChar h10]; congr 1; omega⟩
      · obtain ⟨c, cs, d, h1, h2⟩ := ih (n / 10) (by omega) (by omega)
        exact ⟨c, _, d, by rw [h1]; rfl, h2⟩
  exact key (n + 1) n h (by omega)

/-- A printed number begins with a digit. -/
theorem printDec_cons (n : Nat) : ∃ c cs d, printDec n = c :: cs ∧ decVal c = some d := by
  rcases Nat.eq_zero_or_pos n with rfl | h
  · exact ⟨_, _, 0, rfl, rfl⟩
  · obtain ⟨c, cs, d, h1, h2⟩ := printDec_head n h
    exact ⟨c, cs, d + 1, h1, h2⟩

theorem readDec_printDec (n : Nat) {rest : List Char} (h : NoDigit rest) :
    readDec (printDec n ++ rest) = some (n, rest) := by
  rcases Nat.eq_zero_or_pos n with rfl | hn
  · show readDec (digitChar 0 :: rest) = _
    have h0 : decVal (digitChar 0) = some 0 := rfl
    cases rest with
    | nil => simp [readDec, h0]
    | cons c cs => simp [readDec, h0, h c cs rfl]
  · obtain ⟨c, cs, d, h1, h2⟩ := printDec_head n hn
    have hr := readDigits_decDigits (n + 1) n 0 rest (by omega)
    rw [show decDigits (n + 1) n = c :: cs from h1, readDigits_stop h] at hr
    simp only [List.cons_append, readDigits, h2, Nat.zero_mul, Nat.zero_add] at hr
    rw [h1]
    simp [readDec, h2, hr]

theorem readDigits_print {a m : Nat} {s rest : List Char} (ha : 0 < a) (h : readDigits a s = (m, rest)) :
    printDec a ++ s = printDec m ++ rest := by
  induction s generalizing a with
  | nil => simp [readDigits] at h; simp [h]
  | cons c s ih =>
    simp only [readDigits] at h
    split at h
    · next d hd =>
      obtain ⟨h1, h2⟩ := decVal_some hd
      rw [← ih (by omega) h, printDec_snoc a d ha h1, h2]
      simp
    · injection h with h1 h2
      subst h1 h2
      rfl

theorem readDec_some {s rest : List Char} {n : Nat} (h : readDec s = some (n, rest)) : s = printDec n ++ rest := by
  cases s with
  | nil => cases h
  | cons c cs =>
    unfold readDec at h
    cases hd : decVal c with
    | none => simp [hd] at h
    | some d =>
      obtain ⟨h1, h2⟩ := decVal_some hd
      cases d with
      | zero =>
        have hc : c :: cs = printDec 0 ++ cs := by rw [← h2]; rfl
        simp only [hd] at h
        cases cs with
        | nil =>
          injection h with h; injection h with h3 h4
          subst h3 h4; exact hc
        | cons c' cs' =>
          dsimp only at h
          split at h
          · cases h
          · injection h with h; injection h with h3 h4
            subst h3 h4; exact hc
      | succ d =>
        simp only [hd] at h
        injection h with h
        have := readDigits_print (Nat.succ_pos d) h
        rw [← this, printDec_digit h1, h2]
        rfl

theorem readLastDec_printDec (n : Nat) : readLastDec (printDec n) = some n := by
  have h := readDec_printDec n noDigit_nil
  rw [List.append_nil] at h
  simp [readLastDec, h]

theorem readLastDec_some {s : List Char} {n : Nat} (h : readLastDec s = some n) : s = printDec n := by
  unfold readLastDec at h
  split at h
  · next m hm =>
    injection h with h
    subst h
    simpa using readDec_some hm
  · cases h

/-! ### Hexadecimal bytes and the words of a stage line -/

theorem readHex2_printHex2 (b : Byte) (rest : List Char) : readHex2 (printHex2 b ++ rest) = some (b, rest) := by
  have h := b.isLt
  have e : b.toNat / 16 * 16 + b.toNat % 16 = b.toNat := by omega
  simp [readHex2, printHex2, hexVal_digitChar (d := b.toNat / 16) (by omega),
    hexVal_digitChar (d := b.toNat % 16) (by omega), e]

theorem readHex2_some {s rest : List Char} {b : Byte} (h : readHex2 s = some (b, rest)) :
    s = printHex2 b ++ rest := by
  match s, h with
  | c :: l :: cs, h =>
    simp only [readHex2] at h
    split at h
    · next x y hx hy =>
      injection h with h; injection h with h1 h2
      obtain ⟨hx1, hx2⟩ := hexVal_some hx
      obtain ⟨hy1, hy2⟩ := hexVal_some hy
      have e : b.toNat = x * 16 + y := by rw [← h1, BitVec.toNat_ofNat]; omega
      subst h2
      simp only [printHex2, e]
      rw [show (x * 16 + y) / 16 = x by omega, show (x * 16 + y) % 16 = y by omega, hx2, hy2]
      rfl
    · cases h

theorem readWords_print (t : Triple) :
    readWords (printHex2 t.b0 ++ ",#H".toList ++ printHex2 t.b1 ++ ",#H".toList ++ printHex2 t.b2) = some t := by
  unfold readWords
  simp only [List.append_assoc, readHex2_printHex2, dropLit_append, Option.bind_some]
  rw [← List.append_nil (printHex2 t.b2), readHex2_printHex2]

theorem readWords_some {s : List Char} {t : Triple} (h : readWords s = some t) :
    s = printHex2 t.b0 ++ ",#H".toList ++ printHex2 t.b1 ++ ",#H".toList ++ printHex2 t.b2 := by
  unfold readWords at h
  split at h
  · cases h
  · next b0 s1 h0 =>
    split at h
    · cases h
    · next b1 s2 h1 =>
      split at h
      · next b2 h2 =>
        injection h with h
        subst h
        obtain ⟨r1, hr1, h1⟩ := Option.bind_eq_some_iff.1 h1
        obtain ⟨r2, hr2, h2⟩ := Option.bind_eq_some_iff.1 h2
        rw [readHex2_some h0, dropLit_some hr1, readHex2_some h1, dropLit_some hr2, readHex2_some h2]
        simp
      · cases h

/-! ### The path of `INIT_DEV` -/

theorem readPath_print {p : List Char} (h : (p.all fun c => c != quoteChar) = true) :
    readPath (p ++ [quoteChar]) = some p := by
  induction p with
  | nil => simp [readPath]
  | cons c p ih =>
    simp only [List.all_cons, Bool.and_eq_true, bne_iff_ne, ne_eq] at h
    simp [readPath, h.1, ih h.2]

theorem readPath_some {s p : List Char} (h : readPath s = some p) : s = p ++ [quoteChar] := by
  induction s generalizing p with
  | nil => cases h
  | cons c s ih =>
    unfold readPath at h
    split at h
    · next hc =>
      split at h
      · next hs => injection h with h; subst hc hs h; rfl
      · cases h
    · obtain ⟨q, hq, rfl⟩ := Option.map_eq_some_iff.1 h
      rw [ih hq]; rfl

/-! ### Whole lines -/

theorem colon_ne_digit {c : Char} {d : Nat} (h : decVal c = some d) : c ≠ ':' := by
  rintro rfl; cases h

theorem noDigit_rxq : NoDigit ":RX?".toList := noDigit_cons rfl _
theorem noDigit_stage (t : List Char) : NoDigit (":TX3:RX:CS #H".toList ++ t) := noDigit_cons rfl _

theorem readMsg_stage (i : Nat) (t : Triple) :
    readMsg (printDec i ++ (":TX3:RX:CS #H".toList ++ (printHex2 t.b0 ++ ",#H".toList ++ printHex2 t.b1 ++ ",#H".toList
      ++ printHex2 t.b2))) = some (.stage i t) := by
  unfold readMsg
  rw [readDec_printDec i (noDigit_stage _)]
  dsimp only
  rw [if_neg (clash_append (a := ":TX3:RX:CS #H".toList) (l := ":RX?".toList) rfl _).1, dropLit_append]
  simp only [Option.bind_some]
  rw [readWords_print]
  rfl

theorem readMsg_rxq (i : Nat) : readMsg (printDec i ++ ":RX?".toList) = some (.rxq i) := by
  unfold readMsg
  rw [readDec_printDec i noDigit_rxq]
  dsimp only
  rw [if_pos rfl]

/-- A stage line's text, however its pieces are bracketed. -/
theorem stage_text (a b c d e f g k : List Char) :
    a ++ (b ++ (c ++ (d ++ e ++ f ++ g ++ k))) = a ++ b ++ c ++ d ++ e ++ f ++ g ++ k := by simp

theorem readMsg_some {s : List Char} {l : Line} (h : readMsg s = some l) : "SPI:MSG".toList ++ s = printLine l := by
  unfold readMsg at h
  cases hi : readDec s with
  | none => rewrite [hi] at h; cases h
  | some p =>
    rewrite [hi] at h
    dsimp only at h
    rewrite [readDec_some hi]
    by_cases hr : p.2 = ":RX?".toList
    · rewrite [if_pos hr] at h
      rewrite [hr, ← Option.some.inj h]
      exact (List.append_assoc _ _ _).symm
    · rewrite [if_neg hr] at h
      obtain ⟨t, ht, hl⟩ := Option.map_eq_some_iff.1 h
      obtain ⟨r, hr2, ht2⟩ := Option.bind_eq_some_iff.1 ht
      rewrite [← hl, dropLit_some hr2, readWords_some ht2]
      exact stage_text _ _ _ _ _ _ _ _

theorem readLine_initDev {p : List Char} (h : (p.all fun c => c != quoteChar) = true) :
    readLine (printLine (.initDev p)) = some (.initDev p) := by
  have k : ∀ l, clash ("SPI:INIT:DEV ".toList ++ [quoteChar]) l = true → printLine (.initDev p) ≠ l := fun l hl => by
    have := (clash_append hl (p ++ [quoteChar])).1
    rwa [← List.append_assoc] at this
  unfold readLine
  rewrite [if_neg (k _ rfl), if_neg (k _ rfl), if_neg (k _ rfl), if_neg (k _ rfl), if_neg (k _ rfl), if_neg (k _ rfl),
    if_neg (k _ rfl), if_neg (k _ rfl), if_neg (k _ rfl)]
  have e : printLine (.initDev p) = ("SPI:INIT:DEV ".toList ++ [quoteChar]) ++ (p ++ [quoteChar]) := by
    rw [← List.append_assoc]; rfl
  rewrite [e, dropLit_append]
  dsimp only
  rewrite [readPath_print h]
  rfl

/-- A line that begins with a text that none of the nine fixed lines shares, and not `INIT_DEV`. -/
theorem readLine_skip {a : List Char} (t : List Char)
    (h : ∀ l ∈ ["SPI:SET:DEF".toList, "SPI:SET:GET".toList, "SPI:SET:MODE LIST".toList, "SPI:SET:WORD 8".toList,
      "SPI:SET:SET".toList, "SPI:PASS".toList, "SPI:MSG:DEL".toList, "SPI:RELEASE".toList, "SPI:SET:SPEED?".toList],
      a ++ t ≠ l) (hi : dropLit ("SPI:INIT:DEV ".toList ++ [quoteChar]) (a ++ t) = none) :
    readLine (a ++ t) =
      match dropLit "SPI:SET:SPEED ".toList (a ++ t) with
      | some r => (readLastDec r).map .setSpeed
      | none =>
        match dropLit "SPI:MSG:CREATE ".toList (a ++ t) with
        | some r => (readLastDec r).map .create
        | none =>
          match dropLit "SPI:MSG".toList (a ++ t) with
          | some r => readMsg r
          | none => none := by
  simp only [List.mem_cons, List.not_mem_nil, or_false, forall_eq_or_imp, forall_eq] at h
  obtain ⟨h1, h2, h3, h4, h5, h6, h7, h8, h9⟩ := h
  unfold readLine
  rewrite [if_neg h1, if_neg h2, if_neg h3, if_neg h4, if_neg h5, if_neg h6, if_neg h7, if_neg h8, if_neg h9, hi]
  rfl

theorem readLine_setSpeed (k : Nat) : readLine (printLine (.setSpeed k)) = some (.setSpeed k) := by
  show readLine ("SPI:SET:SPEED ".toList ++ printDec k) = _
  rewrite [readLine_skip]
  · rewrite [dropLit_append]
    dsimp only
    rewrite [readLastDec_printDec]
    rfl
  · intro l hl
    refine (clash_append ?_ _).1
    revert l; decide
  · exact (clash_append rfl _).2

theorem readLine_create (n : Nat) : readLine (printLine (.create n)) = some (.create n) := by
  show readLine ("SPI:MSG:CREATE ".toList ++ printDec n) = _
  rewrite [readLine_skip]
  · rewrite [(clash_append (l := "SPI:SET:SPEED ".toList) rfl _).2, dropLit_append]
    dsimp only
    rewrite [readLastDec_printDec]
    rfl
  · intro l hl
    refine (clash_append ?_ _).1
    revert l; decide
  · exact (clash_append rfl _).2

theorem readLine_msg (i : Nat) (t : List Char) :
    readLine ("SPI:MSG".toList ++ (printDec i ++ t)) = readMsg (printDec i ++ t) := by
  obtain ⟨c, cs, d, h1, h2⟩ := printDec_cons i
  have hc : c ≠ ':' := colon_ne_digit h2
  rewrite [h1, List.cons_append]
  have hd : ∀ u, "SPI:MSG".toList ++ c :: (cs ++ t) ≠ "SPI:MSG".toList ++ ':' :: u ∧
      dropLit ("SPI:MSG".toList ++ ':' :: u) ("SPI:MSG".toList ++ c :: (cs ++ t)) = none :=
    fun u => differ_append _ hc _ _
  rewrite [readLine_skip]
  · rewrite [(clash_append (l := "SPI:SET:SPEED ".toList) rfl _).2,
      show dropLit "SPI:MSG:CREATE ".toList ("SPI:MSG".toList ++ c :: (cs ++ t)) = none from (hd "CREATE ".toList).2,
      dropLit_append]
    rfl
  · intro l hl
    by_cases hm : l = "SPI:MSG:DEL".toList
    · rewrite [hm]; exact (hd "DEL".toList).1
    · refine (clash_append ?_ _).1
      revert l; decide
  · exact (clash_append rfl _).2

/-- Every line is read back from its text; the path of `INIT_DEV` holds no quote (R85). -/
theorem readLine_printLine (l : Line) (h : ∀ p, l = .initDev p → (p.all fun c => c != quoteChar) = true) :
    readLine (printLine l) = some l := by
  cases l with
  | initDev p => exact readLine_initDev (h p rfl)
  | setSpeed k => exact readLine_setSpeed k
  | create n => exact readLine_create n
  | stage i t =>
    rewrite [← readMsg_stage i t, ← readLine_msg, stage_text]
    rfl
  | rxq i =>
    rewrite [← readMsg_rxq i, ← readLine_msg, ← List.append_assoc]
    rfl
  | setDef | setGet | setMode | setWord | setSet | pass | del | release | speedq => rfl

theorem ite_some {p : Prop} [Decidable p] {a l : Line} {x : Option Line} (h : (if p then some a else x) = some l) :
    (p ∧ a = l) ∨ x = some l := by
  by_cases hp : p
  · rewrite [if_pos hp] at h; exact .inl ⟨hp, Option.some.inj h⟩
  · rewrite [if_neg hp] at h; exact .inr h

/-- Whatever is read as a line is that line's text. -/
theorem readLine_some {s : List Char} {l : Line} (h : readLine s = some l) : s = printLine l := by
  unfold readLine at h
  rcases ite_some h with ⟨hc, rfl⟩ | h
  · exact hc
  rcases ite_some h with ⟨hc, rfl⟩ | h
  · exact hc
  rcases ite_some h with ⟨hc, rfl⟩ | h
  · exact hc
  rcases ite_some h with ⟨hc, rfl⟩ | h
  · exact hc
  rcases ite_some h with ⟨hc, rfl⟩ | h
  · exact hc
  rcases ite_some h with ⟨hc, rfl⟩ | h
  · exact hc
  rcases ite_some h with ⟨hc, rfl⟩ | h
  · exact hc
  rcases ite_some h with ⟨hc, rfl⟩ | h
  · exact hc
  rcases ite_some h with ⟨hc, rfl⟩ | h
  · exact hc
  cases h1 : dropLit ("SPI:INIT:DEV ".toList ++ [quoteChar]) s with
  | some r =>
    rewrite [h1] at h
    obtain ⟨p, hp, hl⟩ := Option.map_eq_some_iff.1 h
    rewrite [dropLit_some h1, readPath_some hp, ← hl, ← List.append_assoc]
    rfl
  | none =>
  rewrite [h1] at h
  cases h2 : dropLit "SPI:SET:SPEED ".toList s with
  | some r =>
    rewrite [h2] at h
    obtain ⟨p, hp, hl⟩ := Option.map_eq_some_iff.1 h
    rewrite [dropLit_some h2, readLastDec_some hp, ← hl]
    rfl
  | none =>
  rewrite [h2] at h
  cases h3 : dropLit "SPI:MSG:CREATE ".toList s with
  | some r =>
    rewrite [h3] at h
    obtain ⟨p, hp, hl⟩ := Option.map_eq_some_iff.1 h
    rewrite [dropLit_some h3, readLastDec_some hp, ← hl]
    rfl
  | none =>
  rewrite [h3] at h
  cases h4 : dropLit "SPI:MSG".toList s with
  | some r =>
    rewrite [h4] at h
    rewrite [dropLit_some h4]
    exact readMsg_some h
  | none => rewrite [h4] at h; cases h

end Sys2Proof
end

