-- ==== Sys2Proof/Laws/Answers.lean ====
section
/-! SUPPORT. The texts that answer an `RXQ` line (30_encoding.md R95; assumption log 9): what their reader reads, and
what it does not. -/

namespace Sys2Proof.Machine
open Sys2Proof.Safety

/-- The digits at the front of a text, onto an accumulator. -/
def digitsValue (acc : Nat) (ds : List Char) : Nat := ds.foldl (fun v c => v * 10 + (c.toNat - 48)) acc

theorem readDigits_digits {ds rest : List Char} (h : ∀ c ∈ ds, 48 ≤ c.toNat ∧ c.toNat ≤ 57) (hr : NoDigit rest)
    (acc : Nat) : readDigits acc (ds ++ rest) = (digitsValue acc ds, rest) := by
  induction ds generalizing acc with
  | nil => exact readDigits_stop hr acc
  | cons c ds ih =>
    have hc : decVal c = some (c.toNat - 48) := if_pos (h c (by simp))
    rw [List.cons_append, readDigits, hc]
    exact ih (fun d hd => h d (by simp [hd])) _

/-- Every text is its leading digits and a rest that begins with none. -/
theorem leading_digits (s : List Char) :
    ∃ ds rest, s = ds ++ rest ∧ (∀ c ∈ ds, 48 ≤ c.toNat ∧ c.toNat ≤ 57) ∧ NoDigit rest := by
  induction s with
  | nil => exact ⟨[], [], rfl, by simp, noDigit_nil⟩
  | cons c s ih =>
    by_cases hc : 48 ≤ c.toNat ∧ c.toNat ≤ 57
    · obtain ⟨ds, rest, rfl, h1, h2⟩ := ih
      refine ⟨c :: ds, rest, rfl, ?_, h2⟩
      intro d hd
      rcases List.mem_cons.1 hd with rfl | hd
      · exact hc
      · exact h1 d hd
    · exact ⟨[], c :: s, rfl, by simp, noDigit_cons (if_neg hc) s⟩

theorem readByte_digits {ds rest : List Char} {v : Nat} (h : IsDecimal ds v) (hr : NoDigit rest) :
    readTriple.readByte (ds ++ rest) = if v < 256 then some (BitVec.ofNat 8 v, rest) else none := by
  obtain ⟨h0, h1, h2⟩ := h
  cases ds with
  | nil => exact absurd rfl h0
  | cons c ds =>
    have hc : decVal c = some (c.toNat - 48) := if_pos (h1 c (by simp))
    have hd := readDigits_digits (fun d hd => h1 d (List.mem_cons_of_mem c hd)) hr (c.toNat - 48)
    have hv : digitsValue (c.toNat - 48) ds = v := by
      rw [← h2, digitsValue, List.foldl_cons, Nat.zero_mul, Nat.zero_add]
    rw [List.cons_append, readTriple.readByte, hc]
    dsimp only
    rw [hd, hv]

theorem readByte_some {s rest : List Char} {b : Byte} (h : readTriple.readByte s = some (b, rest)) :
    ∃ ds v, IsDecimal ds v ∧ v < 256 ∧ b = BitVec.ofNat 8 v ∧ s = ds ++ rest := by
  obtain ⟨ds, r, rfl, h1, h2⟩ := leading_digits s
  cases ds with
  | nil =>
    cases r with
    | nil => cases h
    | cons c r => rw [List.nil_append, readTriple.readByte, h2 c r rfl] at h; cases h
  | cons c ds =>
    have hd : IsDecimal (c :: ds) (digitsValue 0 (c :: ds)) := ⟨List.cons_ne_nil _ _, h1, rfl⟩
    rw [readByte_digits hd h2] at h
    split at h
    · next hv =>
      injection h with h
      injection h with hb hr
      exact ⟨_, _, hd, hv, hb.symm, by rw [hr]⟩
    · cases h

/-- What the reader of an `RXQ` answer reads: a triple of decimals that are bytes, as these bytes, and nothing else
(R95, D25; assumption log 9). -/
theorem readTriple_iff (text : List Char) (t : Triple) :
    readTriple text = some t ↔ IsTriple text t.b0.toNat t.b1.toNat t.b2.toNat := by
  constructor
  · intro h
    unfold readTriple at h
    split at h
    · cases h
    next c s0 =>
    split at h
    · cases h
    next hc =>
    have hc : c = Char.ofNat 123 := not_not.1 hc
    split at h
    · cases h
    next b0 s1 h0 =>
    split at h
    · cases h
    next b1 s2 h1 =>
    split at h
    · next b2 d h2 =>
      split at h
      · next hd =>
        injection h with h
        obtain ⟨u1, g1, h1⟩ := Option.bind_eq_some_iff.1 h1
        obtain ⟨u2, g2, h2⟩ := Option.bind_eq_some_iff.1 h2
        obtain ⟨d0, v0, k0, l0, e0, rfl⟩ := readByte_some h0
        obtain ⟨d1, v1, k1, l1, e1, rfl⟩ := readByte_some h1
        obtain ⟨d2, v2, k2, l2, e2, rfl⟩ := readByte_some h2
        have ht : ∀ v, v < 256 → (BitVec.ofNat 8 v).toNat = v := fun v hv => by
          rw [BitVec.toNat_ofNat, Nat.mod_eq_of_lt hv]
        subst h
        dsimp only
        rw [e0, e1, e2, ht v0 l0, ht v1 l1, ht v2 l2]
        refine ⟨d0, d1, d2, k0, k1, k2, ?_⟩
        rw [dropLit_some g1, dropLit_some g2, hc, hd]
        simp
      · cases h
    · cases h
  · rintro ⟨d0, d1, d2, k0, k1, k2, rfl⟩
    have hcomma : ∀ cs, NoDigit (',' :: cs) := fun cs => noDigit_cons (by decide) cs
    have hend : NoDigit [Char.ofNat 125] := noDigit_cons (by decide) []
    have e0 := readByte_digits k0 (hcomma (d1 ++ ',' :: (d2 ++ [Char.ofNat 125])))
    have e1 := readByte_digits k1 (hcomma (d2 ++ [Char.ofNat 125]))
    have e2 := readByte_digits k2 hend
    rw [if_pos t.b0.isLt, BitVec.ofNat_toNat, BitVec.setWidth_eq] at e0
    rw [if_pos t.b1.isLt, BitVec.ofNat_toNat, BitVec.setWidth_eq] at e1
    rw [if_pos t.b2.isLt, BitVec.ofNat_toNat, BitVec.setWidth_eq] at e2
    have ht : Char.ofNat 123 :: d0 ++ ',' :: d1 ++ ',' :: d2 ++ [Char.ofNat 125]
        = Char.ofNat 123 :: (d0 ++ ',' :: (d1 ++ ',' :: (d2 ++ [Char.ofNat 125]))) := by simp
    rw [ht]
    unfold readTriple
    simp only [ne_eq, not_true_eq_false, if_false, e0, dropLit, if_true, Option.bind_some, e1, e2]

/-- A triple of decimals below 256 is read as its three bytes, the first the most significant. -/
theorem readTriple_some {text : List Char} {v0 v1 v2 : Nat} (h : IsTriple text v0 v1 v2) (h0 : v0 < 256)
    (h1 : v1 < 256) (h2 : v2 < 256) :
    readTriple text = some ⟨BitVec.ofNat 8 v0, BitVec.ofNat 8 v1, BitVec.ofNat 8 v2⟩ := by
  rw [readTriple_iff]
  dsimp only
  rwa [BitVec.toNat_ofNat, BitVec.toNat_ofNat, BitVec.toNat_ofNat, Nat.mod_eq_of_lt h0, Nat.mod_eq_of_lt h1,
    Nat.mod_eq_of_lt h2]

/-- A text that is no triple of decimals, or whose decimals are not all below 256, is not read. -/
theorem readTriple_none {text : List Char}
    (h : ∀ v0 v1 v2, IsTriple text v0 v1 v2 → 255 < v0 ∨ 255 < v1 ∨ 255 < v2) : readTriple text = none := by
  cases ht : readTriple text with
  | none => rfl
  | some t =>
    have := h _ _ _ ((readTriple_iff text t).1 ht)
    have := t.b0.isLt
    have := t.b1.isLt
    have := t.b2.isLt
    omega

end Sys2Proof.Machine
end

