-- ==== Sys2Proof/Laws/Codec.lean ====
section
/-! SUPPORT. Bit fields and byte order of a code (30_encoding.md R71, R76, R79; 40_codec.md R100 to R102, R107), in
numbers; the register constants; the operand words of host commands. -/

namespace Sys2Proof

/-! ### Pack and unpack -/

theorem unpackBytes_toNat (t : Triple) :
    (unpackBytes t).toNat = t.b0.toNat * 65536 + t.b1.toNat * 256 + t.b2.toNat := by
  have h0 := t.b0.isLt
  have h1 := t.b1.isLt
  have h2 := t.b2.isLt
  simp only [unpackBytes, BitVec.toNat_or, BitVec.toNat_shiftLeft, BitVec.toNat_setWidth]
  rw [Nat.mod_eq_of_lt (a := t.b0.toNat) (by omega), Nat.mod_eq_of_lt (a := t.b1.toNat) (by omega),
    Nat.mod_eq_of_lt (a := t.b2.toNat) (by omega)]
  rw [Nat.shiftLeft_eq, Nat.shiftLeft_eq, Nat.mod_eq_of_lt (by omega), Nat.mod_eq_of_lt (by omega)]
  rw [Nat.or_assoc, ← Nat.shiftLeft_eq, ← Nat.shiftLeft_eq, ← Nat.shiftLeft_add_eq_or_of_lt h2,
    ← Nat.shiftLeft_add_eq_or_of_lt (by rw [Nat.shiftLeft_eq]; omega), Nat.shiftLeft_eq, Nat.shiftLeft_eq]
  omega

theorem packCode_b0 (c : Code) : (packCode c).b0.toNat = c.toNat / 65536 := by
  have := c.isLt
  simp only [packCode, BitVec.extractLsb'_toNat, Nat.shiftRight_eq_div_pow]
  omega
theorem packCode_b1 (c : Code) : (packCode c).b1.toNat = c.toNat / 256 % 256 := by
  simp only [packCode, BitVec.extractLsb'_toNat, Nat.shiftRight_eq_div_pow]
theorem packCode_b2 (c : Code) : (packCode c).b2.toNat = c.toNat % 256 := by
  simp only [packCode, BitVec.extractLsb'_toNat, Nat.shiftRight_eq_div_pow]; omega

theorem unpackBytes_packCode (c : Code) : unpackBytes (packCode c) = c := by
  apply BitVec.eq_of_toNat_eq
  rw [unpackBytes_toNat, packCode_b0, packCode_b1, packCode_b2]
  omega

/-- Two triples of equal bytes are equal. -/
theorem triple_ext {t u : Triple} (h0 : t.b0.toNat = u.b0.toNat) (h1 : t.b1.toNat = u.b1.toNat)
    (h2 : t.b2.toNat = u.b2.toNat) : t = u := by
  cases t; cases u
  simp_all [BitVec.toNat_inj]

theorem packCode_unpackBytes (t : Triple) : packCode (unpackBytes t) = t := by
  have h0 := t.b0.isLt
  have h1 := t.b1.isLt
  have h2 := t.b2.isLt
  apply triple_ext <;> simp only [packCode_b0, packCode_b1, packCode_b2, unpackBytes_toNat] <;> omega

theorem codeOf_toNat (op : BitVec 4) (p : Payload) : (codeOf op p).toNat = op.toNat * 1048576 + p.toNat := by
  have h0 := op.isLt
  have h1 := p.isLt
  simp only [codeOf, BitVec.toNat_or, BitVec.toNat_shiftLeft, BitVec.toNat_setWidth]
  rw [Nat.mod_eq_of_lt (a := op.toNat) (by omega), Nat.mod_eq_of_lt (a := p.toNat) (by omega), Nat.shiftLeft_eq,
      Nat.mod_eq_of_lt (by omega), ← Nat.shiftLeft_eq, ← Nat.shiftLeft_add_eq_or_of_lt (by omega), Nat.shiftLeft_eq]

theorem opcodeOf_toNat (c : Code) : (opcodeOf c).toNat = c.toNat / 1048576 := by
  have := c.isLt
  simp only [opcodeOf, BitVec.extractLsb'_toNat, Nat.shiftRight_eq_div_pow]; omega
theorem selectOf_toNat (c : Code) : (selectOf c).toNat = c.toNat / 1048576 % 8 := by
  simp only [selectOf, BitVec.extractLsb'_toNat, Nat.shiftRight_eq_div_pow]
theorem payloadOf_toNat (c : Code) : (payloadOf c).toNat = c.toNat % 1048576 := by
  simp only [payloadOf, BitVec.extractLsb'_toNat, Nat.shiftRight_eq_div_pow]; omega

theorem opcodeOf_codeOf (op : BitVec 4) (p : Payload) : opcodeOf (codeOf op p) = op := by
  have h1 := p.isLt
  apply BitVec.eq_of_toNat_eq; rw [opcodeOf_toNat, codeOf_toNat]; omega
theorem payloadOf_codeOf (op : BitVec 4) (p : Payload) : payloadOf (codeOf op p) = p := by
  have h1 := p.isLt
  apply BitVec.eq_of_toNat_eq; rw [payloadOf_toNat, codeOf_toNat]; omega
theorem codeOf_parts (c : Code) : codeOf (opcodeOf c) (payloadOf c) = c := by
  apply BitVec.eq_of_toNat_eq; rw [codeOf_toNat, opcodeOf_toNat, payloadOf_toNat]; omega

/-! ### Codes of register writes and reads -/

namespace Machine

theorem selectCode_lt (r : Reg) : (selectCode r).toNat ≤ 4 := by cases r <;> decide
theorem selectCode_pos (r : Reg) : 1 ≤ (selectCode r).toNat := by cases r <;> decide
theorem selectCode_inj {r q : Reg} (h : (selectCode r).toNat = (selectCode q).toNat) : r = q := by
  revert h; cases r <;> cases q <;> decide

theorem selectBits_toNat (r : Reg) : (selectBits r).toNat = (selectCode r).toNat * 1048576 := by
  cases r <;> decide

theorem writeCode_toNat (r : Reg) (p : Payload) :
    (writeCode r p).toNat = (selectCode r).toNat * 1048576 + p.toNat := by
  have h1 := p.isLt
  have h2 := selectCode_lt r
  simp only [writeCode, BitVec.toNat_or, BitVec.toNat_setWidth, selectBits_toNat]
  rw [Nat.mod_eq_of_lt (a := p.toNat) (by omega), show (1048576 : Nat) = 2 ^ 20 from rfl, ← Nat.shiftLeft_eq,
    ← Nat.shiftLeft_add_eq_or_of_lt h1, Nat.shiftLeft_eq]

theorem encRead_toNat (r : Reg) : (encRead r).toNat = 8388608 + (selectCode r).toNat * 1048576 := by
  cases r <;> decide

/-- The answer to a read, field by field: select code and value (R209, R215). -/
theorem readAnswer_fields (d : Code) (r : Reg) (v : Payload) :
    selectOf (readAnswer d r v) = selectCode r ∧ payloadOf (readAnswer d r v) = v := by
  constructor
  · ext i hi
    have h : (readAnswer d r v).getLsbD (20 + i) = (selectCode r).getLsbD i := by
      simp only [readAnswer, opRead, selectBits, BitVec.getLsbD_or, BitVec.getLsbD_and, BitVec.getLsbD_shiftLeft,
        BitVec.getLsbD_setWidth]
      have h1 : (0x800000#24).getLsbD (20 + i) = false := by
        have : i = 0 ∨ i = 1 ∨ i = 2 := by omega
        rcases this with rfl | rfl | rfl <;> rfl
      have h4 : i < 24 := by omega
      simp [h1, h4, hi]
      omega
    simpa [selectOf, BitVec.getLsbD_eq_getElem hi] using h
  · ext i hi
    have h : (readAnswer d r v).getLsbD i = v.getLsbD i := by
      simp only [readAnswer, opRead, selectBits, BitVec.getLsbD_or, BitVec.getLsbD_and, BitVec.getLsbD_shiftLeft,
        BitVec.getLsbD_setWidth]
      have h1 : (0x800000#24).getLsbD i = false := by
        rw [show (0x800000#24 : BitVec 24) = BitVec.twoPow 24 23 by rfl, BitVec.getLsbD_twoPow]
        simp; omega
      simp [h1, hi]
      omega
    simpa [payloadOf, BitVec.getLsbD_eq_getElem hi] using h

/-- `DEC_READBACK` of the answer to a read of the same register: the value, where it is legal (R124). -/
theorem decReadback_readAnswer (P : Params) (d : Code) (r : Reg) (v : Payload) (h : v &&& regMask P r = v) :
    decReadback P r (readAnswer d r v) = .ok v := by
  obtain ⟨h1, h2⟩ := readAnswer_fields d r v
  simp [decReadback, h1, h2, h]

theorem opcodeOf_writeCode (r : Reg) (p : Payload) : (opcodeOf (writeCode r p)).toNat = (selectCode r).toNat := by
  have h1 := p.isLt
  rw [opcodeOf_toNat, writeCode_toNat]
  omega
theorem payloadOf_writeCode (r : Reg) (p : Payload) : payloadOf (writeCode r p) = p := by
  have h1 := p.isLt
  apply BitVec.eq_of_toNat_eq
  rw [payloadOf_toNat, writeCode_toNat]
  omega

/-- The masks of DATA and CLEAR shut nothing out (R73). -/
theorem regMask_full (P : Params) (p : Payload) : p &&& regMask P .data = p ∧ p &&& regMask P .clear = p := by
  have : p &&& 0xFFFFF#20 = p := by
    rw [show (0xFFFFF#20 : BitVec 20) = BitVec.allOnes 20 by rfl, BitVec.and_allOnes]
  exact ⟨this, this⟩

/-! ### Codes as frame operands -/

theorem isCode24_toNat (c : Code) : isCode24 (c.toNat : Int) = true := by
  have := c.isLt
  simp [isCode24]; omega

theorem isByte_toNat (b : Byte) : isByte (b.toNat : Int) = true := by
  have := b.isLt
  simp [isByte]; omega

theorem ofInt_toNat {w : Nat} (c : BitVec w) : BitVec.ofInt w (c.toNat : Int) = c := by
  simp

/-- `PACK` of a 24-bit code never fails (R100). -/
theorem packFrames_frameOf (i : Nat) (c : Code) (ks : List Int) :
    packFrames i (frameOf c :: ks) = (packFrames (i + 1) ks).map fun ts => packCode c :: ts := by
  simp [packFrames, frameOf, isCode24_toNat]

/-- What `PACK` answers, byte by byte from the most significant (R100). -/
theorem pack_bytes {k : Int} {t : Triple} (h : pack k = .ok t) :
    t = ⟨BitVec.ofInt 8 (k / 65536), BitVec.ofInt 8 (k / 256), BitVec.ofInt 8 k⟩ := by
  unfold pack at h
  split at h
  · next hc =>
    injection h with h
    subst h
    have hk : 0 ≤ k ∧ k < 16777216 := by simpa [isCode24] using hc
    apply triple_ext
    · rw [packCode_b0, BitVec.toNat_ofInt, BitVec.toNat_ofInt]; omega
    · rw [packCode_b1, BitVec.toNat_ofInt, BitVec.toNat_ofInt]; omega
    · rw [packCode_b2, BitVec.toNat_ofInt, BitVec.toNat_ofInt]; omega
  · cases h

/-- R107: three words of 8 bits are the bytes of `PACK`. -/
theorem packWords_pack (k : Int) (h : 0 ≤ k ∧ k < 16777216) :
    ∃ t, pack k = .ok t ∧ packWords 8 3 k = some [t.b0.toNat, t.b1.toNat, t.b2.toNat] := by
  obtain ⟨h0, h1⟩ := h
  obtain ⟨n, rfl⟩ := Int.eq_ofNat_of_zero_le h0
  have hn : n < 16777216 := by exact_mod_cast h1
  refine ⟨packCode (BitVec.ofNat 24 n), ?_, ?_⟩
  · simp [pack, isCode24]; omega
  · have hm : (BitVec.ofNat 24 n).toNat = n := by simp; omega
    rw [packCode_b0, packCode_b1, packCode_b2, hm]
    simp [packWords, List.range, List.range.loop, Nat.shiftRight_eq_div_pow]
    omega

end Machine

/-! ### Operand words -/

theorem asBits_toNat {w : Nat} (b : BitVec w) : asBits w (b.toNat : Int) = some b := by
  have := b.isLt
  have h : ((b.toNat : Nat) : Int) < 2 ^ w := by exact_mod_cast this
  simp [asBits, h]

theorem asBool_boolWord (b : Bool) : asBool (boolWord b) = some b := by cases b <;> rfl

theorem asReg_regWord (r : Reg) : asReg (regWord r) = some r := by cases r <;> rfl

theorem asExpect_expectWord (x : Expect) : asExpect (expectWord x) = some x := by
  cases x with
  | none => rfl
  | raw => rfl
  | reg r => cases r <;> rfl

theorem asExpects_map (xs : List Expect) : asExpects (xs.map expectWord) = some xs := by
  induction xs with
  | nil => rfl
  | cons x xs ih => simp [asExpects, asExpect_expectWord, ih]

theorem asPositive_pred {k : Nat} (h : 0 < k) : asPositive ((k : Int) - 1) = some k := by
  have : (0 : Int) ≤ (k : Int) - 1 := by omega
  simp only [asPositive, if_pos this]
  congr 1; omega

/-- Every voltage is read back from its words (assumption log 3). -/
theorem asVolt_voltWords (v : Volt) : ∃ a b c, voltWords v = [a, b, c] ∧ asVolt a b c = some v := by
  cases v with
  | fin q =>
    refine ⟨_, _, _, rfl, ?_⟩
    simp [asVolt, asPositive_pred q.den_pos, Rat.mkRat_self]
  | nan => exact ⟨_, _, _, rfl, rfl⟩
  | posInf => exact ⟨_, _, _, rfl, rfl⟩
  | negInf => exact ⟨_, _, _, rfl, rfl⟩

theorem takeCounted_append (l m : List Int) : takeCounted ((l.length : Int) :: l ++ m) = some (l, m) := by
  simp [takeCounted]

theorem asBatch_words (fs : List Int) (xs : List Expect) :
    asBatch ((fs.length : Int) :: fs ++ (xs.length : Int) :: xs.map expectWord) = some (.runBatch fs xs) := by
  have h := takeCounted_append (xs.map expectWord) []
  simp only [List.append_nil, List.length_map] at h
  unfold asBatch
  rw [takeCounted_append]
  simp [h, asExpects_map]

end Sys2Proof
end

