-- ==== Sys2Proof/Laws/Env.lean ====
section
/-! SUPPORT. What the peer can do with one line: the kind of its answer, the fields of the environment it leaves
alone, and the answers of a queue of named replies. -/

namespace Sys2Proof.Machine

/-! ### The DAC's frames leave mode, replies and bridge alone -/

@[simp] theorem dacNop_mode (e : Env) : (dacNop e).mode = e.mode := by simp [dacNop]
@[simp] theorem dacNop_replies (e : Env) : (dacNop e).replies = e.replies := by simp [dacNop]
@[simp] theorem dacNop_bridge (e : Env) : (dacNop e).peer.bridge = e.peer.bridge := by simp [dacNop]
@[simp] theorem dacWrite_mode (P : Params) (r : Reg) (p : Payload) (e : Env) : (dacWrite P r p e).mode = e.mode := by
  simp [dacWrite]
@[simp] theorem dacWrite_replies (P : Params) (r : Reg) (p : Payload) (e : Env) :
    (dacWrite P r p e).replies = e.replies := by simp [dacWrite]
@[simp] theorem dacWrite_bridge (P : Params) (r : Reg) (p : Payload) (e : Env) :
    (dacWrite P r p e).peer.bridge = e.peer.bridge := by simp [dacWrite]
@[simp] theorem dacLdac_mode (e : Env) : (dacLdac e).mode = e.mode := rfl
@[simp] theorem dacLdac_replies (e : Env) : (dacLdac e).replies = e.replies := rfl
@[simp] theorem dacLdac_bridge (e : Env) : (dacLdac e).peer.bridge = e.peer.bridge := rfl
@[simp] theorem drawRegisters_mode (P : Params) (e : Env) : (drawRegisters P e).mode = e.mode := by
  simp [drawRegisters]
@[simp] theorem drawRegisters_replies (P : Params) (e : Env) : (drawRegisters P e).replies = e.replies := by
  simp [drawRegisters]
@[simp] theorem drawRegisters_bridge (P : Params) (e : Env) : (drawRegisters P e).peer.bridge = e.peer.bridge := by
  simp [drawRegisters]
@[simp] theorem dacSoft_mode (P : Params) (p : Payload) (e : Env) : (dacSoft P p e).mode = e.mode := by
  unfold dacSoft; dsimp only; split <;> split <;> simp
@[simp] theorem dacSoft_replies (P : Params) (p : Payload) (e : Env) : (dacSoft P p e).replies = e.replies := by
  unfold dacSoft; dsimp only; split <;> split <;> simp
@[simp] theorem dacSoft_bridge (P : Params) (p : Payload) (e : Env) :
    (dacSoft P p e).peer.bridge = e.peer.bridge := by unfold dacSoft; dsimp only; split <;> split <;> simp
@[simp] theorem dacRead_mode (r : Reg) (e : Env) : (dacRead r e).mode = e.mode := by simp [dacRead]
@[simp] theorem dacRead_replies (r : Reg) (e : Env) : (dacRead r e).replies = e.replies := by simp [dacRead]
@[simp] theorem dacRead_bridge (r : Reg) (e : Env) : (dacRead r e).peer.bridge = e.peer.bridge := by simp [dacRead]
@[simp] theorem dacReadSoft_mode (e : Env) : (dacReadSoft e).mode = e.mode := by simp [dacReadSoft]
@[simp] theorem dacReadSoft_replies (e : Env) : (dacReadSoft e).replies = e.replies := by simp [dacReadSoft]
@[simp] theorem dacReadSoft_bridge (e : Env) : (dacReadSoft e).peer.bridge = e.peer.bridge := by simp [dacReadSoft]
@[simp] theorem dacUnknown_mode (e : Env) : (dacUnknown e).mode = e.mode := rfl
@[simp] theorem dacUnknown_replies (e : Env) : (dacUnknown e).replies = e.replies := rfl
@[simp] theorem dacUnknown_bridge (e : Env) : (dacUnknown e).peer.bridge = e.peer.bridge := rfl

@[simp] theorem dacFrame_mode (P : Params) (c : Code) (e : Env) : (dacFrame P c e).mode = e.mode := by
  unfold dacFrame dacNoPayload; split <;> (try split) <;> simp
@[simp] theorem dacFrame_replies (P : Params) (c : Code) (e : Env) : (dacFrame P c e).replies = e.replies := by
  unfold dacFrame dacNoPayload; split <;> (try split) <;> simp
@[simp] theorem dacFrame_bridge (P : Params) (c : Code) (e : Env) :
    (dacFrame P c e).peer.bridge = e.peer.bridge := by unfold dacFrame dacNoPayload; split <;> (try split) <;> simp

@[simp] theorem transfer_mode (P : Params) (ts : List (Option Triple)) (e : Env) :
    (transfer P ts e).2.mode = e.mode := by
  induction ts generalizing e with
  | nil => rfl
  | cons t ts ih => cases t <;> simp [transfer, ih]
@[simp] theorem transfer_replies (P : Params) (ts : List (Option Triple)) (e : Env) :
    (transfer P ts e).2.replies = e.replies := by
  induction ts generalizing e with
  | nil => rfl
  | cons t ts ih => cases t <;> simp [transfer, ih]
@[simp] theorem transfer_bridge (P : Params) (ts : List (Option Triple)) (e : Env) :
    (transfer P ts e).2.peer.bridge = e.peer.bridge := by
  induction ts generalizing e with
  | nil => rfl
  | cons t ts ih => cases t <;> simp [transfer, ih]
/-- Each slot of a transferred batch has its receive slot. -/
@[simp] theorem transfer_length (P : Params) (ts : List (Option Triple)) (e : Env) :
    (transfer P ts e).1.length = ts.length := by
  induction ts generalizing e with
  | nil => rfl
  | cons t ts ih => cases t <;> simp [transfer, ih]

/-! ### The answer's kind -/

/-- What a line may be answered with (R84, R217). -/
def AnswerFits (l : Line) (a : Answer) : Prop :=
  match l with
  | .rxq _ => a = .fail ∨ ∃ t, a = .bytes t
  | .speedq => a = .fail ∨ ∃ k, a = .int k
  | _ => a = .fail ∨ a = .ok

theorem readReply_fits (l : Line) (r : Reply) : AnswerFits l (readReply l r) := by
  cases l <;> cases r <;> simp [AnswerFits, readReply]
  case rxq.text i s => cases readTriple s <;> simp

theorem freeAnswer_fits (l : Line) (k : Nat) : AnswerFits l (freeAnswer l k) := by
  unfold freeAnswer
  split
  · cases l <;> simp [AnswerFits]
  · cases l <;> simp [AnswerFits]

theorem referenceLine_fits (P : Params) (l : Line) (e : Env) : AnswerFits l (referenceLine P l e).1 := by
  cases l <;> simp only [AnswerFits, referenceLine] <;> (try split) <;> simp

/-- The kind of an answer depends on its line alone. -/
theorem answer_fits (P : Params) (l : Line) (e : Env) : AnswerFits l (answer P l e).1 := by
  unfold answer
  split
  · unfold unconstrainedAnswer
    dsimp only
    split
    · exact freeAnswer_fits _ _
    · exact readReply_fits _ _
  · unfold referenceAnswer
    split
    · exact referenceLine_fits _ _ _
    · split
      · have := readReply_fits l e.nextReply
        rw [‹readReply _ _ = _›] at this
        exact this
      · exact readReply_fits _ _

/-- The reference peer by itself never answers `fail` (R213). -/
theorem referenceLine_ne_fail (P : Params) (l : Line) (e : Env) : (referenceLine P l e).1 ≠ .fail := by
  cases l <;> simp only [referenceLine] <;> (try split) <;> simp

/-! ### What an answer leaves alone -/

@[simp] theorem referenceLine_mode (P : Params) (l : Line) (e : Env) : (referenceLine P l e).2.mode = e.mode := by
  cases l <;> simp only [referenceLine, passBatch] <;> (try split) <;> simp
@[simp] theorem referenceLine_replies (P : Params) (l : Line) (e : Env) :
    (referenceLine P l e).2.replies = e.replies := by
  cases l <;> simp only [referenceLine, passBatch] <;> (try split) <;> simp
@[simp] theorem failedLine_mode (l : Line) (e : Env) : (failedLine l e).mode = e.mode := by
  cases l <;> simp only [failedLine] <;> (try split) <;> rfl
@[simp] theorem failedLine_replies (l : Line) (e : Env) : (failedLine l e).replies = e.replies := by
  cases l <;> simp only [failedLine] <;> (try split) <;> rfl

@[simp] theorem answer_mode (P : Params) (l : Line) (e : Env) : (answer P l e).2.mode = e.mode := by
  unfold answer
  split
  · simp [unconstrainedAnswer]
  · unfold referenceAnswer; split
    · simp
    · split <;> simp

/-- Each line takes one reply of the queue. -/
@[simp] theorem answer_replies (P : Params) (l : Line) (e : Env) : (answer P l e).2.replies = e.replies.tail := by
  unfold answer
  split
  · simp [unconstrainedAnswer]
  · unfold referenceAnswer; split
    · simp
    · split <;> simp

/-- A named reply is the answer, in either mode. -/
theorem answer_named (P : Params) (l : Line) (e : Env) (r : Reply) (rs : List Reply) (h : e.replies = r :: rs)
    (hr : r ≠ .own) : (answer P l e).1 = readReply l r := by
  have hn : e.nextReply = r := by simp [Env.nextReply, h]
  unfold answer
  split
  · simp [unconstrainedAnswer, hn, hr]
  · simp only [referenceAnswer, hn, hr, if_false]
    split
    · simp [*]
    · rfl

/-- The reference peer by itself: the answer is that of R214 and R216. -/
theorem answer_reference (P : Params) (l : Line) (e : Env) (hm : e.mode = .reference) (h : e.replies = []) :
    answer P l e = referenceLine P l e := by
  have hd : e.dropReply = e := by cases e; simp_all [Env.dropReply]
  simp [answer, hm, referenceAnswer, Env.nextReply, h, hd]

/-! ### What reaches the DAC -/

/-- No line of the reference peer but `PASS` reaches the DAC (R214, R216). -/
theorem referenceLine_dac {P : Params} {l : Line} (hl : l ≠ .pass) (e : Env) :
    (referenceLine P l e).2.dac = e.dac := by
  cases l <;> first | rfl | exact absurd rfl hl | (simp only [referenceLine]; split <;> simp; try rfl)

/-- A line that fails before the batch is transferred leaves the DAC alone (R240 c). -/
theorem failedLine_dac {l : Line} (h1 : l ≠ .pass) (h2 : ∀ i, l ≠ .rxq i) (e : Env)
    (h3 : l = .del → e.peer.bridge.transferred = false) : (failedLine l e).dac = e.dac := by
  cases l with
  | pass => exact absurd rfl h1
  | rxq i => exact absurd rfl (h2 i)
  | del => simp only [failedLine, h3 rfl]; rfl
  | _ => rfl

/-- Before the batch is transferred no line, answered or failed, reaches the DAC of the reference peer (R61, R240 c). -/
theorem answer_dac_before {P : Params} {l : Line} (h1 : l ≠ .pass) (h2 : ∀ i, l ≠ .rxq i) (e : Env)
    (hm : e.mode = .reference) (h3 : l = .del → e.peer.bridge.transferred = false) :
    (answer P l e).2.dac = e.dac := by
  unfold answer
  rw [hm]
  show (referenceAnswer P l e.nextReply e.dropReply).2.dac = _
  unfold referenceAnswer
  split
  · rw [referenceLine_dac h1]; rfl
  · split
    · rw [failedLine_dac h1 h2]
      · rfl
      · exact h3
    · show (referenceLine P l e.dropReply).2.dac = _
      rw [referenceLine_dac h1]; rfl

end Sys2Proof.Machine
end

