-- ==== Sys2Proof/Laws/Ops.lean ====
section
/-! SUPPORT. The shared operations: actions composed of actions keep what their parts keep, and what an admitted
command does. -/

namespace Sys2Proof.Machine

/-! ### What an action keeps -/

/-- Every run of the action relates the state before to the state after. -/
def Keeps {α : Type} (R : State → State → Prop) (f : Act α) : Prop := ∀ s, R s (f s).2

theorem Keeps.result {α : Type} {R : State → State → Prop} (hr : ∀ s, R s s) (r : Except Err α) :
    Keeps R (Act.result r) := fun s => hr s

theorem Keeps.map {α β : Type} {R : State → State → Prop} {f : Act α} (hf : Keeps R f) (g : α → β) :
    Keeps R (Act.map f g) := fun s => hf s

theorem Keeps.andThen {α β : Type} {R : State → State → Prop} (ht : ∀ a b c, R a b → R b c → R a c) {f : Act α}
    {g : α → Act β} (hf : Keeps R f) (hg : ∀ a, Keeps R (g a)) : Keeps R (Act.andThen f g) := fun s => by
  unfold Act.andThen
  split
  · exact ht _ _ _ (hf s) (hg _ _)
  · exact hf s

/-- A composite command whose first part ends in a value goes on with it (R236 c). -/
theorem andThen_ok {α β : Type} {f : Act α} {g : α → Act β} {s : State} {a : α} (h : (f s).1 = .ok a) :
    Act.andThen f g s = g a (f s).2 := by unfold Act.andThen; rw [h]

/-- A composite command whose first part ends in an error ends in it, with no later step (R236 c). -/
theorem andThen_error {α β : Type} {f : Act α} {g : α → Act β} {s : State} {e : Err} (h : (f s).1 = .error e) :
    Act.andThen f g s = (.error e, (f s).2) := by unfold Act.andThen; rw [h]

@[simp] theorem map_fst {α β : Type} (f : Act α) (g : α → β) (s : State) : (Act.map f g s).1 = (f s).1.map g := rfl
@[simp] theorem map_snd {α β : Type} (f : Act α) (g : α → β) (s : State) : (Act.map f g s).2 = (f s).2 := rfl
@[simp] theorem result_apply {α : Type} (r : Except Err α) (s : State) : Act.result r s = (r, s) := rfl

/-! ### Frames of actions -/

/-- What every action of the block leaves alone, the session apart: parameters, deferred flag, waiting packets, the
last completion, the peer's mode; and the trace only grows. -/
structure Within (s t : State) : Prop where
  params : t.params = s.params
  inbox : t.inbox = s.inbox
  defer : t.defer = s.defer
  completion : t.completion = s.completion
  mode : t.env.mode = s.env.mode
  trace : s.trace <+: t.trace

theorem Within.refl (s : State) : Within s s := ⟨rfl, rfl, rfl, rfl, rfl, List.prefix_refl _⟩

theorem Within.trans {a b c : State} (h : Within a b) (k : Within b c) : Within a c :=
  ⟨k.params.trans h.params, k.inbox.trans h.inbox, k.defer.trans h.defer, k.completion.trans h.completion,
   k.mode.trans h.mode, h.trace.trans k.trace⟩

/-- `Within`, and the session unchanged. -/
structure WithinSession (s t : State) : Prop extends Within s t where
  sess : t.sess = s.sess

theorem WithinSession.refl (s : State) : WithinSession s s := ⟨Within.refl s, rfl⟩

theorem WithinSession.trans {a b c : State} (h : WithinSession a b) (k : WithinSession b c) : WithinSession a c :=
  ⟨h.toWithin.trans k.toWithin, k.sess.trans h.sess⟩

theorem emit_within (l : Line) (s : State) : WithinSession s (emit l s).2 :=
  ⟨⟨rfl, rfl, rfl, rfl, by simp, by simp⟩, rfl⟩

/-- A change of the sequencer's working state alone is within the session's frame. -/
theorem withinSession_seq {s t : State} (h : WithinSession s t) (q : Seq) : WithinSession s { t with seq := q } :=
  ⟨⟨h.params, h.inbox, h.defer, h.completion, h.mode, h.trace⟩, h.sess⟩

theorem recordErr_within {s t : State} (e : Err) (h : WithinSession s t) : WithinSession s (recordErr e t) :=
  ⟨⟨by simp [h.params], by simp [h.inbox], by simp [h.defer], by simp [h.completion], by simp [h.mode],
    by simpa using h.trace⟩, by simp [h.sess]⟩

/-! ### Completion and admission -/

@[simp] theorem runAct_params (f : Act Value) (s : State) : (runAct f s).params = (f s).2.params := by simp [runAct]
@[simp] theorem runAct_sess (f : Act Value) (s : State) : (runAct f s).sess = (f s).2.sess := by simp [runAct]
@[simp] theorem runAct_defer (f : Act Value) (s : State) : (runAct f s).defer = (f s).2.defer := by simp [runAct]
@[simp] theorem runAct_seq (f : Act Value) (s : State) : (runAct f s).seq = (f s).2.seq := by simp [runAct]
@[simp] theorem runAct_trace (f : Act Value) (s : State) : (runAct f s).trace = (f s).2.trace := by simp [runAct]
@[simp] theorem runAct_env (f : Act Value) (s : State) : (runAct f s).env = (f s).2.env := by simp [runAct]
@[simp] theorem runAct_inbox (f : Act Value) (s : State) : (runAct f s).inbox = (f s).2.inbox := by simp [runAct]
theorem runAct_ok {f : Act Value} {s : State} {v : Value} (h : (f s).1 = .ok v) :
    runAct f s = { (f s).2 with completion := some (.ok v) } := by simp [runAct, h, complete]
theorem runAct_error {f : Act Value} {s : State} {e : Err} (h : (f s).1 = .error e) :
    runAct f s = { (f s).2 with completion := some (.err e) } := by simp [runAct, h, complete]

theorem hostCommand_idle (f : Act Value) {s : State} (h : s.seq.phase = .idle) :
    hostCommand f s = .next (runAct f s) := by simp [hostCommand, h]

theorem hostCommand_busy (f : Act Value) {s : State} (h : s.seq.phase ≠ .idle) :
    hostCommand f s = .refused .busy := by simp [hostCommand, h]

/-- A host command answers a next state only between batches, and then it is the completed action. -/
theorem hostCommand_next {f : Act Value} {s t : State} (h : hostCommand f s = .next t) :
    s.seq.phase = .idle ∧ t = runAct f s := by
  unfold hostCommand at h
  split at h
  · exact ⟨‹_›, by injection h with h; exact h.symm⟩
  · cases h

theorem ioCommand_ready (f : Act Value) {s : State} (h : s.seq.phase = .idle) (hs : s.sess = .claimed) :
    ioCommand f s = .next (runAct f s) := by simp [ioCommand, h, hs]

/-- An I/O command answers a next state only between batches and with a session. -/
theorem ioCommand_next {f : Act Value} {s t : State} (h : ioCommand f s = .next t) :
    s.seq.phase = .idle ∧ s.sess = .claimed ∧ t = runAct f s := by
  unfold ioCommand at h
  split at h
  · split at h
    · exact ⟨‹_›, ‹_›, by injection h with h; exact h.symm⟩
    · cases h
  · cases h

/-! ### Lines sent outside a batch -/

theorem sendLine_within (l : Line) : Keeps WithinSession (sendLine l) := fun s => emit_within l s

theorem querySpeed_within : Keeps WithinSession querySpeed := fun s => emit_within .speedq s

@[simp] theorem sendLine_seq (l : Line) (s : State) : (sendLine l s).2.seq = s.seq := rfl
@[simp] theorem sendLine_trace (l : Line) (s : State) :
    (sendLine l s).2.trace = s.trace ++ [⟨l, (emit l s).1⟩] := rfl
@[simp] theorem sendLine_state (l : Line) (s : State) : (sendLine l s).2 = (emit l s).2 := rfl
@[simp] theorem querySpeed_state (s : State) : (querySpeed s).2 = (emit .speedq s).2 := rfl

end Sys2Proof.Machine
end

