-- ==== Sys2Proof/Laws/Sequencer.lean ====
section
/-! SUPPORT. The sequencer: its frame, the loops of `RUN_BATCH` line by line, and the shape of its trace
(43_sequencer.md R151 to R160). -/

namespace Sys2Proof.Machine

open Sys2Proof.Safety

/-! ### Frames -/

/-- Staging a slot with the frame it already holds only emits the line. -/
theorem memWriteTx_self {i : Nat} {t : Triple} {s : State} (h : s.seq.tx[i]? = some t) :
    memWriteTx i t s = emit (.stage i t) s := by
  have hl : s.seq.tx.set i t = s.seq.tx := by
    obtain ⟨hi, rfl⟩ := List.getElem?_eq_some_iff.1 h
    exact List.set_getElem_self hi
  unfold memWriteTx
  rw [hl]

theorem seqStage_within (s : State) : WithinSession s (seqStage s) := by
  unfold seqStage
  split
  · exact WithinSession.refl s
  · next t h =>
    simp only [memWriteTx_self h]
    split
    · exact recordErr_within _ (emit_within _ s)
    · exact withinSession_seq (emit_within _ s) _

theorem seqCommit_within (s : State) : WithinSession s (seqCommit s) := by
  unfold seqCommit
  dsimp only
  split
  · exact recordErr_within _ (emit_within _ s)
  · exact withinSession_seq (emit_within _ s) _

theorem fetchSlot_within (i : Nat) (x : Expect) (s : State) : WithinSession s (fetchSlot i x s) := by
  unfold fetchSlot
  dsimp only [memReadRx_state]
  split
  · exact recordErr_within _ (emit_within _ s)
  · split
    · exact recordErr_within _ (emit_within _ s)
    · exact withinSession_seq (emit_within _ s) _

theorem seqFetch_within (s : State) : WithinSession s (seqFetch s) := by
  unfold seqFetch
  split
  · exact WithinSession.refl s
  · exact withinSession_seq (WithinSession.refl s) _
  · exact fetchSlot_within _ _ _

theorem stageAll_within (k : Nat) (s : State) : WithinSession s (stageAll k s) := by
  induction k generalizing s with
  | zero => exact WithinSession.refl s
  | succ k ih =>
    unfold stageAll
    split
    · exact (seqStage_within s).trans (ih _)
    · exact WithinSession.refl s

theorem commitIfClean_within (s : State) : WithinSession s (commitIfClean s) := by
  unfold commitIfClean
  split
  · exact seqCommit_within s
  · exact WithinSession.refl s

theorem fetchAll_within (k : Nat) (s : State) : WithinSession s (fetchAll k s) := by
  induction k generalizing s with
  | zero => exact WithinSession.refl s
  | succ k ih =>
    unfold fetchAll
    split
    · exact (seqFetch_within s).trans (ih _)
    · exact WithinSession.refl s

theorem seqEnd_within : Keeps WithinSession seqEnd := fun s => withinSession_seq (emit_within .del s) _

theorem seqBegin_within : Keeps WithinSession seqBegin := fun s => by
  unfold seqBegin
  dsimp only
  split
  · exact withinSession_seq (emit_within _ s) _
  · exact withinSession_seq (emit_within _ s) _

theorem finishBatch_within (n : Nat) : Keeps WithinSession (finishBatch n) := fun s =>
  (((stageAll_within n s).trans (commitIfClean_within _)).trans (fetchAll_within n _)).trans (seqEnd_within _)

theorem seqLoad_within (tx : List Triple) (x : List Expect) (s : State) : WithinSession s (seqLoad tx x s) :=
  withinSession_seq (WithinSession.refl s) _

/-- A batch leaves everything but the sequencer, the trace and the environment alone. -/
theorem runBatch_within (frames : List Int) (x : List Expect) : Keeps WithinSession (runBatch frames x) := fun s => by
  unfold runBatch
  split
  · exact WithinSession.refl s
  · next tx _ =>
    have h : Keeps WithinSession (Act.andThen seqBegin fun _ => finishBatch tx.length) :=
      Keeps.andThen (R := WithinSession) (fun _ _ _ h k => h.trans k) seqBegin_within fun _ => finishBatch_within _
    exact (seqLoad_within tx x s).trans (h _)

/-- Packing keeps the number of frames. -/
theorem packFrames_length {i : Nat} {frames : List Int} {tx : List Triple} (h : packFrames i frames = .ok tx) :
    tx.length = frames.length := by
  induction frames generalizing i tx with
  | nil => cases h; rfl
  | cons k ks ih =>
    unfold packFrames at h
    split at h
    · cases hr : packFrames (i + 1) ks with
      | error e => rw [hr] at h; cases h
      | ok ts => rw [hr] at h; cases h; simp [ih hr]
    · cases h

/-- Packing puts `PACK` of frame `j` in slot `j` (R151). -/
theorem packFrames_slot {i : Nat} {frames : List Int} {tx : List Triple} (h : packFrames i frames = .ok tx) {j : Nat}
    {k : Int} (hk : frames[j]? = some k) : ∃ t, tx[j]? = some t ∧ pack k = .ok t := by
  induction frames generalizing i tx j with
  | nil => cases hk
  | cons f fs ih =>
    unfold packFrames at h
    split at h
    · next hc =>
      cases hr : packFrames (i + 1) fs with
      | error e => rw [hr] at h; cases h
      | ok ts =>
        rw [hr] at h
        injection h with h
        subst h
        cases j with
        | zero =>
          injection hk with hk
          subst hk
          exact ⟨_, rfl, if_pos hc⟩
        | succ j => exact ih hr hk
    · cases h

/-- Frames that are all codes are all packed (R151). -/
theorem packFrames_total (i : Nat) {frames : List Int} (h : ∀ f ∈ frames, 0 ≤ f ∧ f < 16777216) :
    ∃ tx, packFrames i frames = .ok tx := by
  induction frames generalizing i with
  | nil => exact ⟨[], rfl⟩
  | cons f fs ih =>
    obtain ⟨ts, hr⟩ := ih (i + 1) fun g hg => h g (List.mem_cons_of_mem f hg)
    have hc : isCode24 f = true := by simpa [isCode24] using h f (List.mem_cons_self ..)
    refine ⟨packCode (BitVec.ofInt 24 f) :: ts, ?_⟩
    unfold packFrames
    rw [if_pos hc, hr]
    rfl

/-! ### A failed create, a finished batch: the sequencer is idle -/

@[simp] theorem finishBatch_seq (n : Nat) (s : State) : (finishBatch n s).2.seq = Seq.idle := rfl

/-- After a batch the sequencer is idle, unless nothing was emitted. -/
theorem runBatch_seq (frames : List Int) (x : List Expect) (s : State) :
    (runBatch frames x s).2.seq = Seq.idle ∨ (runBatch frames x s).2 = s := by
  unfold runBatch
  split
  · exact .inr rfl
  · left
    unfold Act.andThen
    split
    · rfl
    · next h =>
      unfold seqBegin at h ⊢
      dsimp only at h ⊢
      split at h
      · rename_i hf; rw [if_pos hf]
      · cases h

/-- A batch begun between batches ends between batches. -/
theorem runBatch_phase (frames : List Int) (x : List Expect) (s : State) (h : s.seq.phase = .idle) :
    (runBatch frames x s).2.seq.phase = .idle := by
  rcases runBatch_seq frames x s with h' | h' <;> rw [h']
  · rfl
  · exact h

end Sys2Proof.Machine
end

