-- ==== Sys2Proof/Laws/Invariant.lean ====
section
/-! SUPPORT. The invariant `Safety.Safe` micro-step by micro-step: canonical batch buffer, bracketed trace that agrees
with the position, a claimed session while a batch is open (10_state.md R22, R40; 43_sequencer.md R158, R160,
    R162). -/

namespace Sys2Proof.Machine

open Sys2Proof.Safety

/-! ### Reading a trace event by event -/

theorem scanFrom_append (b : BatchState) (l m : List Event) :
    scanFrom b (l ++ m) = (scanFrom b l).bind fun b' => scanFrom b' m := by
  induction l generalizing b with
  | nil => rfl
  | cons e l ih =>
    simp only [List.cons_append, scanFrom]
    cases nextBatchState b e with
    | none => rfl
    | some b' => exact ih b'

theorem scan_snoc (l : List Event) (e : Event) : scan (l ++ [e]) = (scan l).bind fun b => nextBatchState b e := by
  unfold scan
  rw [scanFrom_append]
  cases scanFrom .free l with
  | none => rfl
  | some b =>
    show scanFrom b [e] = nextBatchState b e
    unfold scanFrom
    cases nextBatchState b e <;> rfl

end Sys2Proof.Machine

namespace Sys2Proof.Safety

open Sys2Proof.Machine

/-! ### What the invariant says in each phase -/

theorem Safe.idle_seq {s : State} (h : Safe s) (hp : s.seq.phase = .idle) : s.seq = Seq.idle := by
  simpa [Memory.wf, hp] using h.buffer

theorem Safe.scan_idle {s : State} (h : Safe s) (hp : s.seq.phase = .idle) : scan s.trace = some .free := by
  have h2 := h.trace
  cases hs : scan s.trace with
  | none => simp [hs, traceAgrees] at h2
  | some b => cases b <;> simp_all [traceAgrees]

theorem Safe.scan_staging {s : State} (h : Safe s) (hp : s.seq.phase = .staging) (he : s.seq.err = none) :
    scan s.trace = some (.staging s.seq.n s.seq.ptr) := by
  have h2 := h.trace
  cases hs : scan s.trace with
  | none => simp [hs, traceAgrees] at h2
  | some b => cases b <;> simp_all [traceAgrees]

theorem Safe.scan_committed {s : State} (h : Safe s) (hp : s.seq.phase = .committed) (he : s.seq.err = none) :
    ∃ j, j ≤ s.seq.fptr ∧ scan s.trace = some (.fetching s.seq.n j) := by
  have h2 := h.trace
  cases hs : scan s.trace with
  | none => simp [hs, traceAgrees] at h2
  | some b => cases b <;> simp_all [traceAgrees]

/-- With an error pending, or committed, the only line left is `DEL`, and it closes the bracket. -/
theorem Safe.scan_end {s : State} (h : Safe s) (hp : s.seq.phase ≠ .idle)
    (hc : s.seq.err ≠ none ∨ s.seq.phase = .committed) (a : Answer) :
    scan (s.trace ++ [⟨.del, a⟩]) = some .free := by
  have h2 := h.trace
  rw [scan_snoc]
  cases hs : scan s.trace with
  | none => simp [hs, traceAgrees] at h2
  | some b =>
    cases b with
    | free => simp [hs, traceAgrees] at h2; exact absurd h2 hp
    | staging n k => simp [hs, traceAgrees] at h2; simp_all
    | fetching n j => rfl
    | closing => rfl

/-- An idle state is safe exactly when its buffer is cleared and its trace is bracketed. -/
theorem inv_idle_iff {s : State} (hp : s.seq.phase = .idle) : Safe s ↔ s.seq = Seq.idle ∧ Bracketed s.trace := by
  constructor
  · exact fun h => ⟨h.idle_seq hp, h.scan_idle hp⟩
  · rintro ⟨h1, h2⟩
    refine ⟨by rw [h1]; rfl, ?_, fun h => absurd hp h⟩
    rw [show scan s.trace = _ from h2]
    simp [traceAgrees, hp]

end Sys2Proof.Safety

namespace Sys2Proof.Machine

open Sys2Proof.Safety

/-! ### The micro-steps -/

/-- `SEQ_BEGIN` of a loaded batch: safe and idle after a failure, safe and staging after a success. -/
theorem seqBegin_inv {s : State} (hb : Bracketed s.trace) (hs : s.sess = .claimed)
    (htx : s.seq.tx.length = s.seq.n) (hx : s.seq.expect.length = s.seq.n) (hr : s.seq.result.length = s.seq.n)
    (he : s.seq.err = none) :
    Safe (seqBegin s).2 ∧
      ((seqBegin s).1 = .ok () → (seqBegin s).2.seq = { s.seq with phase := .staging, ptr := 0, fptr := 0 }) ∧
      (∀ e, (seqBegin s).1 = .error e → (seqBegin s).2.seq = Seq.idle) := by
  have hb' : scan s.trace = some .free := hb
  unfold seqBegin
  dsimp only
  by_cases hf : (emit (.create s.seq.n) s).1 = .fail
  · rw [if_pos hf]
    refine ⟨(inv_idle_iff rfl).2 ⟨rfl, ?_⟩, by simp, by simp⟩
    show scan (emit _ s).2.trace = _
    rw [emit_trace, scan_snoc, hb']
    simp [nextBatchState, hf]
  · rw [if_neg hf]
    refine ⟨⟨?_, ?_, fun _ => hs⟩, by simp, by simp⟩
    · simp [Memory.wf, htx, hx, hr]
    · show traceAgrees _ (scan (emit _ s).2.trace) = true
      rw [emit_trace, scan_snoc, hb']
      simp [nextBatchState, hf, traceAgrees, he]

theorem seqLoad_lengths (tx : List Triple) (x : List Expect) (s : State) :
    (seqLoad tx x s).seq.tx.length = (seqLoad tx x s).seq.n ∧
      (seqLoad tx x s).seq.result.length = (seqLoad tx x s).seq.n := by simp [seqLoad]

/-- `SEQ_STAGE` of the next slot (R153, R162): one line; the position moves on, or the error is recorded. -/
theorem seqStage_cases {s : State} (h : Safe s) (hp : s.seq.phase = .staging) (hlt : s.seq.ptr < s.seq.n) :
    ∃ t, s.seq.tx[s.seq.ptr]? = some t ∧
      ((emit (.stage s.seq.ptr t) s).1 = .fail ∧
          seqStage s = recordErr (.transportError (.stage s.seq.ptr t)) (emit (.stage s.seq.ptr t) s).2 ∨
        (emit (.stage s.seq.ptr t) s).1 ≠ .fail ∧
          seqStage s = { (emit (.stage s.seq.ptr t) s).2 with seq := { s.seq with ptr := s.seq.ptr + 1 } }) := by
  have hw := h.buffer
  simp [Memory.wf, hp] at hw
  have hlen : s.seq.ptr < s.seq.tx.length := by omega
  refine ⟨s.seq.tx[s.seq.ptr], List.getElem?_eq_getElem hlen, ?_⟩
  have hg : s.seq.tx[s.seq.ptr]? = some s.seq.tx[s.seq.ptr] := List.getElem?_eq_getElem hlen
  unfold seqStage
  rw [hg]
  simp only [memWriteTx_self hg]
  by_cases hf : (emit (.stage s.seq.ptr s.seq.tx[s.seq.ptr]) s).1 = .fail
  · exact .inl ⟨hf, by rw [if_pos hf]⟩
  · exact .inr ⟨hf, by rw [if_neg hf]; rfl⟩

theorem seqStage_inv {s : State} (h : Safe s) (hp : s.seq.phase = .staging) (he : s.seq.err = none)
    (hlt : s.seq.ptr < s.seq.n) : Safe (seqStage s) ∧ (seqStage s).seq.phase = .staging := by
  have hsc := h.scan_staging hp he
  have hw := h.buffer
  simp [Memory.wf, hp] at hw
  obtain ⟨t, ht, ⟨hf, heq⟩ | ⟨hf, heq⟩⟩ := seqStage_cases h hp hlt
  · rw [heq]
    have hq := recordErr_seq (.transportError (.stage s.seq.ptr t)) (emit (.stage s.seq.ptr t) s).2 he
    refine ⟨⟨?_, ?_, fun _ => ?_⟩, by rw [hq]; exact hp⟩
    · rw [hq]; simp [Memory.wf, hp, hw]
    · rw [hq, recordErr_trace, emit_trace, scan_snoc, hsc]
      simp [nextBatchState, hlt, hf, traceAgrees, hp]
    · rw [recordErr_sess]; exact h.session (by simp [hp])
  · rw [heq]
    refine ⟨⟨?_, ?_, fun _ => ?_⟩, hp⟩
    · simp [Memory.wf, hp, hw]; omega
    · show traceAgrees _ (scan (emit _ s).2.trace) = true
      rw [emit_trace, scan_snoc, hsc]
      simp [nextBatchState, hlt, hf, traceAgrees, hp, he]
    · exact h.session (by simp [hp])

theorem seqCommit_inv {s : State} (h : Safe s) (hp : s.seq.phase = .staging) (he : s.seq.err = none)
    (hptr : s.seq.ptr = s.seq.n) :
    Safe (seqCommit s) ∧ (seqCommit s).seq.phase ≠ .idle ∧
      ((seqCommit s).seq.err ≠ none ∨ (seqCommit s).seq.phase = .committed) := by
  have hsc := h.scan_staging hp he
  have hw := h.buffer
  simp [Memory.wf, hp] at hw
  unfold seqCommit
  dsimp only
  by_cases hf : (emit .pass s).1 = .fail
  · rw [if_pos hf]
    have hq := recordErr_seq (.transportError .pass) (emit .pass s).2 he
    refine ⟨⟨?_, ?_, fun _ => ?_⟩, by rw [hq]; simp [hp], .inl (by rw [hq]; simp)⟩
    · rw [hq]; simp [Memory.wf, hp, hw]
    · rw [hq, recordErr_trace, emit_trace, scan_snoc, hsc]
      simp [nextBatchState, hptr, hf, traceAgrees, hp]
    · rw [recordErr_sess]; exact h.session (by simp [hp])
  · rw [if_neg hf]
    refine ⟨⟨?_, ?_, fun _ => ?_⟩, by simp, .inr rfl⟩
    · simp [Memory.wf, hw]
    · show traceAgrees _ (scan (emit _ s).2.trace) = true
      rw [emit_trace, scan_snoc, hsc]
      simp [nextBatchState, hptr, hf, traceAgrees]
    · exact h.session (by simp [hp])

/-- Fetching slot `i` of a committed batch whose earlier slots are done with. -/
theorem fetchSlot_inv {s : State} (i : Nat) (x : Expect) (h : Safe s) (hp : s.seq.phase = .committed)
    (he : s.seq.err = none) (hi : s.seq.fptr ≤ i) (hlt : i < s.seq.n) :
    Safe (fetchSlot i x s) ∧ (fetchSlot i x s).seq.phase = .committed := by
  obtain ⟨j, hj, hsc⟩ := h.scan_committed hp he
  have hw := h.buffer
  simp [Memory.wf, hp] at hw
  have hji : j ≤ i ∧ i < s.seq.n := ⟨by omega, hlt⟩
  have herr : ∀ e, Safe (recordErr e (emit (.rxq i) s).2) ∧
      (recordErr e (emit (.rxq i) s).2).seq.phase = .committed := by
    intro e
    have hq := recordErr_seq e (emit (.rxq i) s).2 he
    refine ⟨⟨?_, ?_, fun _ => ?_⟩, by rw [hq]; exact hp⟩
    · rw [hq]; simp [Memory.wf, hp, hw]
    · rw [hq, recordErr_trace, emit_trace, scan_snoc, hsc]
      simp only [Option.bind_some, nextBatchState]
      rw [if_pos hji]
      split <;> simp [traceAgrees, hp]
    · rw [recordErr_sess]; exact h.session (by simp [hp])
  unfold fetchSlot
  dsimp only [memReadRx_state]
  split
  · exact herr _
  · next t ht =>
    split
    · exact herr _
    · refine ⟨⟨?_, ?_, fun _ => ?_⟩, hp⟩
      · simp [Memory.wf, hp, hw]; omega
      · show traceAgrees _ (scan (emit _ s).2.trace) = true
        have hf : (emit (.rxq i) s).1 ≠ .fail := by
          intro hf
          unfold memReadRx at ht
          simp [hf] at ht
        rw [emit_trace, scan_snoc, hsc]
        simp only [Option.bind_some, nextBatchState]
        rw [if_pos hji, if_neg hf]
        simp [traceAgrees, hp]
      · exact h.session (by simp [hp])

/-- Skipping slots that expect nothing keeps the invariant. -/
theorem skip_inv {s : State} (i : Nat) (h : Safe s) (hp : s.seq.phase = .committed) (he : s.seq.err = none)
    (hi : s.seq.fptr ≤ i) (hn : i ≤ s.seq.n) : Safe { s with seq := { s.seq with fptr := i } } := by
  obtain ⟨j, hj, hsc⟩ := h.scan_committed hp he
  have hw := h.buffer
  simp [Memory.wf, hp] at hw
  refine ⟨?_, ?_, fun _ => h.session (by simp [hp])⟩
  · simp [Memory.wf, hp, hw, hn]
  · show traceAgrees _ (scan s.trace) = true
    rw [hsc]
    simp [traceAgrees, hp, he]; omega

theorem seqFetch_inv {s : State} (h : Safe s) (hp : s.seq.phase = .committed) (he : s.seq.err = none)
    (hlt : s.seq.fptr < s.seq.n) : Safe (seqFetch s) ∧ (seqFetch s).seq.phase = .committed := by
  unfold seqFetch
  split
  · exact ⟨h, hp⟩
  · exact ⟨skip_inv (s.seq.fptr + 1) h hp he (by omega) (by omega), hp⟩
  · exact fetchSlot_inv _ _ h hp he (le_refl _) hlt

theorem seqEnd_inv {s : State} (h : Safe s) (hp : s.seq.phase ≠ .idle)
    (hc : s.seq.err ≠ none ∨ s.seq.phase = .committed) : Safe (seqEnd s).2 :=
  (inv_idle_iff rfl).2 ⟨rfl, h.scan_end hp hc _⟩

/-! ### The loops -/

/-- After the staging loop: safe, still staging, and either an error is pending or every slot is staged. -/
theorem stageAll_inv (k : Nat) {s : State} (h : Safe s) (hp : s.seq.phase = .staging)
    (hk : s.seq.n ≤ s.seq.ptr + k) :
    Safe (stageAll k s) ∧ (stageAll k s).seq.phase = .staging ∧
      ((stageAll k s).seq.err ≠ none ∨ (stageAll k s).seq.ptr = (stageAll k s).seq.n) := by
  have hle : ∀ {s : State}, Safe s → s.seq.phase = .staging → s.seq.ptr ≤ s.seq.n := by
    intro s h hp
    have hw := h.buffer
    simp [Memory.wf, hp] at hw
    exact hw.1.2
  induction k generalizing s with
  | zero => exact ⟨h, hp, .inr (by have := hle h hp; simp only [stageAll]; omega)⟩
  | succ k ih =>
    unfold stageAll
    split
    · next hc =>
      obtain ⟨h1, h2⟩ := seqStage_inv h hp hc.1 hc.2
      obtain ⟨t, ht, ⟨hf, heq⟩ | ⟨hf, heq⟩⟩ := seqStage_cases h hp hc.2
      · have hq := recordErr_seq (.transportError (.stage s.seq.ptr t)) (emit (.stage s.seq.ptr t) s).2 hc.1
        have : stageAll k (seqStage s) = seqStage s := by
          cases k with
          | zero => rfl
          | succ k => unfold stageAll; rw [if_neg]; rw [heq, hq]; simp
        rw [this]
        exact ⟨h1, h2, .inl (by rw [heq, hq]; simp)⟩
      · exact ih h1 h2 (by rw [heq]; show s.seq.n ≤ s.seq.ptr + 1 + k; omega)
    · next hc =>
      refine ⟨h, hp, ?_⟩
      by_cases he : s.seq.err = none
      · right
        have := hle h hp
        have : ¬ s.seq.ptr < s.seq.n := fun hlt => hc ⟨he, hlt⟩
        omega
      · exact .inl he

theorem commitIfClean_inv {s : State} (h : Safe s) (hp : s.seq.phase = .staging)
    (hc : s.seq.err ≠ none ∨ s.seq.ptr = s.seq.n) :
    Safe (commitIfClean s) ∧ (commitIfClean s).seq.phase ≠ .idle ∧
      ((commitIfClean s).seq.err ≠ none ∨ (commitIfClean s).seq.phase = .committed) := by
  unfold commitIfClean
  split
  · next he => exact seqCommit_inv h hp he (hc.resolve_left (fun hn => hn he))
  · next he => exact ⟨h, by simp [hp], .inl he⟩

theorem fetchAll_inv (k : Nat) {s : State} (h : Safe s) (hp : s.seq.phase ≠ .idle)
    (hc : s.seq.err ≠ none ∨ s.seq.phase = .committed) :
    Safe (fetchAll k s) ∧ (fetchAll k s).seq.phase ≠ .idle ∧
      ((fetchAll k s).seq.err ≠ none ∨ (fetchAll k s).seq.phase = .committed) := by
  induction k generalizing s with
  | zero => exact ⟨h, hp, hc⟩
  | succ k ih =>
    unfold fetchAll
    split
    · next hn =>
      have hcm := hc.resolve_left (fun he => he hn.1)
      obtain ⟨h1, h2⟩ := seqFetch_inv h hcm hn.1 hn.2
      exact ih h1 (by simp [h2]) (.inr h2)
    · exact ⟨h, hp, hc⟩

/-- Steps 2 to 5 of an open, safe batch end between batches, safe. -/
theorem finishBatch_inv {s : State} (h : Safe s) (hp : s.seq.phase = .staging) (hn : s.seq.n ≤ s.seq.ptr + n) :
    Safe (finishBatch n s).2 := by
  obtain ⟨h1, h2, h3⟩ := stageAll_inv n h hp hn
  obtain ⟨h4, h5, h6⟩ := commitIfClean_inv h1 h2 h3
  obtain ⟨h7, h8, h9⟩ := fetchAll_inv n h4 h5 h6
  exact seqEnd_inv h7 h8 h9

/-- `RUN_BATCH` between batches with a claimed session: `CREATE` and `DEL` pair on every path (R158, R160). -/
theorem runBatch_inv (frames : List Int) (x : List Expect) {s : State} (h : Safe s) (hp : s.seq.phase = .idle)
    (hs : s.sess = .claimed) (hx : x.length = frames.length) : Safe (runBatch frames x s).2 := by
  unfold runBatch
  split
  · exact h
  · next tx htx =>
    have hlen : tx.length = frames.length := packFrames_length htx
    have hb := seqBegin_inv (s := seqLoad tx x s) (h.scan_idle hp) hs (seqLoad_lengths tx x s).1
      (by show x.length = tx.length; omega) (seqLoad_lengths tx x s).2 rfl
    unfold Act.andThen
    split
    · next u hu =>
      have hq := hb.2.1 hu
      refine finishBatch_inv hb.1 (by rw [hq]) ?_
      rw [hq]
      show tx.length ≤ 0 + tx.length
      omega
    · exact hb.1

end Sys2Proof.Machine
end

