-- ==== Sys2Proof/Laws/Batch.lean ====
section
/-! SUPPORT. A batch as straight-line code: `RUN_BATCH` written with the sequencer's loops (43_sequencer.md R151) is the
same action as its lines sent one after another between `CREATE` and `DEL` (R157,
    R160). Later proofs use this form and
never unfold the loops. -/

namespace Sys2Proof.Machine

open Sys2Proof.Safety

/-! ### The straight-line form -/

/-- One `RXQ` line with its check (R155). -/
def fetchOne (i : Nat) (x : Expect) : Act Code := fun s =>
  ((match (emit (.rxq i) s).1 with
    | .bytes t => (checkResponse s.params x (unpackBytes t)).map fun _ => unpackBytes t
    | _ => .error (.transportError (.rxq i))), (emit (.rxq i) s).2)

/-- The fetches of a batch from slot `i`. -/
def fetchRun : Nat → List Expect → Act (List (Option Code))
  | _, [] => Act.result (.ok [])
  | i, .none :: xs => Act.map (fetchRun (i + 1) xs) (none :: ·)
  | i, x :: xs => Act.andThen (fetchOne i x) fun c => Act.map (fetchRun (i + 1) xs) (some c :: ·)

/-- Stages, commit, fetches. -/
def batchBody (tx : List Triple) (xs : List Expect) : Act (List (Option Code)) :=
  Act.andThen (sendLines (stageLines 0 tx ++ [.pass])) fun _ => fetchRun 0 xs

/-- `DEL` after a body, whatever the body ended in (R156). -/
def closeBatch (f : Act (List (Option Code))) : Act (List (Option Code)) := fun s =>
  ((match (f s).1 with
    | .error e => .error e
    | .ok v => if (emit .del (f s).2).1 = .fail then .error (.transportError .del) else .ok v),
   { (emit .del (f s).2).2 with seq := Seq.idle })

/-! ### Actions that do not look at the sequencer -/

/-- The action neither reads nor writes the sequencer's working state. -/
def SeqBlind {α : Type} (f : Act α) : Prop :=
  ∀ s q, f { s with seq := q } = ((f s).1, { (f s).2 with seq := q })

theorem SeqBlind.seq {α : Type} {f : Act α} (h : SeqBlind f) (s : State) : (f s).2.seq = s.seq := by
  have := congrArg (fun r => r.2.seq) (h s s.seq)
  exact this

theorem SeqBlind.result {α : Type} (r : Except Err α) : SeqBlind (Act.result r) := fun _ _ => rfl

theorem SeqBlind.map {α β : Type} {f : Act α} (hf : SeqBlind f) (g : α → β) : SeqBlind (Act.map f g) := fun s q => by
  unfold Act.map
  rw [hf s q]

theorem SeqBlind.andThen {α β : Type} {f : Act α} {g : α → Act β} (hf : SeqBlind f) (hg : ∀ a, SeqBlind (g a)) :
    SeqBlind (Act.andThen f g) := fun s q => by
  unfold Act.andThen
  rw [hf s q]
  cases (f s).1 with
  | error e => rfl
  | ok a => exact hg a _ q

theorem sendLine_blind (l : Line) : SeqBlind (sendLine l) := fun _ _ => rfl
theorem querySpeed_blind : SeqBlind querySpeed := fun _ _ => rfl
theorem fetchOne_blind (i : Nat) (x : Expect) : SeqBlind (fetchOne i x) := fun _ _ => rfl

theorem sendLines_blind (ls : List Line) : SeqBlind (sendLines ls) := by
  induction ls with
  | nil => exact SeqBlind.result _
  | cons l ls ih => exact (sendLine_blind l).andThen fun _ => ih

theorem fetchRun_blind (i : Nat) (xs : List Expect) : SeqBlind (fetchRun i xs) := by
  induction xs generalizing i with
  | nil => exact SeqBlind.result _
  | cons x xs ih =>
    cases x with
    | none => exact (ih _).map _
    | raw => exact (fetchOne_blind _ _).andThen fun _ => (ih _).map _
    | reg r => exact (fetchOne_blind _ _).andThen fun _ => (ih _).map _

theorem batchBody_blind (tx : List Triple) (xs : List Expect) : SeqBlind (batchBody tx xs) :=
  (sendLines_blind _).andThen fun _ => fetchRun_blind _ _

/-! ### The staging loop -/

/-- The pending error of an action's outcome. -/
def pending {α : Type} : Except Err α → Option Err
  | .ok _ => none
  | .error e => some e

theorem stageAll_pending (k : Nat) (s : State) {e : Err} (h : s.seq.err = some e) : stageAll k s = s := by
  cases k with
  | zero => rfl
  | succ k => unfold stageAll; rw [if_neg]; simp [h]

theorem fetchAll_pending (k : Nat) (s : State) {e : Err} (h : s.seq.err = some e) : fetchAll k s = s := by
  cases k with
  | zero => rfl
  | succ k => unfold fetchAll; rw [if_neg]; simp [h]

/-- The staging loop sends the stage lines of the slots not yet staged. -/
theorem stageAll_line (pre ts : List Triple) (s : State) (htx : s.seq.tx = pre ++ ts) (hp : s.seq.ptr = pre.length)
    (hn : s.seq.n = (pre ++ ts).length) (he : s.seq.err = none) :
    ∃ p, stageAll ts.length s = { (sendLines (stageLines pre.length ts) s).2 with
        seq := { s.seq with ptr := p, err := pending (sendLines (stageLines pre.length ts) s).1 } } ∧
      ((sendLines (stageLines pre.length ts) s).1 = .ok () → p = s.seq.n) := by
  induction ts generalizing pre s with
  | nil =>
    refine ⟨s.seq.ptr, ?_, fun _ => by simp [hp, hn]⟩
    show s = _
    simp only [stageLines, sendLines, result_apply, pending, ← he]
  | cons t ts ih =>
    have hg : s.seq.tx[s.seq.ptr]? = some t := by rw [htx, hp]; simp
    have hlt : s.seq.ptr < s.seq.n := by rw [hp, hn]; simp
    have hloop : stageAll (t :: ts).length s = stageAll ts.length (seqStage s) := by
      rw [List.length_cons, stageAll, if_pos ⟨he, hlt⟩]
    have hstage : seqStage s = if (emit (.stage s.seq.ptr t) s).1 = .fail
        then recordErr (.transportError (.stage s.seq.ptr t)) (emit (.stage s.seq.ptr t) s).2
        else { (emit (.stage s.seq.ptr t) s).2 with seq := { s.seq with ptr := s.seq.ptr + 1 } } := by
      unfold seqStage
      rw [hg]
      simp only [memWriteTx_self hg]
      rfl
    rw [hloop, hstage, hp]
    by_cases hf : (emit (.stage pre.length t) s).1 = .fail
    · rw [if_pos hf]
      have hs : sendLines (stageLines pre.length (t :: ts)) s
          = (.error (.transportError (.stage pre.length t)), (emit (.stage pre.length t) s).2) := by
        show Act.andThen (sendLine _) _ s = _
        exact andThen_error (by show (if _ then _ else _) = _; rw [if_pos hf])
      have hq := recordErr_seq (.transportError (.stage pre.length t)) (emit (.stage pre.length t) s).2 he
      rw [stageAll_pending _ _ (e := .transportError (.stage pre.length t)) (by rw [hq]), hs]
      refine ⟨s.seq.ptr, ?_, fun h => nomatch h⟩
      unfold recordErr
      rw [show (emit (.stage pre.length t) s).2.seq.err = none from he]
      rfl
    · rw [if_neg hf]
      have hs : sendLines (stageLines pre.length (t :: ts)) s
          = sendLines (stageLines (pre.length + 1) ts) (emit (.stage pre.length t) s).2 := by
        show Act.andThen (sendLine _) _ s = _
        exact andThen_ok (f := sendLine _) (by show (if _ then _ else _) = _; rw [if_neg hf])
      obtain ⟨p, h1, h2⟩ := ih (pre ++ [t])
        { (emit (.stage pre.length t) s).2 with seq := { s.seq with ptr := pre.length + 1 } }
        (by simp [htx]) (by simp) (by simp [hn]) he
      have hlen : (pre ++ [t]).length = pre.length + 1 := by simp
      rw [hlen] at h1 h2
      rw [sendLines_blind] at h1 h2
      rw [hs]
      exact ⟨p, h1, h2⟩

/-! ### The fetching loop -/

/-- `SEQ_FETCH` of a slot that expects something, as one line with its check. -/
theorem fetchSlot_line (i : Nat) (x : Expect) (s : State) (he : s.seq.err = none) :
    fetchSlot i x s = { (fetchOne i x s).2 with seq := match (fetchOne i x s).1 with
      | .ok c => { s.seq with result := s.seq.result.set i (some c), fptr := i + 1 }
      | .error e => { s.seq with err := some e } } := by
  have herr : ∀ e, recordErr e (emit (.rxq i) s).2 =
      { (emit (.rxq i) s).2 with seq := { s.seq with err := some e } } := by
    intro e
    unfold recordErr
    rw [show (emit (.rxq i) s).2.seq.err = none from he]
    rfl
  unfold fetchSlot fetchOne memReadRx
  dsimp only
  cases (emit (.rxq i) s).1 with
  | bytes t =>
    dsimp only
    cases checkResponse s.params x (unpackBytes t) with
    | error e => exact herr e
    | ok u => rfl
  | ok => exact herr _
  | int k => exact herr _
  | fail => exact herr _

/-- The fetching loop is the run of the fetches of the slots not yet considered. -/
theorem fetchAll_line (xs : List Expect) (pre : List Expect) (done : List (Option Code)) (s : State)
    (hx : s.seq.expect = pre ++ xs) (hd : done.length = pre.length) (hp : s.seq.fptr = pre.length)
    (hn : s.seq.n = (pre ++ xs).length) (hr : s.seq.result = done ++ List.replicate xs.length none)
    (he : s.seq.err = none) :
    ∃ q, fetchAll xs.length s = { (fetchRun pre.length xs s).2 with seq := q } ∧
      q.err = pending (fetchRun pre.length xs s).1 ∧
      ∀ v, (fetchRun pre.length xs s).1 = .ok v → q.result = done ++ v := by
  induction xs generalizing pre done s with
  | nil =>
    refine ⟨s.seq, rfl, he, fun v hv => ?_⟩
    injection hv with hv
    rw [hr, ← hv]
    rfl
  | cons x xs ih =>
    have hg : s.seq.expect[s.seq.fptr]? = some x := by rw [hx, hp]; simp
    have hlt : s.seq.fptr < s.seq.n := by rw [hp, hn]; simp
    have hloop : fetchAll (x :: xs).length s = fetchAll xs.length (seqFetch s) := by
      rw [List.length_cons, fetchAll, if_pos ⟨he, hlt⟩]
    rw [hloop]
    have hlen : (pre ++ [x]).length = pre.length + 1 := by simp
    by_cases hxn : x = .none
    · subst hxn
      have hs : seqFetch s = { s with seq := { s.seq with fptr := s.seq.fptr + 1 } } := by
        unfold seqFetch; rw [hg]
      rw [hs]
      obtain ⟨q, h1, h2, h3⟩ := ih (pre ++ [.none]) (done ++ [none])
        { s with seq := { s.seq with fptr := s.seq.fptr + 1 } }
        (by simp [hx]) (by simp [hd]) (by simp [hp]) (by simp [hn])
        (by simp [hr, List.replicate_succ]) he
      rw [hlen] at h1 h2 h3
      rw [fetchRun_blind] at h1 h2 h3
      refine ⟨q, h1, ?_, ?_⟩
      · rw [h2]
        show pending _ = pending (Except.map _ _)
        cases (fetchRun (pre.length + 1) xs s).1 <;> rfl
      · intro v hv
        change Except.map _ (fetchRun (pre.length + 1) xs s).1 = _ at hv
        cases hw : (fetchRun (pre.length + 1) xs s).1 with
        | error e => rw [hw] at hv; cases hv
        | ok w =>
          rw [hw] at hv
          injection hv with hv
          rw [h3 w hw, ← hv]
          simp
    · have hs : seqFetch s = fetchSlot s.seq.fptr x s := by
        unfold seqFetch; rw [hg]
        cases x with
        | none => exact absurd rfl hxn
        | raw => rfl
        | reg r => rfl
      have hrun : fetchRun pre.length (x :: xs)
          = Act.andThen (fetchOne pre.length x) fun c => Act.map (fetchRun (pre.length + 1) xs) (some c :: ·) := by
        cases x with
        | none => exact absurd rfl hxn
        | raw => rfl
        | reg r => rfl
      rw [hs, hp, fetchSlot_line _ _ _ he, hrun]
      cases hc : (fetchOne pre.length x s).1 with
      | error e =>
        rw [fetchAll_pending _ _ (e := e) rfl, andThen_error hc]
        exact ⟨_, rfl, rfl, fun v hv => nomatch hv⟩
      | ok c =>
        have hset : s.seq.result.set pre.length (some c) = (done ++ [some c]) ++ List.replicate xs.length none := by
          rw [hr, List.length_cons, List.replicate_succ, ← hd]
          simp
        obtain ⟨q, h1, h2, h3⟩ := ih (pre ++ [x]) (done ++ [some c])
          { (fetchOne pre.length x s).2 with
            seq := { s.seq with result := s.seq.result.set pre.length (some c), fptr := pre.length + 1 } }
          (by simp [hx]) (by simp [hd]) (by simp) (by simp [hn]) hset he
        rw [hlen] at h1 h2 h3
        rw [fetchRun_blind] at h1 h2 h3
        rw [andThen_ok hc]
        refine ⟨q, h1, ?_, ?_⟩
        · rw [h2]
          show pending _ = pending (Except.map _ _)
          cases (fetchRun (pre.length + 1) xs (fetchOne pre.length x s).2).1 <;> rfl
        · intro v hv
          change Except.map _ (fetchRun (pre.length + 1) xs (fetchOne pre.length x s).2).1 = _ at hv
          cases hw : (fetchRun (pre.length + 1) xs (fetchOne pre.length x s).2).1 with
          | error e => rw [hw] at hv; cases hv
          | ok w =>
            rw [hw] at hv
            injection hv with hv
            rw [h3 w hw, ← hv]
            simp

/-! ### The whole batch -/

theorem sendLines_append (ls ms : List Line) (s : State) :
    sendLines (ls ++ ms) s = Act.andThen (sendLines ls) (fun _ => sendLines ms) s := by
  induction ls generalizing s with
  | nil => rfl
  | cons l ls ih =>
    show Act.andThen (sendLine l) (fun _ => sendLines (ls ++ ms)) s
      = Act.andThen (Act.andThen (sendLine l) fun _ => sendLines ls) (fun _ => sendLines ms) s
    cases h : (sendLine l s).1 with
    | error e => rw [andThen_error h, andThen_error (by rw [andThen_error h]), andThen_error h]
    | ok u =>
      rw [andThen_ok h, ih]
      unfold Act.andThen
      rw [h]

/-- The working state right after `SEQ_BEGIN` of a loaded batch (R151, R152). -/
def openedSeq (tx : List Triple) (xs : List Expect) : Seq :=
  { phase := .staging
    n := tx.length
    tx := tx
    expect := xs
    result := List.replicate tx.length none
    ptr := 0
    fptr := 0
    err := none }

/-- Steps 2 to 5 of a freshly opened batch, as straight-line code. -/
theorem finishBatch_line (tx : List Triple) (xs : List Expect) (hx : xs.length = tx.length) (s : State)
    (hs : s.seq = openedSeq tx xs) :
    finishBatch tx.length s = closeBatch (batchBody tx xs) s := by
  obtain ⟨p, h1, h2⟩ := stageAll_line [] tx s (by rw [hs]; rfl) (by rw [hs]; rfl)
    (by rw [hs]; rfl) (by rw [hs]; rfl)
  simp only [List.length_nil] at h1 h2
  unfold finishBatch closeBatch batchBody
  rw [h1]
  cases ha : (sendLines (stageLines 0 tx) s).1 with
  | error e =>
    have hb : Act.andThen (sendLines (stageLines 0 tx ++ [.pass])) (fun _ => fetchRun 0 xs) s
        = (.error e, (sendLines (stageLines 0 tx) s).2) := by
      have : sendLines (stageLines 0 tx ++ [.pass]) s = (.error e, (sendLines (stageLines 0 tx) s).2) := by
        rw [sendLines_append, andThen_error ha]
      rw [andThen_error (by rw [this]), this]
    rw [hb]
    simp only [pending]
    unfold commitIfClean
    rw [if_neg (by simp), fetchAll_pending _ _ rfl]
    rfl
  | ok u =>
    have hn : p = tx.length := by rw [h2 ha, hs]; rfl
    generalize ht : (sendLines (stageLines 0 tx) s).2 = t
    have hsl : sendLines (stageLines 0 tx ++ [.pass]) s = sendLine .pass t := by
      rw [sendLines_append, andThen_ok ha, ht]
      show Act.andThen (sendLine .pass) (fun _ => Act.result (.ok ())) t = _
      cases hp : (sendLine .pass t).1 with
      | error e => rw [andThen_error hp, ← hp]
      | ok u => rw [andThen_ok hp]; show (Except.ok (), _) = _; rw [← hp]
    unfold commitIfClean
    simp only [pending, if_true]
    unfold seqCommit
    by_cases hf : (emit .pass t).1 = .fail
    · have hb : Act.andThen (sendLines (stageLines 0 tx ++ [.pass])) (fun _ => fetchRun 0 xs) s
          = (.error (.transportError .pass), (emit .pass t).2) := by
        have : (sendLine .pass t).1 = .error (.transportError .pass) := by
          show (if _ then _ else _) = _; rw [if_pos hf]
        rw [andThen_error (by rw [hsl, this]), hsl]
        rfl
      rw [hb]
      have hf' : (emit .pass { t with seq := { s.seq with ptr := p, err := none } }).1 = .fail := hf
      dsimp only
      rw [if_pos hf']
      unfold recordErr
      rw [show (emit .pass { t with seq := { s.seq with ptr := p, err := none } }).2.seq.err = none from rfl]
      rw [fetchAll_pending _ _ rfl]
      rfl
    · have hb : Act.andThen (sendLines (stageLines 0 tx ++ [.pass])) (fun _ => fetchRun 0 xs) s
          = fetchRun 0 xs (emit .pass t).2 := by
        have : (sendLine .pass t).1 = .ok () := by
          show (if _ then _ else _) = _; rw [if_neg hf]
        rw [andThen_ok (by rw [hsl, this]), hsl]
        rfl
      rw [hb]
      have hf' : (emit .pass { t with seq := { s.seq with ptr := p, err := none } }).1 ≠ .fail := hf
      dsimp only
      rw [if_neg hf', ← hx]
      obtain ⟨q, h3, h4, h5⟩ := fetchAll_line xs [] []
        { (emit .pass { t with seq := { s.seq with ptr := p, err := none } }).2 with
          seq := { s.seq with phase := .committed, ptr := s.seq.n, fptr := 0, err := none } }
        (by simp [hs, openedSeq]) rfl rfl (by simp [hs, hx, openedSeq]) (by simp [hs, hx, openedSeq]) rfl
      have hbl : fetchRun 0 xs { (emit .pass t).2 with
            seq := { s.seq with phase := .committed, ptr := s.seq.n, fptr := 0, err := none } } = _ :=
        fetchRun_blind 0 xs (emit .pass t).2 _
      simp only [List.length_nil] at h3 h4 h5
      change fetchAll xs.length { (emit .pass t).2 with
            seq := { s.seq with phase := .committed, ptr := s.seq.n, fptr := 0, err := none } }
          = { (fetchRun 0 xs { (emit .pass t).2 with
            seq := { s.seq with phase := .committed, ptr := s.seq.n, fptr := 0, err := none } }).2 with seq :=
                q } at h3
      change q.err = pending (fetchRun 0 xs { (emit .pass t).2 with
            seq := { s.seq with phase := .committed, ptr := s.seq.n, fptr := 0, err := none } }).1 at h4
      change ∀ v, (fetchRun 0 xs { (emit .pass t).2 with
            seq := { s.seq with phase := .committed, ptr := s.seq.n, fptr := 0, err := none } }).1 = _ → _ at h5
      rw [hbl] at h3 h4 h5
      show seqEnd (fetchAll xs.length { (emit .pass t).2 with
            seq := { s.seq with phase := .committed, ptr := s.seq.n, fptr := 0, err := none } }) = _
      rw [h3]
      unfold seqEnd
      dsimp only
      cases hv : (fetchRun 0 xs (emit .pass t).2).1 with
      | error e =>
        rw [hv] at h4
        rw [show q.err = some e from h4]
        rfl
      | ok v =>
        rw [hv] at h4
        rw [show q.err = none from h4, show q.result = v by rw [h5 v hv]; rfl]
        rfl

/-- `RUN_BATCH` after packing, as straight-line code: a failed `CREATE` ends it, otherwise the body and `DEL`. -/
theorem runBatch_line {frames : List Int} {tx : List Triple} (h : packFrames 0 frames = .ok tx) {xs : List Expect}
    (hx : xs.length = tx.length) (s : State) :
    runBatch frames xs s =
      if (emit (.create tx.length) s).1 = .fail then
        (.error (.transportError (.create tx.length)), { (emit (.create tx.length) s).2 with seq := Seq.idle })
      else closeBatch (batchBody tx xs) (emit (.create tx.length) s).2 := by
  unfold runBatch
  rw [h]
  dsimp only
  have hn : (seqLoad tx xs s).seq.n = tx.length := rfl
  by_cases hf : (emit (.create tx.length) s).1 = .fail
  · rw [if_pos hf]
    have hb : seqBegin (seqLoad tx xs s)
        = (.error (.transportError (.create tx.length)), { (emit (.create tx.length) s).2 with seq := Seq.idle })
            := by
      unfold seqBegin
      rw [hn]
      exact if_pos hf
    rw [andThen_error (by rw [hb]), hb]
  · rw [if_neg hf]
    generalize hq : openedSeq tx xs = q
    have hb : seqBegin (seqLoad tx xs s) = (.ok (), { (emit (.create tx.length) s).2 with seq := q }) := by
      unfold seqBegin
      rw [hn, ← hq]
      exact if_neg hf
    rw [andThen_ok (by rw [hb]), hb]
    dsimp only
    rw [finishBatch_line tx xs hx _ hq.symm]
    unfold closeBatch
    rw [batchBody_blind tx xs (emit (.create tx.length) s).2 q]
    rfl

end Sys2Proof.Machine
end

