-- ==== Sys2Proof/Laws/Replies.lean ====
section
/-! SUPPORT. Runs whose answers are named in the peer's input queue: single lines, lines in a row, and whole batches. -/

namespace Sys2Proof.Machine

open Sys2Proof.Safety

/-- The state after some lines: another environment, a longer trace. -/
def State.after (s : State) (e : Env) (evs : List Event) : State := { s with env := e, trace := s.trace ++ evs }

theorem State.after_after (s : State) (e f : Env) (a b : List Event) :
    (s.after e a).after f b = s.after f (a ++ b) := by simp [State.after]

@[simp] theorem State.after_env (s : State) (e : Env) (a : List Event) : (s.after e a).env = e := rfl
@[simp] theorem State.after_params (s : State) (e : Env) (a : List Event) : (s.after e a).params = s.params := rfl
@[simp] theorem State.after_seq (s : State) (e : Env) (a : List Event) : (s.after e a).seq = s.seq := rfl
@[simp] theorem State.after_sess (s : State) (e : Env) (a : List Event) : (s.after e a).sess = s.sess := rfl
@[simp] theorem State.after_defer (s : State) (e : Env) (a : List Event) : (s.after e a).defer = s.defer := rfl
@[simp] theorem State.after_trace (s : State) (e : Env) (a : List Event) : (s.after e a).trace = s.trace ++ a := rfl
@[simp] theorem State.after_inbox (s : State) (e : Env) (a : List Event) : (s.after e a).inbox = s.inbox := rfl
@[simp] theorem State.after_completion (s : State) (e : Env) (a : List Event) :
    (s.after e a).completion = s.completion := rfl
theorem State.after_nil (s : State) : s.after s.env [] = s := by simp [State.after]

theorem emit_after (l : Line) (s : State) :
    emit l s = ((answer s.params l s.env).1, s.after (answer s.params l s.env).2 [⟨l,
        (answer s.params l s.env).1⟩]) :=
  rfl

/-! ### Named replies -/

theorem emit_named (l : Line) {s : State} {r : Reply} {rs : List Reply} (h : s.env.replies = r :: rs)
    (hr : r ≠ .own) :
    ∃ e, LeavesReplies s rs e ∧ emit l s = (readReply l r, s.after e [⟨l, readReply l r⟩]) := by
  refine ⟨(answer s.params l s.env).2, ⟨by simp [h], by simp⟩, ?_⟩
  rw [emit_after, answer_named _ _ _ _ _ h hr]

/-- A line that asks for no value. -/
def isCommandLine : Line → Bool
  | .rxq _ | .speedq => false
  | _ => true

theorem readReply_ok {l : Line} (h : isCommandLine l = true) : readReply l .ok = .ok := by
  cases l <;> first | rfl | cases h

/-- What a command line can be answered with. -/
theorem answer_command {l : Line} (h : isCommandLine l = true) (P : Params) (e : Env) :
    (answer P l e).1 = .ok ∨ (answer P l e).1 = .fail := by
  have hf := answer_fits P l e
  cases l with
  | rxq i => cases h
  | speedq => cases h
  | _ => exact hf.symm

theorem sendLine_ok {l : Line} {s : State} {rs : List Reply} (hl : isCommandLine l = true)
    (h : s.env.replies = .ok :: rs) :
    ∃ e, LeavesReplies s rs e ∧ sendLine l s = (.ok (), s.after e [⟨l, .ok⟩]) := by
  obtain ⟨e, he, hm⟩ := emit_named l h (by decide)
  rw [readReply_ok hl] at hm
  exact ⟨e, he, by unfold sendLine; rw [hm]; rfl⟩

theorem sendLine_fail {l : Line} {s : State} {rs : List Reply} (h : s.env.replies = .fail :: rs) :
    ∃ e, LeavesReplies s rs e ∧ sendLine l s = (.error (.transportError l), s.after e [⟨l, .fail⟩]) := by
  obtain ⟨e, he, hm⟩ := emit_named l h (by decide)
  have hr : readReply l .fail = .fail := by cases l <;> rfl
  rw [hr] at hm
  exact ⟨e, he, by unfold sendLine; rw [hm]; rfl⟩

/-- Command lines that are all answered `ok`. -/
theorem sendLines_ok {ls : List Line} {s : State} {rs : List Reply} (hl : ∀ l ∈ ls, isCommandLine l = true)
    (h : s.env.replies = List.replicate ls.length .ok ++ rs) :
    ∃ e, LeavesReplies s rs e ∧ sendLines ls s = (.ok (), s.after e (ls.map fun l => ⟨l, .ok⟩)) := by
  induction ls generalizing s with
  | nil => exact ⟨s.env, ⟨by simpa using h, rfl⟩, by rw [List.map_nil, State.after_nil]; rfl⟩
  | cons l ls ih =>
    obtain ⟨e, he, hm⟩ := sendLine_ok (hl l (by simp)) (rs := List.replicate ls.length .ok ++ rs)
      (by rw [h]; simp [List.replicate_succ])
    obtain ⟨f, hf, hn⟩ := ih (s := s.after e [⟨l, .ok⟩]) (fun m hm => hl m (by simp [hm])) he.1
    refine ⟨f, ⟨hf.1, hf.2.trans he.2⟩, ?_⟩
    show Act.andThen (sendLine l) (fun _ => sendLines ls) s = _
    rw [andThen_ok (by rw [hm]), hm, hn, State.after_after]
    rfl

/-- Command lines of which the first ones are answered and the next is not. -/
theorem sendLines_fail {pre post : List Line} {l : Line} {s : State} {rs : List Reply}
    (hl : ∀ m ∈ pre, isCommandLine m = true) (h : s.env.replies = List.replicate pre.length .ok ++ .fail :: rs) :
    ∃ e, LeavesReplies s rs e ∧ sendLines (pre ++ l :: post) s
      = (.error (.transportError l), s.after e ((pre.map fun m => ⟨m, .ok⟩) ++ [⟨l, .fail⟩])) := by
  obtain ⟨e, he, hm⟩ := sendLines_ok hl h
  obtain ⟨f, hf, hn⟩ := sendLine_fail (l := l) (s := s.after e (pre.map fun m => ⟨m, .ok⟩)) he.1
  refine ⟨f, ⟨hf.1, hf.2.trans he.2⟩, ?_⟩
  rw [sendLines_append, andThen_ok (by rw [hm]), hm]
  show Act.andThen (sendLine l) (fun _ => sendLines post) _ = _
  rw [andThen_error (by rw [hn]), hn, State.after_after]

/-! ### Fetches -/

theorem fetchOne_text {i : Nat} (x : Expect) {s : State} {txt : List Char} {t : Triple} {rs : List Reply}
    (h : s.env.replies = .text txt :: rs) (ht : readTriple txt = some t) :
    ∃ e, LeavesReplies s rs e ∧ fetchOne i x s =
      ((checkResponse s.params x (unpackBytes t)).map fun _ => unpackBytes t, s.after e [⟨.rxq i, .bytes t⟩]) := by
  obtain ⟨e, he, hm⟩ := emit_named (.rxq i) h (by simp)
  have hr : readReply (.rxq i) (.text txt) = .bytes t := by simp [readReply, ht]
  rw [hr] at hm
  exact ⟨e, he, by unfold fetchOne; rw [hm]⟩

/-- The fetches of a batch whose responses all pass. -/
theorem fetchRun_texts {i : Nat} {xs : List Expect} {ts : List Triple} {texts : List (List Char)} {s : State}
    {rs : List Reply} (h : s.env.replies = texts.map .text ++ rs) (ht : texts.map readTriple = ts.map some)
    (hc : ChecksPass s.params xs ts) :
    ∃ e evs, LeavesReplies s rs e ∧ evs.map Event.line = fetchLines i xs ∧ (∀ ev ∈ evs, ev.answer ≠ .fail) ∧
      fetchRun i xs s = (.ok (placeResults xs ts), s.after e evs) := by
  induction xs generalizing i ts texts s with
  | nil =>
    have : ts = [] := hc
    subst this
    have : texts = [] := by simpa using ht
    subst this
    exact ⟨s.env, [], ⟨by simpa using h, rfl⟩, rfl, by simp, by rw [State.after_nil]; rfl⟩
  | cons x xs ih =>
    have step : ∀ (y : Expect), y ≠ .none → (∀ t, checkResponse s.params y (unpackBytes t) = .ok () →
        ∀ ts', ChecksPass s.params xs ts' → ∀ tx texts', texts = tx :: texts' → readTriple tx = some t →
          texts'.map readTriple = ts'.map some →
          ∃ e evs, LeavesReplies s rs e ∧ evs.map Event.line = .rxq i :: fetchLines (i + 1) xs ∧
            (∀ ev ∈ evs, ev.answer ≠ .fail) ∧
            Act.andThen (fetchOne i y) (fun c => Act.map (fetchRun (i + 1) xs) (some c :: ·)) s
              = (.ok (some (unpackBytes t) :: placeResults xs ts'), s.after e evs)) := by
      intro y _ t hy ts' hc' tx texts' htx ht1 ht2
      obtain ⟨e, he, hm⟩ := fetchOne_text (i := i) y (s := s) (rs := texts'.map .text ++ rs) (by rw [h, htx]; rfl) ht1
      rw [hy] at hm
      obtain ⟨f, evs, hf, h1, h2, h3⟩ := ih (i := i + 1) (s := s.after e [⟨.rxq i, .bytes t⟩]) he.1 ht2 hc'
      refine ⟨f, ⟨.rxq i, .bytes t⟩ :: evs, ⟨hf.1, hf.2.trans he.2⟩, by simp [h1], by simpa using h2, ?_⟩
      rw [andThen_ok (a := unpackBytes t) (by rw [hm]; rfl), hm]
      show Act.map (fetchRun (i + 1) xs) _ _ = _
      unfold Act.map
      rw [h3, State.after_after]
      rfl
    cases x with
    | none =>
      obtain ⟨e, evs, he, h1, h2, h3⟩ := ih (i := i + 1) h ht hc
      refine ⟨e, evs, he, h1, h2, ?_⟩
      show Act.map (fetchRun (i + 1) xs) _ s = _
      unfold Act.map
      rw [h3]
      simp [Except.map, placeResults]
    | raw =>
      cases ts with
      | nil => exact hc.elim
      | cons t ts' =>
        cases texts with
        | nil => cases ht
        | cons tx texts' =>
          rw [List.map_cons, List.map_cons, List.cons.injEq] at ht
          exact step .raw (by simp) t rfl ts' hc tx texts' rfl ht.1 ht.2
    | reg r =>
      cases ts with
      | nil => exact hc.elim
      | cons t ts' =>
        cases texts with
        | nil => cases ht
        | cons tx texts' =>
          rw [List.map_cons, List.map_cons, List.cons.injEq] at ht
          obtain ⟨⟨p, hp⟩, hc'⟩ := hc
          exact step (.reg r) (by simp) t (by simp [checkResponse, hp, Except.map]) ts' hc' tx texts' rfl ht.1 ht.2

/-! ### Whole batches -/

theorem stageLines_length (i : Nat) (tx : List Triple) : (stageLines i tx).length = tx.length := by
  induction tx generalizing i with
  | nil => rfl
  | cons t ts ih => simp [stageLines, ih]

theorem stageLines_command (i : Nat) (tx : List Triple) : ∀ l ∈ stageLines i tx, isCommandLine l = true := by
  induction tx generalizing i with
  | nil => simp [stageLines]
  | cons t ts ih =>
    intro l hl
    rcases List.mem_cons.1 hl with rfl | hl
    · rfl
    · exact ih _ l hl

theorem openLines_command (tx : List Triple) : ∀ l ∈ stageLines 0 tx ++ [.pass], isCommandLine l = true := by
  intro l hl
  rcases List.mem_append.1 hl with hl | hl
  · exact stageLines_command 0 tx l hl
  · rw [List.mem_singleton.1 hl]; rfl

/-- The events of a batch up to its commit, all answered. -/
def openedEvents (tx : List Triple) : List Event :=
  ⟨.create tx.length, .ok⟩ :: (stageLines 0 tx ++ [Line.pass]).map fun l => ⟨l, .ok⟩

/-- A batch whose lines up to `PASS` are answered reaches its fetches; when `DEL` is answered too, it ends in what its
fetches end in. -/
theorem runBatch_named {frames : List Int} {tx : List Triple} (hp : packFrames 0 frames = .ok tx) {xs : List Expect}
    (hx : xs.length = tx.length) {s : State} {mid : List Reply}
    (h : s.env.replies = List.replicate (tx.length + 2) .ok ++ mid) :
    ∃ e0, LeavesReplies s mid e0 ∧ ∀ r e evs rest,
      fetchRun 0 xs (s.after e0 (openedEvents tx)) = (r, (s.after e0 (openedEvents tx)).after e evs) →
      LeavesReplies s (.ok :: rest) e →
      ∃ f, LeavesReplies s rest f ∧ runBatch frames xs s
        = (r, { s.after f (openedEvents tx ++ evs ++ [⟨.del, .ok⟩]) with seq := Seq.idle }) := by
  obtain ⟨e1, he1, hm1⟩ := emit_named (.create tx.length) (s := s) (r := .ok)
    (rs := List.replicate (tx.length + 1) .ok ++ mid) (by rw [h]; simp [List.replicate_succ]) (by decide)
  obtain ⟨e2, he2, hm2⟩ := sendLines_ok (openLines_command tx) (s := s.after e1 [⟨.create tx.length, .ok⟩])
    (rs := mid) (by rw [State.after_env, he1.1]; simp [stageLines_length])
  refine ⟨e2, ⟨he2.1, he2.2.trans he1.2⟩, ?_⟩
  intro r e evs rest hr he
  have hb : batchBody tx xs (s.after e1 [⟨.create tx.length, .ok⟩]) = (r,
      (s.after e2 (openedEvents tx)).after e evs) := by
    unfold batchBody
    rw [andThen_ok (by rw [hm2]), hm2]
    dsimp only
    rw [State.after_after]
    exact hr
  obtain ⟨f, hf, hm3⟩ := emit_named .del (s := (s.after e2 (openedEvents tx)).after e evs) (r := .ok) (rs := rest)
    he.1 (by decide)
  refine ⟨f, ⟨hf.1, hf.2.trans he.2⟩, ?_⟩
  rw [runBatch_line hp hx, hm1, if_neg (by simp [readReply])]
  unfold closeBatch
  rw [show (s.after e1 [⟨.create tx.length, readReply (.create tx.length) .ok⟩])
    = s.after e1 [⟨.create tx.length, .ok⟩] from rfl, hb]
  dsimp only
  rw [hm3]
  have hd : readReply .del .ok = .ok := rfl
  rw [hd, State.after_after, State.after_after, ← List.append_assoc]
  cases r with
  | error x => rfl
  | ok v => rfl

/-- A batch that fetches nothing but its last slot, which expects a register: the batch ends in the check of the one
response (R124, R155). -/
theorem runBatch_readLast {frames : List Int} {tx : List Triple} (hp : packFrames 0 frames = .ok tx) {m : Nat}
    {r : Reg}
    (hx : m + 1 = tx.length) {s : State} {txt : List Char} {t : Triple} {rest : List Reply}
    (h : s.env.replies = goodReplies (m + 1) [txt] ++ rest) (ht : readTriple txt = some t) :
    ∃ f, LeavesReplies s rest f ∧ runBatch frames (List.replicate m .none ++ [.reg r]) s
      = ((decReadback s.params r (unpackBytes t)).map fun _ => List.replicate m none ++ [some (unpackBytes t)],
         { s.after f (openedEvents tx ++ [⟨.rxq m, .bytes t⟩] ++ [⟨.del, .ok⟩]) with seq := Seq.idle }) := by
  obtain ⟨e0, he0, hk⟩ := runBatch_named hp (xs := List.replicate m .none ++ [.reg r]) (by simpa using hx) (s := s)
    (mid := .text txt :: .ok :: rest) (by rw [h, ← hx]; simp [goodReplies])
  have key : ∀ (j i : Nat) (s' : State), s'.env.replies = .text txt :: .ok :: rest →
      ∃ e, LeavesReplies s' (.ok :: rest) e ∧ fetchRun i (List.replicate j .none ++ [.reg r]) s'
        = ((decReadback s'.params r (unpackBytes t)).map fun _ => List.replicate j none ++ [some (unpackBytes t)],
           s'.after e [⟨.rxq (i + j), .bytes t⟩]) := by
    intro j
    induction j with
    | zero =>
      intro i s' hs'
      obtain ⟨e, he, hm⟩ := fetchOne_text (i := i) (.reg r) hs' ht
      refine ⟨e, he, ?_⟩
      show Act.andThen (fetchOne i (.reg r)) _ s' = _
      cases hd : decReadback s'.params r (unpackBytes t) with
      | error x =>
        rw [andThen_error (e := x) (by rw [hm]; simp [checkResponse, hd, Except.map]), hm]
        rfl
      | ok p =>
        rw [andThen_ok (a := unpackBytes t) (by rw [hm]; simp [checkResponse, hd, Except.map]), hm]
        rfl
    | succ j ih =>
      intro i s' hs'
      obtain ⟨e, he, hm⟩ := ih (i + 1) s' hs'
      refine ⟨e, he, ?_⟩
      show Act.map (fetchRun (i + 1) (List.replicate j .none ++ [.reg r])) _ s' = _
      unfold Act.map
      rw [hm, show i + (j + 1) = i + 1 + j by omega]
      cases decReadback s'.params r (unpackBytes t) <;> rfl
  obtain ⟨e, he, hm⟩ := key m 0 (s.after e0 (openedEvents tx)) he0.1
  rw [Nat.zero_add] at hm
  exact hk _ _ _ rest hm ⟨he.1, he.2.trans he0.2⟩

/-- A batch that fetches nothing. -/
theorem runBatch_noFetch {frames : List Int} {tx : List Triple} (hp : packFrames 0 frames = .ok tx) {s : State}
    {rest : List Reply} (h : s.env.replies = goodReplies tx.length [] ++ rest) :
    ∃ f, LeavesReplies s rest f ∧ runBatch frames (List.replicate tx.length .none) s
      = (.ok (List.replicate tx.length none),
         { s.after f (openedEvents tx ++ [⟨.del, .ok⟩]) with seq := Seq.idle }) := by
  obtain ⟨e0, he0, hk⟩ := runBatch_named hp (xs := List.replicate tx.length .none) (by simp) (s := s)
    (mid := .ok :: rest) (by rw [h]; simp [goodReplies])
  have key : ∀ (j i : Nat) (s' : State), fetchRun i (List.replicate j .none) s' = (.ok (List.replicate j none),
      s') := by
    intro j
    induction j with
    | zero => intro i s'; rfl
    | succ j ih =>
      intro i s'
      show Act.map (fetchRun (i + 1) (List.replicate j .none)) _ s' = _
      unfold Act.map
      rw [ih]
      rfl
  have hn : (s.after e0 (openedEvents tx)).after e0 [] = s.after e0 (openedEvents tx) := State.after_nil _
  have := hk (.ok (List.replicate tx.length none)) e0 [] rest (by rw [key, hn]) he0
  simpa using this

end Sys2Proof.Machine
end

