-- ==== Sys2Proof/Laws/Exec.lean ====
section
/-! SUPPORT. Register access, flags, voltage and session commands (42_register_model.md R125 to R133, 44_facade.md R180
to R187): one lemma each for a run whose answers are named, and one for what the command leaves alone. -/

namespace Sys2Proof.Machine

open Sys2Proof.Safety

/-! ### Register access -/

theorem decReadback_ok {P : Params} {r : Reg} {c : Code} {p : Payload} (h : decReadback P r c = .ok p) :
    p = payloadOf c ∧ p &&& regMask P r = p ∧ selectOf c = selectCode r := by
  unfold decReadback at h
  split at h
  · cases h
  · split at h
    · cases h
    · injection h with h
      subst h
      refine ⟨rfl, ?_, ?_⟩ <;> simp_all

/-- The events of a two-frame batch that fetches nothing. -/
def writeEvents (c : Code) : List Event :=
  [⟨.create 2, .ok⟩, ⟨.stage 0 (packCode c), .ok⟩, ⟨.stage 1 ⟨0, 0, 0⟩, .ok⟩, ⟨.pass, .ok⟩, ⟨.del, .ok⟩]

/-- The events of a two-frame batch that fetches slot 1. -/
def readEvents (c : Code) (t : Triple) : List Event :=
  [⟨.create 2, .ok⟩, ⟨.stage 0 (packCode c), .ok⟩, ⟨.stage 1 ⟨0, 0, 0⟩, .ok⟩, ⟨.pass, .ok⟩, ⟨.rxq 1, .bytes t⟩,
   ⟨.del, .ok⟩]

theorem packFrames_pair (c d : Code) : packFrames 0 [frameOf c, frameOf d] = .ok [packCode c, packCode d] := by
  rw [packFrames_frameOf, packFrames_frameOf]; rfl

theorem packFrames_triple (c d e : Code) :
    packFrames 0 [frameOf c, frameOf d, frameOf e] = .ok [packCode c, packCode d, packCode e] := by
  rw [packFrames_frameOf, packFrames_frameOf, packFrames_frameOf]; rfl

/-- `REG_READ` answered line by line (R125). -/
theorem regRead_named (r : Reg) {s : State} {txt : List Char} {t : Triple} {rest : List Reply}
    (h : s.env.replies = goodReplies 2 [txt] ++ rest) (ht : readTriple txt = some t) :
    ∃ f, LeavesReplies s rest f ∧ regRead r s = (decReadback s.params r (unpackBytes t),
      { s.after f (readEvents (encRead r) t) with seq := Seq.idle }) := by
  obtain ⟨f, hf, hm⟩ := runBatch_readLast (packFrames_pair (encRead r) encNop) (m := 1) (r := r) rfl h ht
  refine ⟨f, hf, ?_⟩
  change runBatch _ [.none, .reg r] s = _ at hm
  unfold regRead Act.map
  rw [hm]
  cases hd : decReadback s.params r (unpackBytes t) with
  | error x => rfl
  | ok p => rw [(decReadback_ok hd).1]; rfl

/-- `REG_WRITE` of a legal payload, answered line by line (R126). -/
theorem regWrite_named {r : Reg} {p : Payload} {s : State} {rest : List Reply} (hp : p &&& regMask s.params r = p)
    (h : s.env.replies = goodReplies 2 [] ++ rest) :
    ∃ f, LeavesReplies s rest f ∧ regWrite r p s = (.ok (),
      { s.after f (writeEvents (writeCode r p)) with seq := Seq.idle }) := by
  obtain ⟨f, hf, hm⟩ := runBatch_noFetch (packFrames_pair (writeCode r p) encNop) h
  refine ⟨f, hf, ?_⟩
  change runBatch _ [.none, .none] s = _ at hm
  unfold regWrite encWrite
  rw [if_pos hp]
  unfold Act.map
  dsimp only
  rw [hm]
  rfl

/-- `REG_WRITE` of an illegal payload touches nothing (R122, R126). -/
theorem regWrite_illegal {r : Reg} {p : Payload} {s : State} (hp : p &&& regMask s.params r ≠ p) :
    regWrite r p s = (.error (.invalidPayload r (p &&& ~~~ regMask s.params r)), s) := by
  unfold regWrite encWrite
  rw [if_neg hp]

/-! ### Flags -/

theorem withFlag_legal (P : Params) (m : Payload) (b : Bool) (p : Payload) :
    withFlag P m b p &&& regMask P .control = withFlag P m b p := by
  unfold withFlag
  rw [BitVec.and_assoc, BitVec.and_self]

/-- A flag setter, answered line by line: two batches (R128, R130). -/
theorem setFlag_named (m : Payload) (b : Bool) {s : State} {txt : List Char} {t : Triple} {p : Payload}
    {rest : List Reply} (h : s.env.replies = goodReplies 2 [txt] ++ goodReplies 2 [] ++ rest)
    (ht : readTriple txt = some t) (hd : decReadback s.params .control (unpackBytes t) = .ok p) :
    ∃ f, LeavesReplies s rest f ∧ setFlag m b s = (.ok (),
      { s.after f (readEvents (encRead .control) t ++ writeEvents (writeCode .control (withFlag s.params m b p))) with
        seq := Seq.idle }) := by
  obtain ⟨f, hf, hm⟩ := regRead_named .control (rest := goodReplies 2 [] ++ rest)
    (by rw [h, List.append_assoc]) ht
  rw [hd] at hm
  obtain ⟨g, hg, hn⟩ := regWrite_named (r := .control) (p := withFlag s.params m b p)
    (s := { s.after f (readEvents (encRead .control) t) with seq := Seq.idle })
    (withFlag_legal s.params m b p) hf.1
  refine ⟨g, ⟨hg.1, hg.2.trans hf.2⟩, ?_⟩
  unfold setFlag
  rw [andThen_ok (by rw [hm]), hm]
  dsimp only
  rw [hn]
  have := State.after_after s f g (readEvents (encRead .control) t)
    (writeEvents (writeCode .control (withFlag s.params m b p)))
  simp only [State.after] at this ⊢
  simp_all

theorem getFlag_named (m : Payload) {s : State} {txt : List Char} {t : Triple} {rest : List Reply}
    (h : s.env.replies = goodReplies 2 [txt] ++ rest) (ht : readTriple txt = some t) :
    ∃ f, LeavesReplies s rest f ∧
        getFlag m s = ((decReadback s.params .control (unpackBytes t)).map fun p => hasBits p m,
      { s.after f (readEvents (encRead .control) t) with seq := Seq.idle }) := by
  obtain ⟨f, hf, hm⟩ := regRead_named .control h ht
  refine ⟨f, hf, ?_⟩
  unfold getFlag Act.map
  rw [hm]

/-! ### Voltage -/

/-- The events of a voltage write. -/
def voltageEvents (c : Payload) (defer : Bool) (t : Triple) : List Event :=
  [⟨.create 3, .ok⟩, ⟨.stage 0 (packCode (writeCode .data c)), .ok⟩, ⟨.stage 1 (packCode (encRead .data)), .ok⟩,
   ⟨.stage 2 (packCode (triggerFrame defer)), .ok⟩, ⟨.pass, .ok⟩, ⟨.rxq 2, .bytes t⟩, ⟨.del, .ok⟩]

/-- `SET_VOLTAGE` answered line by line (R181). -/
theorem setVoltage_named {v : Volt} {c : Payload} {s : State} {txt : List Char} {t : Triple} {rest : List Reply}
    (hv : v2c s.params v true = .ok c) (h : s.env.replies = goodReplies 3 [txt] ++ rest)
    (ht : readTriple txt = some t) :
    ∃ f, LeavesReplies s rest f ∧ setVoltage v s = (decReadback s.params .data (unpackBytes t),
      { s.after f (voltageEvents c s.defer t) with seq := Seq.idle }) := by
  obtain ⟨f, hf, hm⟩ := runBatch_readLast
    (packFrames_triple (writeCode .data c) (encRead .data) (triggerFrame s.defer)) (m := 2) (r := .data) rfl h ht
  refine ⟨f, hf, ?_⟩
  change runBatch _ [.none, .none, .reg .data] s = _ at hm
  unfold setVoltage
  rw [hv]
  unfold Act.map
  dsimp only
  rw [hm]
  cases hd : decReadback s.params .data (unpackBytes t) with
  | error x => rfl
  | ok p => rw [(decReadback_ok hd).1]; rfl

/-! ### Session -/

theorem setupLines_command (path : List Char) (k : Nat) : ∀ l ∈ setupLines path k, isCommandLine l = true := by
  simp [setupLines, isCommandLine]

/-- `SESSION_OPEN` answered line by line (R184). -/
theorem sessionOpen_named {s : State} {c : Payload} {rest : List Reply}
    (hv : v2c s.params s.params.clearDefaultV true = .ok c)
    (h : s.env.replies = List.replicate 7 .ok ++ goodReplies 2 [] ++ rest) :
    ∃ f, LeavesReplies s rest f ∧ sessionOpen s = (.ok (),
      { s.after f (((setupLines s.params.devPath s.params.spiSpeed).map fun l => ⟨l, .ok⟩)
          ++ writeEvents (writeCode .clear c)) with seq := Seq.idle, sess := .claimed }) := by
  obtain ⟨f, hf, hm⟩ := sendLines_ok (setupLines_command s.params.devPath s.params.spiSpeed) (s := s)
    (rs := goodReplies 2 [] ++ rest) (by rw [h, List.append_assoc]; rfl)
  obtain ⟨g, hg, hn⟩ := regWrite_named (r := .clear) (p := c)
    (s := { s.after f ((setupLines s.params.devPath s.params.spiSpeed).map fun l => ⟨l, .ok⟩) with sess := .claimed })
    (regMask_full _ c).2 hf.1
  refine ⟨g, ⟨hg.1, hg.2.trans hf.2⟩, ?_⟩
  unfold sessionOpen
  rw [hv]
  dsimp only
  rw [andThen_ok (by rw [hm]), hm]
  show Act.andThen (setSession .claimed) _ _ = _
  rw [andThen_ok rfl]
  dsimp only [setSession]
  rw [hn]
  have := State.after_after s f g ((setupLines s.params.devPath s.params.spiSpeed).map fun l => ⟨l, .ok⟩)
    (writeEvents (writeCode .clear c))
  simp only [State.after] at this ⊢
  simp_all

/-- `SESSION_OPEN` of which a setup line fails (R184, D27). -/
theorem sessionOpen_fail {s : State} {c : Payload} {pre post : List Line} {l : Line} {rest : List Reply}
    (hv : v2c s.params s.params.clearDefaultV true = .ok c)
    (hl : pre ++ l :: post = setupLines s.params.devPath s.params.spiSpeed)
    (h : s.env.replies = List.replicate pre.length .ok ++ .fail :: rest) :
    ∃ f, LeavesReplies s rest f ∧ sessionOpen s = (.error (.transportError l),
      s.after f ((pre.map fun m => ⟨m, .ok⟩) ++ [⟨l, .fail⟩])) := by
  have hc : ∀ m ∈ pre, isCommandLine m = true := fun m hm =>
    setupLines_command s.params.devPath s.params.spiSpeed m (by rw [← hl]; simp [hm])
  obtain ⟨f, hf, hm⟩ := sendLines_fail (post := post) (l := l) hc h
  refine ⟨f, hf, ?_⟩
  unfold sessionOpen
  rw [hv]
  dsimp only
  rw [← hl, andThen_error (by rw [hm]), hm]

/-- `SESSION_OPEN` after seven good setup lines is the CLEAR write under the claimed session (R184, D27). -/
theorem sessionOpen_claimed {s : State} {c : Payload} {rest : List Reply}
    (hv : v2c s.params s.params.clearDefaultV true = .ok c)
    (h : s.env.replies = List.replicate 7 .ok ++ rest) :
    ∃ f, LeavesReplies s rest f ∧ sessionOpen s = regWrite .clear c
      { s.after f ((setupLines s.params.devPath s.params.spiSpeed).map fun l => ⟨l, .ok⟩) with sess := .claimed } := by
  obtain ⟨f, hf, hm⟩ := sendLines_ok (setupLines_command s.params.devPath s.params.spiSpeed) (s := s) (rs := rest) h
  refine ⟨f, hf, ?_⟩
  unfold sessionOpen
  rw [hv]
  dsimp only
  rw [andThen_ok (by rw [hm]), hm]
  exact andThen_ok rfl

end Sys2Proof.Machine
end

