-- ==== Sys2Proof/Laws/Shape.lean ====
section
/-! SUPPORT. What a batch appends to the trace and what it ends in, for every peer (43_sequencer.md R157, R160;
60_exceptions.md R238, R239). -/

namespace Sys2Proof.Machine

open Sys2Proof.Safety

/-! ### Lines in a row -/

/-- How a run of command lines can go: all answered, or answered up to one that fails. -/
theorem sendLines_shape {ls : List Line} (hl : ∀ l ∈ ls, isCommandLine l = true) (s : State) :
    ∃ e evs, (sendLines ls s).2 = s.after e evs ∧ e.mode = s.env.mode ∧ evs.map Event.line <+: ls ∧
      ((sendLines ls s).1 = .ok () ∧ evs = ls.map (fun l => ⟨l, .ok⟩) ∨
        ∃ (pre : List Line) (l : Line), evs = pre.map (fun m => ⟨m, .ok⟩) ++ [⟨l, .fail⟩] ∧
          (sendLines ls s).1 = .error (.transportError l)) := by
  induction ls generalizing s with
  | nil => exact ⟨s.env, [], (State.after_nil s).symm, rfl, by simp, .inl ⟨rfl, rfl⟩⟩
  | cons l ls ih =>
    have hrun : sendLines (l :: ls) s = Act.andThen (sendLine l) (fun _ => sendLines ls) s := rfl
    have hm : (answer s.params l s.env).2.mode = s.env.mode := answer_mode _ _ _
    rcases answer_command (hl l (by simp)) s.params s.env with ha | ha
    · have h1 : sendLine l s = (.ok (), s.after (answer s.params l s.env).2 [⟨l, .ok⟩]) := by
        unfold sendLine; rw [emit_after, ha]; rfl
      obtain ⟨e, evs, h2, h3, h4, h5⟩ := ih (fun m hm => hl m (by simp [hm]))
        (s.after (answer s.params l s.env).2 [⟨l, .ok⟩])
      rw [hrun, andThen_ok (by rw [h1]), h1]
      refine ⟨e, ⟨l, .ok⟩ :: evs, by rw [h2, State.after_after]; rfl, h3.trans hm, ?_, ?_⟩
      · rw [List.map_cons]; exact List.cons_prefix_cons.2 ⟨rfl, h4⟩
      · rcases h5 with ⟨h5, rfl⟩ | ⟨pre, m, rfl, h6⟩
        · exact .inl ⟨h5, rfl⟩
        · exact .inr ⟨l :: pre, m, rfl, h6⟩
    · have h1 : sendLine l s = (.error (.transportError l), s.after (answer s.params l s.env).2 [⟨l, .fail⟩]) := by
        unfold sendLine; rw [emit_after, ha]; rfl
      rw [hrun, andThen_error (by rw [h1]), h1]
      exact ⟨_, _, rfl, hm, by simp, .inr ⟨[], l, rfl, rfl⟩⟩

/-! ### Fetches -/

theorem checkResponse_reg (P : Params) (r : Reg) (c : Code) :
    checkResponse P (.reg r) c = (decReadback P r c).map fun _ => () := rfl

/-- A fetch whose response passes the check of its slot; `i` is the slot of the first element of `xs`. -/
def PassedFetch (P : Params) (i : Nat) (xs : List Expect) (ev : Event) : Prop :=
  ∃ j u, ev = ⟨.rxq j, .bytes u⟩ ∧ i ≤ j ∧
    ∀ r, xs[j - i]? = some (.reg r) → ∃ p, decReadback P r (unpackBytes u) = .ok p

theorem PassedFetch.cons {P : Params} {i : Nat} {x : Expect} {xs : List Expect} {ev : Event}
    (h : PassedFetch P (i + 1) xs ev) : PassedFetch P i (x :: xs) ev := by
  obtain ⟨j, u, rfl, hj, hr⟩ := h
  refine ⟨j, u, rfl, by omega, fun r hx => hr r ?_⟩
  rwa [show j - i = (j - (i + 1)) + 1 by omega, List.getElem?_cons_succ] at hx

/-- How the fetches of a batch can go: all pass; or they pass up to one that fails, or up to one whose check fails. -/
def FetchEnds (P : Params) (i : Nat) (xs : List Expect) (evs : List Event) (r : Except Err (List (Option Code))) :
    Prop :=
  (∃ v, r = .ok v ∧ evs.map Event.line = fetchLines i xs ∧ ∀ ev ∈ evs, PassedFetch P i xs ev) ∨
  (∃ pre j, evs = pre ++ [⟨.rxq j, .fail⟩] ∧ (∀ ev ∈ pre, PassedFetch P i xs ev) ∧
    r = .error (.transportError (.rxq j))) ∨
  (∃ pre j u q x, evs = pre ++ [⟨.rxq j, .bytes u⟩] ∧ (∀ ev ∈ pre, PassedFetch P i xs ev) ∧ i ≤ j ∧
    xs[j - i]? = some (.reg q) ∧ decReadback P q (unpackBytes u) = .error x ∧ r = .error x)

theorem FetchEnds.skip {P : Params} {i : Nat} {x : Expect} {xs : List Expect} {evs : List Event}
    {r : Except Err (List (Option Code))} {pre : List Event} {f : List (Option Code) → List (Option Code)}
    (hl : pre.map Event.line ++ fetchLines (i + 1) xs = fetchLines i (x :: xs))
    (hpre : ∀ ev ∈ pre, PassedFetch P i (x :: xs) ev) (h : FetchEnds P (i + 1) xs evs r) :
    FetchEnds P i (x :: xs) (pre ++ evs) (r.map f) := by
  have hall : ∀ {es : List Event}, (∀ ev ∈ es, PassedFetch P (i + 1) xs ev) →
      ∀ ev ∈ pre ++ es, PassedFetch P i (x :: xs) ev := by
    intro es hes ev hev
    rcases List.mem_append.1 hev with hev | hev
    · exact hpre ev hev
    · exact (hes ev hev).cons
  rcases h with ⟨v, rfl, h1, h2⟩ | ⟨es, j, rfl, h1, rfl⟩ | ⟨es, j, u, q, y, rfl, h1, h2, h3, h4, rfl⟩
  · exact .inl ⟨f v, rfl, by rw [List.map_append, h1, hl], hall h2⟩
  · exact .inr (.inl ⟨pre ++ es, j, by rw [List.append_assoc], hall h1, rfl⟩)
  · refine .inr (.inr ⟨pre ++ es, j, u, q, y, by rw [List.append_assoc], hall h1, by omega, ?_, h4, rfl⟩)
    rwa [show j - i = (j - (i + 1)) + 1 by omega, List.getElem?_cons_succ]

theorem fetchRun_shape (i : Nat) (xs : List Expect) (s : State) :
    ∃ e evs, (fetchRun i xs s).2 = s.after e evs ∧ e.mode = s.env.mode ∧
      evs.map Event.line <+: fetchLines i xs ∧ FetchEnds s.params i xs evs (fetchRun i xs s).1 := by
  induction xs generalizing i s with
  | nil => exact ⟨s.env, [], (State.after_nil s).symm, rfl, by simp, .inl ⟨[], rfl, rfl, by simp⟩⟩
  | cons x xs ih =>
    by_cases hx : x = .none
    · subst hx
      obtain ⟨e, evs, h1, h2, h3, h4⟩ := ih (i + 1) s
      exact ⟨e, evs, h1, h2, h3, h4.skip (pre := []) rfl (by simp)⟩
    · have hl : fetchLines i (x :: xs) = .rxq i :: fetchLines (i + 1) xs := by
        cases x <;> first | rfl | exact absurd rfl hx
      have hrun : fetchRun i (x :: xs) s
          = Act.andThen (fetchOne i x) (fun c => Act.map (fetchRun (i + 1) xs) (some c :: ·)) s := by
        cases x <;> first | rfl | exact absurd rfl hx
      have hm : (answer s.params (.rxq i) s.env).2.mode = s.env.mode := answer_mode _ _ _
      have hone : fetchOne i x s = ((match (answer s.params (.rxq i) s.env).1 with
          | .bytes t => (checkResponse s.params x (unpackBytes t)).map fun _ => unpackBytes t
          | _ => .error (.transportError (.rxq i))),
          s.after (answer s.params (.rxq i) s.env).2 [⟨.rxq i, (answer s.params (.rxq i) s.env).1⟩]) := rfl
      rw [hrun, hl]
      rcases answer_fits s.params (.rxq i) s.env with ha | ⟨t, ha⟩
      · rw [ha] at hone
        rw [andThen_error (e := .transportError (.rxq i)) (by rw [hone]), hone]
        exact ⟨_, _, rfl, hm, by simp, .inr (.inl ⟨[], i, rfl, by simp, rfl⟩)⟩
      · rw [ha] at hone
        cases hc : checkResponse s.params x (unpackBytes t) with
        | error y =>
          rw [andThen_error (e := y) (by rw [hone]; dsimp only; rw [hc]; rfl), hone]
          refine ⟨_, _, rfl, hm, by simp, .inr (.inr ?_)⟩
          cases x with
          | none => exact absurd rfl hx
          | raw => cases hc
          | reg r =>
            refine ⟨[], i, t, r, y, rfl, by simp, le_refl _, by simp, ?_, rfl⟩
            rw [checkResponse_reg] at hc
            cases hd : decReadback s.params r (unpackBytes t) with
            | error z => rw [hd] at hc; injection hc with hc; rw [hc]
            | ok p => rw [hd] at hc; cases hc
        | ok u =>
          obtain ⟨e, evs, h1, h2, h3, h4⟩ := ih (i + 1)
            (s.after (answer s.params (.rxq i) s.env).2 [⟨.rxq i, .bytes t⟩])
          rw [andThen_ok (a := unpackBytes t) (by rw [hone]; dsimp only; rw [hc]; rfl), hone]
          refine ⟨e, ⟨.rxq i, .bytes t⟩ :: evs, by rw [map_snd, h1, State.after_after]; rfl, h2.trans hm, ?_, ?_⟩
          · rw [List.map_cons]; exact List.cons_prefix_cons.2 ⟨rfl, h3⟩
          · refine FetchEnds.skip (pre := [⟨.rxq i, .bytes t⟩]) (by rw [hl]; rfl) ?_ h4
            intro ev hev
            rw [List.mem_singleton.1 hev]
            refine ⟨i, t, rfl, le_refl _, fun r hr => ?_⟩
            simp only [Nat.sub_self, List.getElem?_cons_zero, Option.some.injEq] at hr
            subst hr
            rw [checkResponse_reg] at hc
            cases hd : decReadback s.params r (unpackBytes t) with
            | error z => rw [hd] at hc; cases hc
            | ok p => exact ⟨p, rfl⟩

/-! ### The body of a batch -/

/-- How the body of a batch can go: a line up to `PASS` fails, or the fetches decide. -/
theorem batchBody_shape (tx : List Triple) (xs : List Expect) (s : State) :
    ∃ e evs, (batchBody tx xs s).2 = s.after e evs ∧ e.mode = s.env.mode ∧
      evs.map Event.line <+: bodyLines tx xs ∧
      ((∃ (pre : List Line) (l : Line), evs = pre.map (fun m => ⟨m, .ok⟩) ++ [⟨l, .fail⟩] ∧
          (batchBody tx xs s).1 = .error (.transportError l)) ∨
        ∃ fs, evs = (stageLines 0 tx ++ [Line.pass]).map (fun l => ⟨l, .ok⟩) ++ fs ∧
          FetchEnds s.params 0 xs fs (batchBody tx xs s).1) := by
  have hb : bodyLines tx xs = (stageLines 0 tx ++ [Line.pass]) ++ fetchLines 0 xs := by simp [bodyLines]
  obtain ⟨e, evs, h1, h2, h3, h4⟩ := sendLines_shape (openLines_command tx) s
  unfold batchBody
  rw [hb]
  rcases h4 with ⟨h4, rfl⟩ | ⟨pre, l, rfl, h5⟩
  · obtain ⟨f, fs, g1, g2, g3, g4⟩ :=
      fetchRun_shape 0 xs (s.after e ((stageLines 0 tx ++ [Line.pass]).map fun l => ⟨l, .ok⟩))
    rw [andThen_ok h4, h1]
    refine ⟨f, _, by rw [g1, State.after_after], g2.trans h2, ?_, .inr ⟨fs, rfl, g4⟩⟩
    rw [List.map_append, List.map_map]
    simp only [Function.comp_def, List.map_id']
    exact (List.prefix_append_right_inj _).2 g3
  · rw [andThen_error h5]
    exact ⟨e, _, h1, h2, h3.trans (List.prefix_append _ _), .inl ⟨pre, l, rfl, rfl⟩⟩

/-- What `RUN_BATCH` appends to the trace and ends in, for every peer: a failed `CREATE`; or `CREATE`, a body, `DEL`. -/
theorem runBatch_shape {frames : List Int} {tx : List Triple} (hp : packFrames 0 frames = .ok tx) {xs : List Expect}
    (hx : xs.length = tx.length) (s : State) :
    (∃ e, e.mode = s.env.mode ∧ runBatch frames xs s = (.error (.transportError (.create tx.length)),
        { s.after e [⟨.create tx.length, .fail⟩] with seq := Seq.idle })) ∨
      ∃ e evs r a, e.mode = s.env.mode ∧ (a = .ok ∨ a = .fail) ∧ evs.map Event.line <+: bodyLines tx xs ∧
        ((∃ (pre : List Line) (l : Line), evs = pre.map (fun m => ⟨m, .ok⟩) ++ [⟨l, .fail⟩] ∧
            r = .error (.transportError l)) ∨
          ∃ fs, evs = (stageLines 0 tx ++ [Line.pass]).map (fun l => ⟨l, .ok⟩) ++ fs ∧ FetchEnds s.params 0 xs fs r) ∧
        runBatch frames xs s = ((match r with
            | .error x => .error x
            | .ok v => if a = .fail then .error (.transportError .del) else .ok v),
          { s.after e (⟨.create tx.length, .ok⟩ :: evs ++ [⟨.del, a⟩]) with seq := Seq.idle }) := by
  rw [runBatch_line hp hx, emit_after]
  have hm : (answer s.params (.create tx.length) s.env).2.mode = s.env.mode := answer_mode _ _ _
  rcases answer_command (l := .create tx.length) rfl s.params s.env with ha | ha
  · right
    rw [ha, if_neg (by simp)]
    generalize (answer s.params (.create tx.length) s.env).2 = e0 at hm
    obtain ⟨e, evs, h1, h2, h3, h4⟩ := batchBody_shape tx xs (s.after e0 [⟨.create tx.length, .ok⟩])
    unfold closeBatch
    rw [h1, emit_after]
    refine ⟨(answer s.params .del e).2, evs, (batchBody tx xs (s.after e0 [⟨.create tx.length, .ok⟩])).1,
      (answer s.params .del e).1, ?_, answer_command (l := .del) rfl s.params e, h3, h4, ?_⟩
    · rw [answer_mode]; exact h2.trans hm
    · rw [State.after_after, State.after_after]
      rfl
  · left
    rw [ha, if_pos rfl]
    exact ⟨_, hm, rfl⟩

end Sys2Proof.Machine
end

