-- ==== Sys2Proof/Laws/Frames.lean ====
section
/-! SUPPORT. What every host command leaves alone, that it ends between batches, and that it keeps the invariant: for
every peer (10_state.md R22, R23, R28, R40; 60_exceptions.md R240). -/

namespace Sys2Proof.Machine

open Sys2Proof.Safety

/-! ### Frames -/

theorem keeps_andThen {α β : Type} {f : Act α} {g : α → Act β} (hf : Keeps WithinSession f)
    (hg : ∀ a, Keeps WithinSession (g a)) : Keeps WithinSession (Act.andThen f g) :=
  Keeps.andThen (R := WithinSession) (fun _ _ _ h k => h.trans k) hf hg

theorem sendLines_within (ls : List Line) : Keeps WithinSession (sendLines ls) := by
  induction ls with
  | nil => exact fun s => WithinSession.refl s
  | cons l ls ih => exact keeps_andThen (sendLine_within l) fun _ => ih

theorem regRead_within (r : Reg) : Keeps WithinSession (regRead r) := (runBatch_within _ _).map _

theorem regWrite_within (r : Reg) (p : Payload) : Keeps WithinSession (regWrite r p) := fun s => by
  unfold regWrite
  split
  · exact WithinSession.refl s
  · exact ((runBatch_within _ _).map _) s

theorem setFlag_within (m : Payload) (b : Bool) : Keeps WithinSession (setFlag m b) := fun s =>
  keeps_andThen (regRead_within .control) (fun _ => regWrite_within .control _) s

theorem getFlag_within (m : Payload) : Keeps WithinSession (getFlag m) := (regRead_within .control).map _

theorem getVoltage_within : Keeps WithinSession getVoltage := fun s => ((regRead_within .data).map _) s

theorem setVoltage_within (v : Volt) : Keeps WithinSession (setVoltage v) := fun s => by
  unfold setVoltage
  split
  · exact WithinSession.refl s
  · exact ((runBatch_within _ _).map _) s

theorem setSpeed_within (k : Nat) : Keeps WithinSession (setSpeed k) := fun s => sendLines_within _ s

theorem sessionOpen_within : Keeps Within sessionOpen := fun s => by
  unfold sessionOpen
  split
  · exact Within.refl s
  · exact Keeps.andThen (R := Within) (fun _ _ _ h k => h.trans k) (fun s => (sendLines_within _ s).toWithin)
      (fun _ => Keeps.andThen (R := Within) (fun _ _ _ h k => h.trans k)
        (fun s => ⟨rfl, rfl, rfl, rfl, rfl, List.prefix_refl _⟩) fun _ s => (regWrite_within _ _ s).toWithin) s

theorem sessionClose_within : Keeps Within sessionClose := fun s =>
  let h := (emit_within .release s).toWithin
  ⟨h.params, h.inbox, h.defer, h.completion, h.mode, h.trace⟩

/-! ### Between batches -/

/-- The action, begun between batches, ends between batches. -/
def EndsIdle {α : Type} (f : Act α) : Prop := ∀ s, s.seq = Seq.idle → (f s).2.seq = Seq.idle

theorem EndsIdle.map {α β : Type} {f : Act α} (hf : EndsIdle f) (g : α → β) : EndsIdle (Act.map f g) := hf

theorem EndsIdle.result {α : Type} (r : Except Err α) : EndsIdle (Act.result r) := fun _ h => h

theorem EndsIdle.andThen {α β : Type} {f : Act α} {g : α → Act β} (hf : EndsIdle f) (hg : ∀ a, EndsIdle (g a)) :
    EndsIdle (Act.andThen f g) := fun s h => by
  unfold Act.andThen
  split
  · exact hg _ _ (hf s h)
  · exact hf s h

theorem SeqBlind.endsIdle {α : Type} {f : Act α} (hf : SeqBlind f) : EndsIdle f := fun s h => (hf.seq s).trans h

theorem runBatch_endsIdle (frames : List Int) (xs : List Expect) : EndsIdle (runBatch frames xs) := fun s h => by
  rcases runBatch_seq frames xs s with h' | h'
  · exact h'
  · rw [h']; exact h

theorem regRead_endsIdle (r : Reg) : EndsIdle (regRead r) := (runBatch_endsIdle _ _).map _

theorem regWrite_endsIdle (r : Reg) (p : Payload) : EndsIdle (regWrite r p) := fun s h => by
  unfold regWrite
  split
  · exact h
  · exact ((runBatch_endsIdle _ _).map _) s h

theorem setFlag_endsIdle (m : Payload) (b : Bool) : EndsIdle (setFlag m b) := fun s h =>
  (regRead_endsIdle .control).andThen (fun _ => regWrite_endsIdle .control _) s h

theorem getFlag_endsIdle (m : Payload) : EndsIdle (getFlag m) := (regRead_endsIdle .control).map _

theorem getVoltage_endsIdle : EndsIdle getVoltage := fun s h => (regRead_endsIdle .data) s h

theorem setVoltage_endsIdle (v : Volt) : EndsIdle (setVoltage v) := fun s h => by
  unfold setVoltage
  split
  · exact h
  · exact ((runBatch_endsIdle _ _).map _) s h

theorem setSpeed_endsIdle (k : Nat) : EndsIdle (setSpeed k) := fun s h => (sendLines_blind _).endsIdle s h

theorem sessionOpen_endsIdle : EndsIdle sessionOpen := fun s h => by
  unfold sessionOpen
  split
  · exact h
  · exact ((sendLines_blind _).endsIdle.andThen fun _ =>
      EndsIdle.andThen (f := setSession .claimed) (fun _ h => h) fun _ => regWrite_endsIdle _ _) s h

theorem sessionClose_endsIdle : EndsIdle sessionClose := fun _ h => h

/-! ### The invariant -/

/-- A line that stands outside the batch protocol: setup, release, speed query. -/
def isLinkLine : Line → Bool
  | .create _ | .stage _ _ | .pass | .rxq _ | .del => false
  | _ => true

theorem Bracketed.link {l : Line} (hl : isLinkLine l = true) {t : List Event} (h : Bracketed t) (a : Answer) :
    Bracketed (t ++ [⟨l, a⟩]) := by
  unfold Bracketed at h ⊢
  rw [scan_snoc, h]
  cases l <;> first | rfl | cases hl

/-- The action keeps the invariant when it begins between batches; with `true`, only under a session. -/
def KeepsInv {α : Type} (needs : Bool) (f : Act α) : Prop :=
  ∀ s, Safe s → s.seq.phase = .idle → (needs = true → s.sess = .claimed) →
    Safe (f s).2 ∧ (f s).2.seq.phase = .idle ∧ (needs = true → (f s).2.sess = .claimed)

theorem KeepsInv.map {α β : Type} {n : Bool} {f : Act α} (hf : KeepsInv n f) (g : α → β) :
    KeepsInv n (Act.map f g) := hf

theorem KeepsInv.result {α : Type} (n : Bool) (r : Except Err α) : KeepsInv n (Act.result r) :=
  fun _ h hp hs => ⟨h, hp, hs⟩

theorem KeepsInv.andThen {α β : Type} {n : Bool} {f : Act α} {g : α → Act β} (hf : KeepsInv n f)
    (hg : ∀ a, KeepsInv n (g a)) : KeepsInv n (Act.andThen f g) := fun s h hp hs => by
  obtain ⟨h1, h2, h3⟩ := hf s h hp hs
  unfold Act.andThen
  split
  · exact hg _ _ h1 h2 h3
  · exact ⟨h1, h2, h3⟩

theorem sendLine_keepsInv (n : Bool) {l : Line} (hl : isLinkLine l = true) : KeepsInv n (sendLine l) :=
  fun s h hp hs => ⟨(inv_idle_iff (s := (sendLine l s).2) hp).2 ⟨h.idle_seq hp,
      Bracketed.link hl (h.scan_idle hp) _⟩, hp, hs⟩

theorem querySpeed_keepsInv (n : Bool) : KeepsInv n querySpeed :=
  fun s h hp hs => ⟨(inv_idle_iff (s := (querySpeed s).2) hp).2
    ⟨h.idle_seq hp, Bracketed.link (l := .speedq) rfl (h.scan_idle hp) _⟩, hp, hs⟩

theorem sendLines_keepsInv (n : Bool) {ls : List Line} (hl : ∀ l ∈ ls, isLinkLine l = true) :
    KeepsInv n (sendLines ls) := by
  induction ls with
  | nil => exact KeepsInv.result n _
  | cons l ls ih =>
    exact (sendLine_keepsInv n (hl l (by simp))).andThen fun _ => ih fun m hm => hl m (by simp [hm])

theorem runBatch_keepsInv {frames : List Int} {xs : List Expect} (hx : xs.length = frames.length) :
    KeepsInv true (runBatch frames xs) := fun s h hp hs =>
  ⟨runBatch_inv frames xs h hp (hs rfl) hx, runBatch_phase frames xs s hp,
   fun _ => ((runBatch_within frames xs s).sess).trans (hs rfl)⟩

theorem regRead_keepsInv (r : Reg) : KeepsInv true (regRead r) := by
  unfold regRead
  exact (runBatch_keepsInv (Eq.refl 2)).map _

theorem regWrite_keepsInv (r : Reg) (p : Payload) : KeepsInv true (regWrite r p) := fun s h hp hs => by
  unfold regWrite
  split
  · exact ⟨h, hp, hs⟩
  · exact ((runBatch_keepsInv (Eq.refl 2)).map _) s h hp hs

theorem setFlag_keepsInv (m : Payload) (b : Bool) : KeepsInv true (setFlag m b) := fun s h hp hs =>
  (regRead_keepsInv .control).andThen (fun _ => regWrite_keepsInv .control _) s h hp hs

theorem getFlag_keepsInv (m : Payload) : KeepsInv true (getFlag m) := (regRead_keepsInv .control).map _

theorem getVoltage_keepsInv : KeepsInv true getVoltage := fun s h hp hs => by
  unfold getVoltage
  exact ((regRead_keepsInv .data).map _) s h hp hs

theorem setVoltage_keepsInv (v : Volt) : KeepsInv true (setVoltage v) := fun s h hp hs => by
  unfold setVoltage
  split
  · exact ⟨h, hp, hs⟩
  · exact ((runBatch_keepsInv (Eq.refl 3)).map _) s h hp hs

theorem setupLines_link (path : List Char) (k : Nat) : ∀ l ∈ setupLines path k, isLinkLine l = true := by
  simp [setupLines, isLinkLine]

theorem setSpeed_keepsInv (k : Nat) : KeepsInv true (setSpeed k) := fun s h hp hs =>
  sendLines_keepsInv true (setupLines_link s.params.devPath k) s h hp hs

/-- Between batches the session may change. -/
theorem inv_setSession {s : State} (h : Safe s) (hp : s.seq.phase = .idle) (v : Session) : Safe { s with sess :=
    v } :=
  ⟨h.buffer, h.trace, fun hn => absurd hp hn⟩

theorem sessionOpen_keepsInv : KeepsInv false sessionOpen := fun s h hp hs => by
  unfold sessionOpen
  split
  · exact ⟨h, hp, hs⟩
  · next c _ =>
    obtain ⟨h1, h2, -⟩ := sendLines_keepsInv false (setupLines_link s.params.devPath s.params.spiSpeed) s h hp hs
    unfold Act.andThen
    split
    · obtain ⟨h3, h4, -⟩ := regWrite_keepsInv .clear c _ (inv_setSession h1 h2 .claimed) h2 (fun _ => rfl)
      exact ⟨h3, h4, fun hn => nomatch hn⟩
    · exact ⟨h1, h2, fun hn => nomatch hn⟩

theorem sessionClose_keepsInv : KeepsInv false sessionClose := fun s h hp hs => by
  obtain ⟨h1, h2, -⟩ := sendLine_keepsInv false (l := .release) rfl s h hp hs
  exact ⟨inv_setSession h1 h2 .closed, h2, fun hn => nomatch hn⟩

/-- The completion, the environment and the waiting packets are no part of the invariant. -/
theorem inv_congr {s t : State} (h : Safe s) (hq : t.seq = s.seq) (ht : t.trace = s.trace) (hs : t.sess = s.sess) :
    Safe t := ⟨by rw [hq]; exact h.buffer, by rw [hq, ht]; exact h.trace, by rw [hq, hs]; exact h.session⟩

theorem inv_runAct {n : Bool} {f : Act Value} (hf : KeepsInv n f) {s : State} (h : Safe s) (hp : s.seq.phase = .idle)
    (hs : n = true → s.sess = .claimed) : Safe (runAct f s) :=
  inv_congr (hf s h hp hs).1 (by simp) (by simp) (by simp)

theorem inv_hostCommand {f : Act Value} (hf : KeepsInv false f) {s t : State} (h : Safe s)
    (ht : hostCommand f s = .next t) : Safe t := by
  obtain ⟨hp, rfl⟩ := hostCommand_next ht
  exact inv_runAct hf h hp (fun hn => nomatch hn)

theorem inv_ioCommand {f : Act Value} (hf : KeepsInv true f) {s t : State} (h : Safe s)
    (ht : ioCommand f s = .next t) : Safe t := by
  obtain ⟨hp, hs, rfl⟩ := ioCommand_next ht
  exact inv_runAct hf h hp (fun _ => hs)

end Sys2Proof.Machine
end

