-- ==== Sys2Proof/Laws/Errors.lean ====
section
/-! SUPPORT. Validation errors: which actions can end in one, and that such an action has touched nothing
(60_exceptions.md R230 to R232, R236). -/

namespace Sys2Proof.Machine

open Sys2Proof.Safety

/-- A validation error of the action leaves the state as it was (R230, R236 a). -/
def CleanErr {α : Type} (f : Act α) : Prop := ∀ s x, (f s).1 = .error x → isValidationError x = true → (f s).2 = s

/-- What `DEC_READBACK` raises is no validation error (R233). -/
theorem decReadback_noVal {P r c x} (h : decReadback P r c = .error x) : isValidationError x = false := by
  unfold decReadback at h
  split at h
  · injection h with h; subst h; rfl
  · split at h
    · injection h with h; subst h; rfl
    · cases h

/-- A batch that ends in a validation error has emitted nothing (R151, R231). -/
theorem runBatch_clean (frames xs) (hx : xs.length = frames.length) : CleanErr (runBatch frames xs) := by
  intro s x h hv
  cases hp : packFrames 0 frames with
  | error e => unfold runBatch; rw [hp]
  | ok tx =>
    exfalso
    have hlen := packFrames_length hp
    rcases runBatch_shape hp (xs := xs) (by omega) s with ⟨e, hm, hr⟩ | ⟨e, evs, r, a', hm, ha, h1, h2, hr⟩
    · rw [hr] at h; injection h with h; subst h; cases hv
    · rw [hr] at h
      cases r with
      | ok v => dsimp only at h; split at h <;> cases h; cases hv
      | error y =>
        injection h with h
        subst h
        rcases h2 with ⟨_, _, _, h⟩ | ⟨fs, _, h3⟩
        · injection h with h; subst h; cases hv
        · rcases h3 with ⟨v, h, _⟩ | ⟨_, _, _, _, h⟩ | ⟨_, _, _, _, _, _, _, _, _, hx, h⟩
          · cases h
          · injection h with h; subst h; cases hv
          · injection h with h; subst h; rw [decReadback_noVal hx] at hv; cases hv

/-- A batch whose frames pack ends in no validation error. -/
theorem runBatch_noVal {frames xs tx} (hp : packFrames 0 frames = .ok tx) (hx : xs.length = frames.length)
    (s : State) {x} (h : (runBatch frames xs s).1 = .error x) : isValidationError x = false := by
  by_contra hv
  have hv : isValidationError x = true := by simpa using hv
  have hlen := packFrames_length hp
  rcases runBatch_shape hp (xs := xs) (by omega) s with ⟨e, hm, hr⟩ | ⟨e, evs, r, a', hm, ha, h1, h2, hr⟩
  · rw [hr] at h; injection h with h; subst h; cases hv
  · have h2' := runBatch_clean frames xs hx s x h hv
    have := congrArg (fun s => s.trace.length) h2'
    simp [hr] at this

theorem map_clean {α β : Type} {f : Act α} (hf : CleanErr f) (g : α → β) : CleanErr (Act.map f g) := by
  intro s x h hv
  rw [map_fst] at h
  cases h' : (f s).1 with
  | error y => rw [h'] at h; injection h with h; subst h; exact hf s y h' hv
  | ok v => rw [h'] at h; cases h

/-- The action never ends in a validation error. -/
def NoVal {α : Type} (f : Act α) : Prop := ∀ s x, (f s).1 = .error x → isValidationError x = false

theorem NoVal.clean {α : Type} {f : Act α} (h : NoVal f) : CleanErr f :=
    fun s x hx hv => by rw [h s x hx] at hv; cases hv

theorem NoVal.map {α β : Type} {f : Act α} (hf : NoVal f) (g : α → β) : NoVal (Act.map f g) := by
  intro s x h
  rw [map_fst] at h
  cases h' : (f s).1 with
  | error y => rw [h'] at h; injection h with h; subst h; exact hf s y h'
  | ok v => rw [h'] at h; cases h

theorem NoVal.andThen {α β : Type} {f : Act α} {g : α → Act β} (hf : NoVal f) (hg : ∀ a, NoVal (g a)) :
    NoVal (Act.andThen f g) := by
  intro s x h
  cases h' : (f s).1 with
  | error y => rw [andThen_error h'] at h; injection h with h; subst h; exact hf s y h'
  | ok v => rw [andThen_ok h'] at h; exact hg _ _ _ h

theorem runBatch_pair_noVal (a b : Code) (x y) : NoVal (runBatch [frameOf a, frameOf b] [x, y]) := by
  intro s e h
  have hp := packFrames_pair a b
  have hx : [x,y].length = [frameOf a, frameOf b].length := by simp only [List.length_cons, List.length_nil]
  exact runBatch_noVal hp hx s h

theorem regRead_noVal (r) : NoVal (regRead r) := by
  unfold regRead
  exact NoVal.map (runBatch_pair_noVal _ _ _ _) _

theorem regWrite_clean (r p) : CleanErr (regWrite r p) := by
  intro s
  unfold regWrite
  split
  · intro x _ _; rfl
  · exact map_clean (f := runBatch _ _) (runBatch_clean _ _ (Eq.refl 2)) _ s

theorem sendLines_noVal (ls) : NoVal (sendLines ls) := by
  induction ls with
  | nil => intro s x h; cases h
  | cons l ls ih =>
    refine NoVal.andThen (f := sendLine l) ?_ (fun _ => ih)
    intro s x h
    unfold sendLine at h
    dsimp only at h
    split at h
    · injection h with h; subst h; rfl
    · cases h

theorem regWrite_noVal {r p s} (hp : p &&& regMask s.params r = p) {x} (h : (regWrite r p s).1 = .error x) :
    isValidationError x = false := by
  unfold regWrite encWrite at h
  rw [if_pos hp] at h
  dsimp only at h
  exact NoVal.map (runBatch_pair_noVal _ _ _ _) _ s x h

end Sys2Proof.Machine
end

