-- ==== Sys2Proof/Laws/Flags.lean ====
section
/-! SUPPORT. Single bits of a CONTROL payload (10_state.md R31, R35; 42_register_model.md R127 to R130), and the small
facts about `PACK`, `UNPACK` and the two's-complement adjustment that claims over host commands cite. -/

namespace Sys2Proof.Machine

/-! ### Commands that touch nothing -/

/-- An admitted command without effects changes the completion alone. -/
theorem runAct_result (r : Except Err Value) (s : State) :
    runAct (Act.result r) s =
      { s with completion := some (match r with | .ok v => .ok v | .error e => .err e) } := by
  cases r <;> rfl

theorem pack_code (c : Code) : pack (c.toNat : Int) = .ok (packCode c) := by
  unfold pack; rw [if_pos (isCode24_toNat c), ofInt_toNat]

theorem unpack_triple (t : Triple) : unpack t.b0.toNat t.b1.toNat t.b2.toNat = .ok (unpackBytes t) := by
  unfold unpack
  rw [if_pos (isByte_toNat _), if_pos (isByte_toNat _), if_pos (isByte_toNat _), ofInt_toNat, ofInt_toNat,
      ofInt_toNat]

/-! ### Bits of CONTROL -/

theorem hasBits_bit (p : Payload) (k : Fin 20) : hasBits p (payloadBit k) = p.getLsbD k.val := by
  unfold hasBits payloadBit
  rw [show (1#20 <<< k.val) = BitVec.twoPow 20 k.val by simp [BitVec.twoPow]]
  rw [BitVec.and_twoPow]
  split <;> simp_all
  have := k.isLt
  intro h
  have h2 := congrArg (fun x => x.getLsbD k.val) h
  simp at h2

/-- A single-bit payload bit by bit. -/
theorem payloadBit_getLsbD (a k : Fin 20) : (payloadBit a).getLsbD k.val = decide (k = a) := by
  unfold payloadBit
  rw [show (1#20 <<< a.val) = BitVec.twoPow 20 a.val by simp [BitVec.twoPow], BitVec.getLsbD_twoPow]
  simp [Fin.ext_iff, eq_comm]

/-- The legal bits of CONTROL are the nine positions of `CTRL_POS` and no other (R31, R74). -/
theorem regMask_control_bit (P : Params) (k : Fin 20) :
    (regMask P .control).getLsbD k.val = true ↔ k ∈ P.ctrlPos.positions := by
  have : ∀ (l : List (Fin 20)) (m : Payload),
      (l.foldl (fun m i => m ||| payloadBit i) m).getLsbD k.val = true ↔ (m.getLsbD k.val = true ∨ k ∈ l) := by
    intro l
    induction l with
    | nil => intro m; simp only [List.foldl_nil, List.not_mem_nil, or_false]
    | cons a l ih =>
      intro m
      rw [List.foldl_cons, ih, BitVec.getLsbD_or, payloadBit_getLsbD, Bool.or_eq_true, decide_eq_true_iff, List.mem_cons, or_assoc]
  show (controlMask P).getLsbD k.val = true ↔ _
  unfold controlMask
  rw [this]
  exact or_iff_right (by show ¬ (0#20).getLsbD k.val = true; rw [BitVec.getLsbD_zero]; exact Bool.false_ne_true)

/-- Each of the nine positions is legal in CONTROL (R74). -/
theorem controlMask_bit (P : Params) (k : Fin 20) (hk : k ∈ P.ctrlPos.positions) :
    (controlMask P).getLsbD k.val = true := (regMask_control_bit P k).2 hk

/-- Setting or clearing one legal bit of a legal CONTROL payload leaves every other bit (R128, R130). -/
theorem withFlag_bits (P : Params) (k : Fin 20) (b : Bool) (p : Payload) (hk : k ∈ P.ctrlPos.positions)
    (hp : p &&& regMask P .control = p) (j : Fin 20) :
    (withFlag P (payloadBit k) b p).getLsbD j.val = if j = k then b else p.getLsbD j.val := by
  have hb := payloadBit_getLsbD k j
  have hm := controlMask_bit P k hk
  have hpj : (p &&& regMask P .control).getLsbD j.val = p.getLsbD j.val := by rw [hp]
  rw [BitVec.getLsbD_and] at hpj
  unfold withFlag setBits clearBits
  have hj := j.isLt
  rw [BitVec.getLsbD_and]
  by_cases e : j = k
  · subst e
    have : (regMask P .control).getLsbD j.val = true := hm
    cases b <;> simp [this, payloadBit]
  · rw [if_neg e]
    cases b <;> simp_all

end Sys2Proof.Machine
end

