-- ==== Sys2Proof/Laws/Lines.lean ====
section
/-! SUPPORT. The transport lines as single steps: what they leave alone, and a whole batch of them
(30_encoding.md R84 to R98; 43_sequencer.md R152 to R156, R162). -/

namespace Sys2Proof.Machine

open Sys2Proof.Safety

theorem execLineStage_within {i b0 b1 b2 s t} (h : execLineStage i b0 b1 b2 s = .next t) : WithinSession s t := by
  unfold execLineStage at h
  split at h
  · split at h
    · injection h with h; subst h
      exact (withinSession_seq (WithinSession.refl s) _).trans (seqStage_within _)
    · cases h
  · cases h

theorem execLinePass_within {s t} (h : execLinePass s = .next t) : WithinSession s t := by
  unfold execLinePass at h
  split at h
  · injection h with h; subst h; exact seqCommit_within _
  · cases h

theorem execLineRxq_within {i s t} (h : execLineRxq i s = .next t) : WithinSession s t := by
  unfold execLineRxq at h
  split at h
  · split at h
    · injection h with h; subst h
      exact (withinSession_seq (WithinSession.refl s) _).trans (fetchSlot_within _ _ _)
    · cases h
  · cases h

theorem execLineDel_keeps {s t} (h : execLineDel s = .next t) : t.defer = s.defer ∧ t.sess = s.sess := by
  unfold execLineDel at h
  split at h
  · injection h with h; subst h; simp
  · cases h

theorem execLineCreate_keeps {n s t} (h : execLineCreate n s = .next t) : t.defer = s.defer ∧ t.sess = s.sess := by
  unfold execLineCreate at h
  split at h
  · split at h
    · split at h
      · injection h with h; subst h
        have := (seqLoad_within (List.replicate n ⟨0,0,0⟩)
            (List.replicate n .none) s).trans (seqBegin_within (seqLoad (List.replicate n ⟨0,0,0⟩)
            (List.replicate n .none) s))
        split
        · exact ⟨this.defer, this.sess⟩
        · exact ⟨this.defer, this.sess⟩
      · cases h
    · cases h
  · cases h

/-- A host command whose action stays within its session writes neither flag nor session (R22, R23). -/
theorem hostCommand_keeps {f : Act Value} (hf : Keeps WithinSession f) {s t} (h : hostCommand f s = .next t) :
    t.defer = s.defer ∧ t.sess = s.sess := by
  obtain ⟨_, rfl⟩ := hostCommand_next h
  simp [(hf s).defer, (hf s).sess]

theorem ioCommand_keeps {f : Act Value} (hf : Keeps WithinSession f) {s t} (h : ioCommand f s = .next t) :
    t.defer = s.defer ∧ t.sess = s.sess := by
  obtain ⟨_, _, rfl⟩ := ioCommand_next h
  simp [(hf s).defer, (hf s).sess]

/-- A line without a value is answered `ok` or `fail` (R84). -/
theorem emit_command (l : Line) (hl : isCommandLine l = true) (s : State) :
    (emit l s).1 = .ok ∨ (emit l s).1 = .fail := answer_command hl _ _

theorem execAll_append (is js : List Instr) (s : State) {t : State} (h : execAll is s = .next t) :
    execAll (is ++ js) s = execAll js t := by
  induction is generalizing s with
  | nil => injection h with h; rw [h]; rfl
  | cons i is ih =>
    unfold execAll at h
    rw [List.cons_append, execAll]
    cases he : exec i s with
    | next u => rw [he] at h; exact ih u h
    | fault f => rw [he] at h; cases h
    | refused f => rw [he] at h; cases h

theorem execAll_cons {i : Instr} {s t : State} (h : exec i s = .next t) (is : List Instr) :
    execAll (i :: is) s = execAll is t := by
  rw [execAll, h]

/-- Every slot of the batch expects nothing: the batch was opened by its line. -/
def ExpectsNothing (q : Seq) : Prop := q.expect = List.replicate q.n .none

theorem ExpectsNothing.skip {s : State} (h : ExpectsNothing s.seq) (i j : Nat) : skippable i j s = true := by
  unfold skippable
  rw [h, List.drop_replicate, List.take_replicate]
  simp

theorem ExpectsNothing.raw {s : State} (h : ExpectsNothing s.seq) (i : Nat) : lineExpect i s = .raw := by
  unfold lineExpect
  rw [h]
  split
  · next r hr => 
    rw [List.getElem?_replicate] at hr
    split at hr <;> cases hr
  · rfl

/-- The stage lines of a batch, executed one after another, do what the stages of `RUN_BATCH` do. -/
theorem execAll_stages (pre ts : List Triple) (s : State) (hph : s.seq.phase = .staging) (he : s.seq.err = none)
    (hp : s.seq.ptr = pre.length)
    (hn : s.seq.n = (pre ++ ts).length) (hl : s.seq.tx.length = s.seq.n) {u : State}
        (h : sendLines (stageLines pre.length ts) s = (.ok (), u)) :
    ∃ q : List Triple, q.length = s.seq.n ∧
        execAll ((stageLines pre.length ts).map lineInstr) s = .next
            { u with seq := { s.seq with tx := q, ptr := s.seq.n } } := by
  induction ts generalizing pre s u with
  | nil =>
    refine ⟨s.seq.tx, hl, ?_⟩
    injection h with _ h
    subst h
    have : s.seq.ptr = s.seq.n := by rw [hp, hn]; simp
    show Host.Outcome.next s = _
    rw [← this]
  | cons t ts ih =>
    have hlt : s.seq.ptr < s.seq.n := by rw [hp, hn]; simp
    have hrun : sendLines (stageLines pre.length (t :: ts)) s = Act.andThen (sendLine (.stage pre.length t))
        (fun _ => sendLines (stageLines (pre.length + 1) ts)) s := rfl
    rw [hrun] at h
    cases hs : (sendLine (.stage pre.length t) s).1 with
    | error e => rw [andThen_error hs] at h; cases h
    | ok x =>
      have hnf : (emit (.stage pre.length t) s).1 ≠ .fail := by
        intro hf
        have : (sendLine (.stage pre.length t) s).1 = .error (.transportError (.stage pre.length t)) := by
          show (if _ then _ else _) = _; rw [if_pos hf]
        rw [this] at hs; cases hs
      rw [andThen_ok hs] at h
      generalize hq : s.seq.tx.set pre.length t = q
      have hex : exec (.lineStage pre.length t.b0 t.b1 t.b2) s = .next { (emit (.stage pre.length t) s).2 with seq := { s.seq with tx := q, ptr := pre.length + 1 } } := by
        show execLineStage pre.length t.b0 t.b1 t.b2 s = _
        unfold execLineStage
        rw [if_pos (by simp [slotExists, hph, ← hp, hlt]), if_pos ⟨hph, he, hp.symm⟩]
        have ht : (⟨t.b0, t.b1, t.b2⟩ : Triple) = t := rfl
        rw [ht, hq]
        have hg : q[s.seq.ptr]? = some t := by rw [← hq, ← hp]; simp [hl, hlt]
        unfold seqStage
        dsimp only
        rw [hg]
        dsimp only
        rw [memWriteTx_self hg, hp]
        rw [if_neg (by exact hnf)]
        rfl
      have hm : (stageLines pre.length (t :: ts)).map lineInstr = .lineStage pre.length t.b0 t.b1 t.b2 :: (stageLines (pre.length + 1) ts).map lineInstr := rfl
      rw [hm, execAll_cons hex]
      have hlen : (pre ++ [t]).length = pre.length + 1 := by simp
      have hb := sendLines_blind (stageLines (pre.length + 1) ts)
          (emit (.stage pre.length t) s).2 { s.seq with tx := q, ptr := pre.length + 1 }
      have hb2 : sendLines (stageLines (pre.length + 1) ts) (emit (.stage pre.length t) s).2 = (.ok (), u) := h
      rw [hb2] at hb
      obtain ⟨q', h1, h2⟩ := ih (pre ++ [t])
          { (emit (.stage pre.length t) s).2 with seq := { s.seq with tx := q, ptr := pre.length + 1 } } hph he (by rw [hlen]) (by simp [hn]) (by rw [← hq]; simp [hl])
          (by rw [hlen]; exact hb)
      rw [hlen] at h2
      exact ⟨q', h1, h2⟩

/-- The fetch lines of a batch opened by its line, executed one after another, do what fetches that pass do. -/
theorem execAll_fetches (i : Nat) (xs : List Expect) (done : List (Option Code)) (s : State)
    (hpl : ExpectsNothing s.seq) (hph : s.seq.phase = .committed) (he : s.seq.err = none)
    (hd : done.length = i) (hf : s.seq.fptr ≤ i) (hn : s.seq.n = i + xs.length)
        (hr : s.seq.result = done ++ List.replicate xs.length none)
    {v : List (Option Code)} {u : State} (h : fetchRun i xs s = (.ok v, u)) :
    ∃ f, execAll ((fetchLines i xs).map lineInstr) s = .next
        { u with seq := { s.seq with result := done ++ v, fptr := f } } := by
  induction xs generalizing i done s v u with
  | nil =>
    injection h with h1 h2
    injection h1 with h1
    subst h1 h2
    refine ⟨s.seq.fptr, ?_⟩
    show Host.Outcome.next s = _
    have : done ++ [] = s.seq.result := by rw [hr]; rfl
    rw [this]
  | cons x xs ih =>
    by_cases hx : x = .none
    · subst hx
      have hrun : fetchRun i (.none :: xs) s = Act.map (fetchRun (i + 1) xs) (none :: ·) s := rfl
      rw [hrun] at h
      injection h with h1 h2
      cases hw : (fetchRun (i + 1) xs s).1 with
      | error e => rw [hw] at h1; cases h1
      | ok w =>
        rw [hw] at h1
        injection h1 with h1
        obtain ⟨f, hf'⟩ := ih (i + 1) (done ++ [none]) s hpl hph he (by simp [hd]) (by omega)
            (by simp [hn]; omega) (by simp [hr, List.replicate_succ]) (v := w) (u := u) (by rw [← hw, ← h2])
        refine ⟨f, ?_⟩
        rw [← h1]
        show execAll ((fetchLines (i + 1) xs).map lineInstr) s = _
        rw [hf']; simp
    · have hl : fetchLines i (x :: xs) = .rxq i :: fetchLines (i + 1) xs := by
        cases x <;> first | rfl | exact absurd rfl hx
      have hrun : fetchRun i (x :: xs) s
          = Act.andThen (fetchOne i x) (fun c => Act.map (fetchRun (i + 1) xs) (some c :: ·)) s := by
        cases x <;> first | rfl | exact absurd rfl hx
      rw [hrun] at h
      cases hc : (fetchOne i x s).1 with
      | error e => rw [andThen_error hc] at h; cases h
      | ok c =>
        rw [andThen_ok hc] at h
        injection h with h1 h2
        cases hw : (fetchRun (i + 1) xs (fetchOne i x s).2).1 with
        | error e => rw [hw] at h1; cases h1
        | ok w =>
          rw [hw] at h1
          injection h1 with h1
          have hraw : fetchOne i .raw s = (.ok c, (fetchOne i x s).2) := by
            unfold fetchOne at hc ⊢
            dsimp only at hc ⊢
            cases ha : (emit (.rxq i) s).1 with
            | bytes t =>
              rw [ha] at hc
              dsimp only at hc ⊢
              cases hk : checkResponse s.params x (unpackBytes t) with
              | error e => rw [hk] at hc; cases hc
              | ok _ => rw [hk] at hc; injection hc with hc; rw [← hc]; rfl
            | ok => rw [ha] at hc; cases hc
            | int k => rw [ha] at hc; cases hc
            | fail => rw [ha] at hc; cases hc
          generalize hq : s.seq.result.set i (some c) = q
          have hex : exec (.lineRxq i) s = .next
              { (fetchOne i x s).2 with seq := { s.seq with result := q, fptr := i + 1 } } := by
            show execLineRxq i s = _
            unfold execLineRxq
            have hi : i < s.seq.n := by rw [hn]; simp
            rw [if_pos (by simp [slotExists, hph, hi]), if_pos ⟨hph, he, hf, ExpectsNothing.skip hpl _ _⟩,
                ExpectsNothing.raw hpl]
            show Host.Outcome.next (fetchSlot i .raw { s with seq := { s.seq with fptr := i } }) = _
            rw [fetchSlot_line i .raw { s with seq := { s.seq with fptr := i } } he,
              fetchOne_blind i .raw s, hraw, ← hq]
          rw [hl]
          show ∃ f, execAll (.lineRxq i :: (fetchLines (i + 1) xs).map lineInstr) s = _
          rw [execAll_cons hex]
          have hset : q = (done ++ [some c]) ++ List.replicate xs.length none := by
            rw [← hq, hr, List.length_cons, List.replicate_succ, ← hd]; simp
          have hb := fetchRun_blind (i + 1) xs (fetchOne i x s).2 { s.seq with result := q, fptr := i + 1 }
          have h2' : (fetchRun (i + 1) xs (fetchOne i x s).2).2 = u := h2
          rw [hw, h2'] at hb
          obtain ⟨f, hf'⟩ := ih (i + 1) (done ++ [some c])
              { (fetchOne i x s).2 with seq := { s.seq with result := q, fptr := i + 1 } } hpl hph he (by simp [hd]) (le_refl _) (by simp [hn]; omega) hset (v := w) hb
          refine ⟨f, ?_⟩
          rw [hf', ← h1]
          simp

/-- What a line executed by itself does to the peer: what the emitted line does, or nothing. -/
theorem lineInstr_env {l : Line} {s t : State} (h : exec (lineInstr l) s = .next t) :
    t.env = (emit l s).2.env ∨ t.env = s.env := by
  have cmd : ∀ f : Act Value, (∀ s, (f s).2.env = (emit l s).2.env) → hostCommand f s = .next t →
      t.env = (emit l s).2.env := by
    intro f hf h
    obtain ⟨_, rfl⟩ := hostCommand_next h
    rw [runAct_env, hf]
  cases l with
  | initDev | setDef | setGet | setMode | setSpeed | setWord | setSet | release => exact .inl (cmd _ (fun _ => rfl) h)
  | speedq => exact .inl (cmd _ (fun _ => rfl) h)
  | pass =>
    left
    change execLinePass s = _ at h
    unfold execLinePass at h
    split at h
    · injection h with h; subst h
      unfold seqCommit
      dsimp only
      split
      · rw [recordErr_env]
      · rfl
    · cases h
  | create n =>
    left
    change execLineCreate n s = _ at h
    unfold execLineCreate at h
    split at h
    · split at h
      · split at h
        · dsimp only at h
          injection h with h
          have : (seqBegin (seqLoad (List.replicate n ⟨0, 0, 0⟩) (List.replicate n .none) s)).2.env
              = (emit (.create n) s).2.env := by
            have hn : (seqLoad (List.replicate n (⟨0, 0, 0⟩ : Triple)) (List.replicate n .none) s).seq.n = n := by
              simp [seqLoad]
            unfold seqBegin
            rw [hn]
            dsimp only
            split <;> rfl
          subst h
          split
          · rw [this]
          · rw [complete_env, this]
        · cases h
      · cases h
    · cases h
  | stage i u =>
    change execLineStage i u.b0 u.b1 u.b2 s = _ at h
    unfold execLineStage at h
    split at h
    · next he =>
      split at h
      · next hc =>
        injection h with h; subst h
        unfold seqStage
        split
        · exact .inr rfl
        · next v hv =>
          left
          rw [memWriteTx_self hv]
          have hlen : i < s.seq.tx.length := by
            obtain ⟨hi, _⟩ := List.getElem?_eq_some_iff.1 hv
            rw [hc.2.2]; simpa using hi
          have : v = u := by
            dsimp only at hv
            rw [← hc.2.2, List.getElem?_set_self hlen] at hv
            injection hv with hv; exact hv.symm
          subst this
          dsimp only
          rw [hc.2.2]
          split
          · rw [recordErr_env]; rfl
          · rfl
      · cases h
    · cases h
  | rxq i =>
    left
    change execLineRxq i s = _ at h
    unfold execLineRxq at h
    split at h
    · split at h
      · injection h with h; subst h
        unfold fetchSlot
        dsimp only [memReadRx_state]
        split
        · rw [recordErr_env]; rfl
        · split
          · rw [recordErr_env]; rfl
          · rfl
      · cases h
    · cases h
  | del =>
    left
    change execLineDel s = _ at h
    unfold execLineDel at h
    split at h
    · injection h with h; subst h
      rw [runAct_env, map_snd]; rfl
    · cases h

/-- A line may pass over slots that expect nothing (R155). -/
theorem skippable_of_none {i j : Nat} {s : State}
    (h : ∀ k x, i ≤ k → k < j → s.seq.expect[k]? = some x → x = .none) : skippable i j s = true := by
  unfold skippable
  rw [List.all_eq_true]
  intro x hx
  obtain ⟨k, hk⟩ := List.mem_iff_getElem?.1 hx
  rw [List.getElem?_take] at hk
  split at hk
  · rw [List.getElem?_drop] at hk
    rw [h (i + k) x (by omega) (by omega) hk]
    rfl
  · cases hk

/-- A line may not pass over a slot that expects something. -/
theorem not_skippable_of_wanted {i j k : Nat} {x : Expect} {s : State} (h1 : i ≤ k) (h2 : k < j) (h3 : s.seq.expect[k]? = some x)
    (h4 : x ≠ .none) : skippable i j s ≠ true := by
  unfold skippable
  rw [Ne, List.all_eq_true]
  intro h
  have hm : x ∈ (s.seq.expect.drop i).take (j - i) := by
    apply List.mem_of_getElem? (i := k - i)
    rw [List.getElem?_take, if_pos (by omega), List.getElem?_drop, show i + (k - i) = k by omega, h3]
  exact h4 (by simpa using h x hm)

end Sys2Proof.Machine
end

