-- ==== Sys2Proof/Laws/PerInstr.lean ====
section
/-! SUPPORT. The round trip of the encoding, instruction by instruction: the family `RoundTrip` of LAWS.json says that
the decoder reads a well-formed instruction back from its packet (30_encoding.md R76, R79, R82, R85 to R99). -/

namespace Sys2Proof.Laws.RoundTrip

open Sys2Proof Sys2Proof.Machine

/-- What the family says of an instruction. -/
def Statement (i : Instr) : Prop := ∀ P : Params, i.wellFormed P = true → decode (encode i) = .ok i

/-! ### Format W24 -/

theorem wire (op : BitVec 4) (p : Payload) (i : Instr) (h : decodeWire (codeOf op p) = .ok i) :
    decode (wirePacket op p) = .ok i := by
  show decodeWire (unpackBytes (packCode (codeOf op p))) = _
  rw [unpackBytes_packCode, h]

theorem softWrite_other {p : Payload} (h1 : p ≠ 1#20) (h2 : p ≠ 2#20) (h4 : p ≠ 4#20) :
    softWrite p = .wireWrSoft p := by
  simp [softWrite, h1, h2, h4]

theorem payload_arm (op : BitVec 4) (p : Payload) :
    decodeWire (codeOf op p) = (match op.toNat with
      | 0 => noPayload (codeOf op p) .wireNop
      | 1 => .ok (.wireWrData p)
      | 2 => .ok (.wireWrControl p)
      | 3 => .ok (.wireWrClear p)
      | 4 => .ok (softWrite p)
      | 9 => noPayload (codeOf op p) .wireRdData
      | 10 => noPayload (codeOf op p) .wireRdControl
      | 11 => noPayload (codeOf op p) .wireRdClear
      | 12 => noPayload (codeOf op p) .wireRdSoft
      | _ => .error (.reservedSelect (codeOf op p))) := by
  unfold decodeWire
  rewrite [opcodeOf_codeOf, payloadOf_codeOf]
  rfl

theorem wireNop : Statement .wireNop := fun _ _ => rfl

theorem wireWrData (p : Payload) : Statement (.wireWrData p) := fun _ _ => wire _ _ _ (payload_arm _ _)

theorem wireWrControl (p : Payload) : Statement (.wireWrControl p) := fun _ _ => wire _ _ _ (payload_arm _ _)

theorem wireWrClear (p : Payload) : Statement (.wireWrClear p) := fun _ _ => wire _ _ _ (payload_arm _ _)

theorem wireWrSoft (p : Payload) : Statement (.wireWrSoft p) := fun P h => by
  simp only [Instr.wellFormed, Bool.and_eq_true, decide_eq_true_eq] at h
  refine wire _ _ _ ((payload_arm _ _).trans ?_)
  show Except.ok (softWrite p) = _
  rw [softWrite_other h.1.1.2 h.1.2 h.2]

theorem wireSoftLdac : Statement .wireSoftLdac := fun _ _ => rfl

theorem wireSoftClear : Statement .wireSoftClear := fun _ _ => rfl

theorem wireSoftReset : Statement .wireSoftReset := fun _ _ => rfl

theorem wireRdData : Statement .wireRdData := fun _ _ => by decide

theorem wireRdControl : Statement .wireRdControl := fun _ _ => by decide

theorem wireRdClear : Statement .wireRdClear := fun _ _ => by decide

theorem wireRdSoft : Statement .wireRdSoft := fun _ _ => by decide

/-! ### Format CMD -/

theorem host {cmd : Byte} {ws : List Int} {i : Instr} {n : Nat} (hn : cmd.toNat = n)
    (h : commandOf n ws = some (some i)) : decode (.host cmd ws) = .ok i := by
  simp only [decode, decodeHost, hn, h]

theorem pack (code : Int) : Statement (.pack code) := fun _ _ => rfl

theorem unpack (w0 w1 w2 : Int) : Statement (.unpack w0 w1 w2) := fun _ _ => rfl

theorem hasBits (code mask : Code) : Statement (.hasBits code mask) := fun _ _ => host (n := 3) rfl (by
  simp only [commandOf, asBits_toNat, Option.bind_some, Option.map_some])

theorem setBits (code mask : Code) : Statement (.setBits code mask) := fun _ _ => host (n := 4) rfl (by
  simp only [commandOf, asBits_toNat, Option.bind_some, Option.map_some])

theorem clearBits (code mask : Code) : Statement (.clearBits code mask) := fun _ _ => host (n := 5) rfl (by
  simp only [commandOf, asBits_toNat, Option.bind_some, Option.map_some])

theorem c2v (code20 : Payload) (twoComplement : Bool) : Statement (.c2v code20 twoComplement) :=
    fun _ _ => host (n := 8) rfl (by
  simp only [commandOf, asBits_toNat, asBool_boolWord, Option.bind_some, Option.map_some])

theorem v2c (v : Volt) (twoComplement : Bool) : Statement (.v2c v twoComplement) := fun _ _ => by
  obtain ⟨a, b, c, h1, h2⟩ := asVolt_voltWords v
  simp [encode, decode, decodeHost, commandOf, h1, h2, asBool_boolWord]

theorem encNop : Statement .encNop := fun _ _ => rfl

theorem encWrite (r : Reg) (p : Payload) : Statement (.encWrite r p) := fun _ _ => by
  simp [encode, decode, decodeHost, commandOf, asBits_toNat, asReg_regWord]

theorem encRead (r : Reg) : Statement (.encRead r) := fun _ _ => by
  simp [encode, decode, decodeHost, commandOf, asReg_regWord]

theorem decReadback (r : Reg) (code : Code) : Statement (.decReadback r code) := fun _ _ => by
  simp [encode, decode, decodeHost, commandOf, asBits_toNat, asReg_regWord]

theorem regRead (r : Reg) : Statement (.regRead r) := fun _ _ => by
  simp [encode, decode, decodeHost, commandOf, asReg_regWord]

theorem regWrite (r : Reg) (p : Payload) : Statement (.regWrite r p) := fun _ _ => by
  simp [encode, decode, decodeHost, commandOf, asBits_toNat, asReg_regWord]

theorem getTristate : Statement .getTristate := fun _ _ => rfl

theorem setTristate (b : Bool) : Statement (.setTristate b) := fun _ _ => by
  simp [encode, decode, decodeHost, commandOf, asBool_boolWord]

theorem getOpgnd : Statement .getOpgnd := fun _ _ => rfl

theorem setOpgnd (b : Bool) : Statement (.setOpgnd b) := fun _ _ => by
  simp [encode, decode, decodeHost, commandOf, asBool_boolWord]

theorem softLdac : Statement .softLdac := fun _ _ => rfl

theorem softReset : Statement .softReset := fun _ _ => rfl

theorem softClear : Statement .softClear := fun _ _ => rfl

theorem runBatch (frames : List Int) (expect : List Expect) : Statement (.runBatch frames expect) := fun _ _ => by
  simp only [encode, decode, decodeHost]
  show (match commandOf 0x28 _ with | none => _ | some none => _ | some (some i) => _) = _
  simp only [commandOf, asBatch_words]

theorem getVoltage : Statement .getVoltage := fun _ _ => rfl

theorem setVoltage (v : Volt) : Statement (.setVoltage v) := fun _ _ => by
  obtain ⟨a, b, c, h1, h2⟩ := asVolt_voltWords v
  simp [encode, decode, decodeHost, commandOf, h1, h2]

theorem getDefer : Statement .getDefer := fun _ _ => rfl

theorem setDefer (b : Bool) : Statement (.setDefer b) := fun _ _ => by
  simp [encode, decode, decodeHost, commandOf, asBool_boolWord]

theorem sessionOpen : Statement .sessionOpen := fun _ _ => rfl

theorem sessionClose : Statement .sessionClose := fun _ _ => rfl

theorem getSpeed : Statement .getSpeed := fun _ _ => rfl

theorem setSpeed (k : Nat) : Statement (.setSpeed k) := fun _ h => by
  have hk : 0 < k := by simpa [Instr.wellFormed] using h
  simp [encode, decode, decodeHost, commandOf, asPositive_pred hk]

/-! ### Format TXT -/

theorem lineInitDev (path : List Char) : Statement (.lineInitDev path) := fun _ h => by
  simp only [encode, decode, decodeLine, readLine_initDev (show _ = true from h), lineInstr]

theorem lineSetDef : Statement .lineSetDef := fun _ _ => rfl

theorem lineSetGet : Statement .lineSetGet := fun _ _ => rfl

theorem lineSetMode : Statement .lineSetMode := fun _ _ => rfl

theorem lineSetSpeed (k : Nat) : Statement (.lineSetSpeed k) := fun _ _ => by
  simp only [encode, decode, decodeLine, readLine_printLine (.setSpeed k) (fun _ h => nomatch h), lineInstr]

theorem lineSetWord : Statement .lineSetWord := fun _ _ => rfl

theorem lineSetSet : Statement .lineSetSet := fun _ _ => rfl

theorem lineCreate (n : Nat) : Statement (.lineCreate n) := fun _ _ => by
  simp only [encode, decode, decodeLine, readLine_printLine (.create n) (fun _ h => nomatch h), lineInstr]

theorem lineStage (i : Nat) (b0 b1 b2 : Byte) : Statement (.lineStage i b0 b1 b2) := fun _ _ => by
  simp only [encode, decode, decodeLine, readLine_printLine (.stage i ⟨b0, b1, b2⟩) (fun _ h => nomatch h), lineInstr]

theorem linePass : Statement .linePass := fun _ _ => rfl

theorem lineRxq (i : Nat) : Statement (.lineRxq i) := fun _ _ => by
  simp only [encode, decode, decodeLine, readLine_printLine (.rxq i) (fun _ h => nomatch h), lineInstr]

theorem lineDel : Statement .lineDel := fun _ _ => rfl

theorem lineRelease : Statement .lineRelease := fun _ _ => rfl

theorem lineSpeedq : Statement .lineSpeedq := fun _ _ => rfl

end Sys2Proof.Laws.RoundTrip
end

