-- ==== Sys2Proof/Laws/Reference.lean ====
section
/-! SUPPORT. Batches against the reference peer (45_wire_commands.md R213 to R216): what the DAC does with the frames of
a batch, and what the batch ends in. -/

namespace Sys2Proof.Machine

open Sys2Proof.Safety

/-! ### Lines -/

theorem emit_ref {s : State} (h : WellBehaved s) (l : Line) :
    emit l s = ((referenceLine s.params l s.env).1,
      s.after (referenceLine s.params l s.env).2 [⟨l, (referenceLine s.params l s.env).1⟩]) := by
  rw [emit_after, answer_reference _ _ _ h.1 h.2]

theorem wellBehaved_after {s : State} (h : WellBehaved s) (l : Line) (evs : List Event) :
    WellBehaved (s.after (referenceLine s.params l s.env).2 evs) := by
  constructor
  · rw [State.after_env, referenceLine_mode]; exact h.1
  · rw [State.after_env, referenceLine_replies]; exact h.2

/-- The environment with other transmit slots at the bridge. -/
def Env.setTx (e : Env) (tx : List (Option Triple)) : Env := e.setBridge { e.peer.bridge with tx := tx }

@[simp] theorem Env.setTx_tx (e : Env) (tx : List (Option Triple)) : (e.setTx tx).peer.bridge.tx = tx := rfl
@[simp] theorem Env.setTx_dac (e : Env) (tx : List (Option Triple)) : (e.setTx tx).dac = e.dac := rfl
@[simp] theorem Env.setTx_mode (e : Env) (tx : List (Option Triple)) : (e.setTx tx).mode = e.mode := rfl
@[simp] theorem Env.setTx_replies (e : Env) (tx : List (Option Triple)) : (e.setTx tx).replies = e.replies := rfl
theorem Env.setTx_setTx (e : Env) (a b : List (Option Triple)) : (e.setTx a).setTx b = e.setTx b := rfl

/-- The stage lines fill the bridge's transmit slots (R214). -/
theorem stages_ref (ts : List Triple) (pre : List (Option Triple)) {s : State} (h : WellBehaved s)
    (ht : s.env.peer.bridge.tx = pre ++ List.replicate ts.length none) :
    sendLines (stageLines pre.length ts) s = (.ok (), s.after (s.env.setTx (pre ++ ts.map some))
      ((stageLines pre.length ts).map fun l => ⟨l, .ok⟩)) := by
  induction ts generalizing pre s with
  | nil =>
    have e : s.env.setTx (pre ++ [].map some) = s.env := by
      have : s.env.peer.bridge.tx = pre := by simpa using ht
      rw [List.map_nil, List.append_nil, ← this]
      rfl
    rw [e]
    show Act.result (.ok ()) s = _
    rw [show ((stageLines pre.length []).map fun l => (⟨l, .ok⟩ : Event)) = [] from rfl, State.after_nil]
    rfl
  | cons t ts ih =>
    have h1 : referenceLine s.params (.stage pre.length t) s.env
        = (.ok, s.env.setTx ((pre ++ [some t]) ++ List.replicate ts.length none)) := by
      unfold referenceLine Env.setTx
      dsimp only
      rw [ht, List.length_cons, List.replicate_succ]
      simp
    have h2 : sendLine (.stage pre.length t) s = (.ok (),
        s.after (s.env.setTx ((pre ++ [some t]) ++ List.replicate ts.length none)) [⟨.stage pre.length t, .ok⟩]) := by
      unfold sendLine
      rw [emit_ref h, h1]
      rfl
    have hw := wellBehaved_after h (.stage pre.length t) [⟨.stage pre.length t, .ok⟩]
    rw [h1] at hw
    have h3 := ih (pre ++ [some t]) hw rfl
    have hlen : (pre ++ [some t]).length = pre.length + 1 := by simp
    rw [hlen] at h3
    show Act.andThen (sendLine (.stage pre.length t)) (fun _ => sendLines (stageLines (pre.length + 1) ts)) s = _
    rw [andThen_ok (by rw [h2]), h2]
    dsimp only
    rw [h3, State.after_env, Env.setTx_setTx, State.after_after]
    simp [stageLines]

/-- The environment right before `PASS` of a batch. -/
def openedEnv (tx : List Triple) (e : Env) : Env :=
  e.setBridge { e.peer.bridge with
    isOpen := true
    n := tx.length
    tx := tx.map some
    rx := List.replicate tx.length none }

/-- The run of a batch up to its commit. -/
theorem opened_ref {frames : List Int} {tx : List Triple} (hp : packFrames 0 frames = .ok tx) {xs : List Expect}
    (hx : xs.length = tx.length) {s : State} (h : WellBehaved s) :
    runBatch frames xs s = closeBatch (fetchRun 0 xs)
      (s.after (passBatch s.params (openedEnv tx s.env)) (openedEvents tx)) := by
  have h1 : referenceLine s.params (.create tx.length) s.env = (.ok, s.env.setBridge { s.env.peer.bridge with
      isOpen := true
      n := tx.length
      tx := List.replicate tx.length none
      rx := List.replicate tx.length none }) := rfl
  have hw := wellBehaved_after h (.create tx.length) [⟨.create tx.length, .ok⟩]
  rw [h1] at hw
  have h2 := stages_ref tx [] hw (by simp)
  have hw2 : WellBehaved (s.after (openedEnv tx s.env)
      (⟨.create tx.length, .ok⟩ :: (stageLines 0 tx).map fun l => ⟨l, .ok⟩)) := h
  have h3 : sendLine .pass (s.after (openedEnv tx s.env)
      (⟨.create tx.length, .ok⟩ :: (stageLines 0 tx).map fun l => ⟨l, .ok⟩))
      = (.ok (), s.after (passBatch s.params (openedEnv tx s.env)) (openedEvents tx)) := by
    unfold sendLine
    rw [emit_ref hw2]
    dsimp only
    rw [State.after_after]
    simp [referenceLine, openedEvents]
  have h4 : sendLines (stageLines 0 tx ++ [.pass]) (s.after (referenceLine s.params (.create tx.length) s.env).2
      [⟨.create tx.length, .ok⟩])
      = (.ok (), s.after (passBatch s.params (openedEnv tx s.env)) (openedEvents tx)) := by
    rw [sendLines_append, h1]
    have h2' : sendLines (stageLines 0 tx) _ = _ := h2
    rw [andThen_ok (by rw [h2']), h2']
    show Act.andThen (sendLine .pass) (fun _ => Act.result (.ok ())) _ = _
    dsimp only
    rw [State.after_after]
    have h3' : sendLine .pass (s.after _ _) = _ := h3
    exact (andThen_ok (f := sendLine .pass) (by exact congrArg Prod.fst h3')).trans (by
      show (Except.ok (), (sendLine .pass _).2) = _
      exact congrArg (fun r => (Except.ok (), r.2)) h3')
  rw [runBatch_line hp hx, emit_ref h]
  dsimp only
  rw [if_neg (referenceLine_ne_fail _ _ _), h1] at *
  unfold closeBatch batchBody
  rw [andThen_ok (by rw [h4]), h4]

/-- The transfer of a batch's frames, from the environment in which the assertion starts (R214). -/
def transferred (tx : List Triple) (s : State) : List (Option Triple) × Env :=
  transfer s.params (tx.map some) (openedEnv tx s.env).drawSdo

theorem passBatch_rx (tx : List Triple) (s : State) :
    (passBatch s.params (openedEnv tx s.env)).peer.bridge.rx = (transferred tx s).1 := rfl

theorem passBatch_dac (tx : List Triple) (s : State) :
    (passBatch s.params (openedEnv tx s.env)).dac = (transferred tx s).2.dac := rfl

theorem passBatch_wellBehaved (tx : List Triple) {s : State} (h : WellBehaved s) (evs : List Event) :
    WellBehaved (s.after (passBatch s.params (openedEnv tx s.env)) evs) := by
  constructor
  · show (passBatch s.params (openedEnv tx s.env)).mode = _
    simp [passBatch, openedEnv, h.1]
  · show (passBatch s.params (openedEnv tx s.env)).replies = _
    simp [passBatch, openedEnv, h.2]

/-- `DEL` against the reference peer. -/
theorem closeBatch_ref {f : Act (List (Option Code))} {s t : State} {r : Except Err (List (Option Code))}
    (hf : f s = (r, t)) (h : WellBehaved t) :
    ∃ e, e.mode = .reference ∧ e.replies = [] ∧ e.dac = t.env.dac ∧
      closeBatch f s = (r, { t.after e [⟨.del, .ok⟩] with seq := Seq.idle }) := by
  refine ⟨(referenceLine t.params .del t.env).2, by rw [referenceLine_mode]; exact h.1,
    by rw [referenceLine_replies]; exact h.2, rfl, ?_⟩
  unfold closeBatch
  rw [hf]
  dsimp only
  rw [emit_ref h]
  cases r with
  | error x => rfl
  | ok v => rfl

/-- A batch that fetches nothing, against the reference peer. -/
theorem noFetch_ref {frames : List Int} {tx : List Triple} (hp : packFrames 0 frames = .ok tx) {s : State}
    (h : WellBehaved s) :
    ∃ e, e.mode = .reference ∧ e.replies = [] ∧ e.dac = (transferred tx s).2.dac ∧
      runBatch frames (List.replicate tx.length .none) s = (.ok (List.replicate tx.length none),
        { s.after e (openedEvents tx ++ [⟨.del, .ok⟩]) with seq := Seq.idle }) := by
  have key : ∀ (j i : Nat) (s' : State), fetchRun i (List.replicate j .none) s' = (.ok (List.replicate j none),
      s') := by
    intro j
    induction j with
    | zero => intro i s'; rfl
    | succ j ih =>
      intro i s'
      show Act.map (fetchRun (i + 1) (List.replicate j .none)) _ s' = _
      unfold Act.map
      rw [ih]
      rfl
  obtain ⟨e, h1, h2, h3, h4⟩ := closeBatch_ref (key tx.length 0 _) (passBatch_wellBehaved tx h (openedEvents tx))
  refine ⟨e, h1, h2, h3, ?_⟩
  rw [opened_ref hp (by simp) h, h4, State.after_after]

/-- A batch that fetches nothing but its last slot, against the reference peer: it ends in the check of what the DAC
shifted out during the last frame. -/
theorem readLast_ref {frames : List Int} {tx : List Triple} (hp : packFrames 0 frames = .ok tx) {m : Nat} {r : Reg}
    (hx : m + 1 = tx.length) {s : State} (h : WellBehaved s) {t : Triple}
    (ht : (transferred tx s).1[m]? = some (some t)) :
    ∃ e, e.mode = .reference ∧ e.replies = [] ∧ e.dac = (transferred tx s).2.dac ∧
      runBatch frames (List.replicate m .none ++ [.reg r]) s
        = ((decReadback s.params r (unpackBytes t)).map fun _ => List.replicate m none ++ [some (unpackBytes t)],
           { s.after e (openedEvents tx ++ [⟨.rxq m, .bytes t⟩] ++ [⟨.del, .ok⟩]) with seq := Seq.idle }) := by
  generalize hs1 : s.after (passBatch s.params (openedEnv tx s.env)) (openedEvents tx) = s1
  have hw : WellBehaved s1 := by rw [← hs1]; exact passBatch_wellBehaved tx h _
  have hline : referenceLine s1.params (.rxq m) s1.env = (.bytes t, s1.env) := by
    have : s1.env.peer.bridge.rx[m]? = some (some t) := by rw [← hs1]; exact ht
    unfold referenceLine
    dsimp only
    rw [this]
  have hone : ∀ x, fetchOne m x s1 = ((checkResponse s1.params x (unpackBytes t)).map fun _ => unpackBytes t,
      s1.after s1.env [⟨.rxq m, .bytes t⟩]) := by
    intro x
    unfold fetchOne
    rw [emit_ref hw, hline]
  have key : ∀ (j i : Nat), i + j = m → fetchRun i (List.replicate j .none ++ [.reg r]) s1
      = ((decReadback s1.params r (unpackBytes t)).map fun _ => List.replicate j none ++ [some (unpackBytes t)],
         s1.after s1.env [⟨.rxq m, .bytes t⟩]) := by
    intro j
    induction j with
    | zero =>
      intro i hi
      obtain rfl : i = m := by omega
      show Act.andThen (fetchOne i (.reg r)) _ s1 = _
      cases hd : decReadback s1.params r (unpackBytes t) with
      | error x =>
        rw [andThen_error (e := x) (by rw [hone]; simp [checkResponse, hd, Except.map]), hone]
        rfl
      | ok p =>
        rw [andThen_ok (a := unpackBytes t) (by rw [hone]; simp [checkResponse, hd, Except.map]), hone]
        rfl
    | succ j ih =>
      intro i hi
      show Act.map (fetchRun (i + 1) (List.replicate j .none ++ [.reg r])) _ s1 = _
      unfold Act.map
      rw [ih (i + 1) (by omega)]
      cases decReadback s1.params r (unpackBytes t) <;> rfl
  obtain ⟨e, h1, h2, h3, h4⟩ := closeBatch_ref (key m 0 (by omega)) hw
  have hd : s1.env.dac = (transferred tx s).2.dac := by rw [← hs1]; exact passBatch_dac tx s
  refine ⟨e, h1, h2, h3.trans hd, ?_⟩
  rw [opened_ref hp (by simpa using hx) h, hs1, h4, ← hs1, State.after_after, State.after_after, ← List.append_assoc]
  rfl

/-! ### Frames at the DAC -/

theorem dacFrame_of {P : Params} {c : Code} {e : Env} {n : Nat} (h : (opcodeOf c).toNat = n) :
    dacFrame P c e = match (generalizing := false) n with
      | 0 => dacNoPayload c dacNop e
      | 1 => dacWrite P .data (payloadOf c) e
      | 2 => dacWrite P .control (payloadOf c) e
      | 3 => dacWrite P .clear (payloadOf c) e
      | 4 => dacSoft P (payloadOf c) e
      | 9 => dacNoPayload c (dacRead .data) e
      | 10 => dacNoPayload c (dacRead .control) e
      | 11 => dacNoPayload c (dacRead .clear) e
      | 12 => dacNoPayload c dacReadSoft e
      | _ => dacUnknown e := by
  subst h; rfl

theorem dacFrame_write (P : Params) {r : Reg} (hr : r ≠ .soft) (p : Payload) (e : Env) :
    dacFrame P (unpackBytes (packCode (writeCode r p))) e = dacWrite P r p e := by
  rw [unpackBytes_packCode, dacFrame_of (opcodeOf_writeCode r p), payloadOf_writeCode]
  cases r with
  | soft => exact absurd rfl hr
  | _ => rfl

theorem dacFrame_soft (P : Params) (p : Payload) (e : Env) :
    dacFrame P (unpackBytes (packCode (writeCode .soft p))) e = dacSoft P p e := by
  rw [unpackBytes_packCode, dacFrame_of (opcodeOf_writeCode .soft p), payloadOf_writeCode]
  rfl

theorem dacFrame_nop (P : Params) (e : Env) : dacFrame P (unpackBytes (packCode encNop)) e = dacNop e := by
  rw [unpackBytes_packCode, dacFrame_of (n := 0) rfl]
  rfl

theorem dacFrame_read (P : Params) {r : Reg} (hr : r ≠ .soft) (e : Env) :
    dacFrame P (unpackBytes (packCode (encRead r))) e = dacRead r e := by
  rw [unpackBytes_packCode]
  cases r with
  | data => rw [dacFrame_of (n := 9) (by decide)]; rfl
  | control => rw [dacFrame_of (n := 10) (by decide)]; rfl
  | clear => rw [dacFrame_of (n := 11) (by decide)]; rfl
  | soft => exact absurd rfl hr

/-! ### Register access and voltage against the reference peer -/

/-- `REG_WRITE` of a legal payload against the reference peer: the DAC has executed the write and NOP. -/
theorem regWrite_ref {r : Reg} {p : Payload} {s : State} (hw : WellBehaved s) (hp : p &&& regMask s.params r = p) :
   ∃ e evs, e.mode = .reference ∧ e.replies = [] ∧ e.dac = (transferred [packCode (writeCode r p),
       packCode encNop] s).2.dac ∧ regWrite r p s = (.ok (), { s.after e evs with seq := Seq.idle }) := by
  obtain ⟨e, h1, h2, h3, h4⟩ := noFetch_ref (packFrames_pair (writeCode r p) encNop) hw
  change runBatch _ [.none, .none] s = _ at h4
  refine ⟨e, writeEvents (writeCode r p), h1, h2, h3, ?_⟩
  unfold regWrite encWrite
  rw [if_pos hp]
  unfold Act.map
  dsimp only
  rw [h4]
  rfl

/-- `REG_READ` against the reference peer returns the register and leaves the DAC but for the code it shifts out. -/
theorem regRead_ref {r : Reg} {s : State} (hw : WellBehaved s) (hr : r ≠ .soft)
    (hl : s.env.dac.read r &&& regMask s.params r = s.env.dac.read r) :
   ∃ e evs, e.mode = .reference ∧ e.replies = [] ∧ e.dac = { s.env.dac with sdo := e.dac.sdo } ∧
       regRead r s = (.ok (s.env.dac.read r), { s.after e evs with seq := Seq.idle }) := by
  have ht : transferred [packCode (encRead r),
      packCode encNop] s = ([some (packCode (openedEnv [packCode (encRead r),
      packCode encNop] s.env).drawSdo.dac.sdo),
      some (packCode (dacRead r (openedEnv [packCode (encRead r), packCode encNop] s.env).drawSdo).dac.sdo)],
          dacNop (dacRead r (openedEnv [packCode (encRead r), packCode encNop] s.env).drawSdo)) := by
    unfold transferred
    simp only [List.map_cons, List.map_nil, transfer, dacFrame_read _ hr, dacFrame_nop]
  generalize he0 : (openedEnv [packCode (encRead r), packCode encNop] s.env).drawSdo = e0 at ht
  have hd0 : e0.dac.read r = s.env.dac.read r := by rw [← he0]; cases r <;> simp [openedEnv, Dac.read]
  have hdac : e0.dac = { s.env.dac with sdo := e0.dac.sdo } := by rw [← he0]; simp [openedEnv]
  obtain ⟨e, h1, h2, h3, h4⟩ := readLast_ref (packFrames_pair (encRead r) encNop) (m := 1) (r := r) rfl hw (t :=
      packCode (dacRead r e0).dac.sdo) (by rw [ht]; rfl)
  refine ⟨e, readEvents (encRead r) (packCode (dacRead r e0).dac.sdo), h1, h2, ?_, ?_⟩
  · rw [h3, ht]; simp [dacNop, dacRead]; rw [hdac]; simp
  · unfold regRead Act.map
    have h4' : runBatch _ [.none, .reg r] s = _ := h4
    rw [h4']
    have hs : (dacRead r e0).dac.sdo = readAnswer e0.draw.1 r (s.env.dac.read r) := by simp [dacRead, hd0]
    rw [unpackBytes_packCode, hs, decReadback_readAnswer _ _ _ _ hl]
    simp [Except.map, resultPayload, (readAnswer_fields _ _ _).2]
    rfl

/-- `SET_VOLTAGE` against the reference peer: DATA takes the code, the output too unless the trigger is deferred. -/
theorem setVoltage_ref {v : Volt} {c : Payload} {s : State} (hw : WellBehaved s) (hv : v2c s.params v true = .ok c) :
   ∃ e evs, e.mode = .reference ∧ e.replies = [] ∧ e.dac = { s.env.dac with sdo := e.dac.sdo, data := c, out :=
       if s.defer then s.env.dac.out else c } ∧
   setVoltage v s = (.ok c, { s.after e evs with seq := Seq.idle }) := by
  let tx := [packCode (writeCode .data c), packCode (encRead .data), packCode (triggerFrame s.defer)]
  generalize he0 : (openedEnv tx s.env).drawSdo = e0
  have hdac : e0.dac = { s.env.dac with sdo := e0.dac.sdo } := by rw [← he0]; simp [openedEnv]
  have hm := (regMask_full s.params c).1
  let e1 := dacWrite s.params .data c e0
  have ht : transferred tx s = ([some (packCode e0.dac.sdo), some (packCode e1.dac.sdo),
      some (packCode (dacRead .data e1).dac.sdo)],
       if s.defer then dacNop (dacRead .data e1) else dacSoft s.params softLdacBit (dacRead .data e1)) := by
    unfold transferred
    rw [he0]
    have hd : dacFrame s.params (unpackBytes (packCode (triggerFrame s.defer)))
        (dacRead .data e1) = if s.defer then dacNop (dacRead .data e1) else dacSoft s.params softLdacBit (dacRead .data e1) := by
      cases s.defer
      · exact dacFrame_soft _ _ _
      · exact dacFrame_nop _ _
    simp only [tx, List.map_cons, List.map_nil, transfer, dacFrame_read _ (show Reg.data ≠ .soft by decide),
        dacFrame_write _ (show Reg.data ≠ .soft by decide)]
    rw [hd]
  obtain ⟨e, h1, h2, h3, h4⟩ := readLast_ref (packFrames_triple (writeCode .data c) (encRead .data)
      (triggerFrame s.defer)) (m := 2) (r := .data) rfl hw (t := packCode (dacRead .data e1).dac.sdo)
      (by show (transferred tx s).1[2]? = _; rw [ht]; rfl)
  have he1 : e1.dac = { s.env.dac with sdo := e1.dac.sdo, data := c } := by
    simp [e1, dacWrite, Dac.write, hm]; rw [hdac]; simp
  refine ⟨e, voltageEvents c s.defer (packCode (dacRead .data e1).dac.sdo), h1, h2, ?_, ?_⟩
  · rw [h3]
    show (transferred tx s).2.dac = { s.env.dac with sdo := (transferred tx s).2.dac.sdo, data := c, out :=
        if s.defer then s.env.dac.out else c }
    rw [ht]
    cases s.defer
    · simp [dacSoft, softLdacBit, dacLdac, dacRead]; rw [he1]; simp
    · simp [dacNop, dacRead]; rw [he1]; simp
  · have h4' : runBatch _ [.none, .none, .reg .data] s = _ := h4
    unfold setVoltage
    rw [hv]
    unfold Act.map
    dsimp only
    rw [h4']
    have hs : (dacRead .data e1).dac.sdo = readAnswer e1.draw.1 .data c := by simp [dacRead]; rw [he1]; rfl
    rw [unpackBytes_packCode, hs, decReadback_readAnswer _ _ _ _ hm]
    simp [Except.map, resultPayload, (readAnswer_fields _ _ _).2]
    rfl

/-- The states of the peer while a batch is transferred (R214). -/
theorem transfer_states (P : Params) (frames : List Triple) (e : Env) :
    ∃ (states : List Env) (last : Env), states.length = frames.length ∧ (states ++ [last])[0]? = some e ∧
      (∀ i f d, frames[i]? = some f → states[i]? = some d →
        (states ++ [last])[i + 1]? = some (dacFrame P (unpackBytes f) d)) ∧
      transfer P (frames.map some) e = (states.map fun d => some (packCode d.dac.sdo), last) := by
  induction frames generalizing e with
  | nil => exact ⟨[], e, rfl, rfl, by simp, rfl⟩
  | cons f fs ih =>
    obtain ⟨states, last, h1, h2, h3, h4⟩ := ih (dacFrame P (unpackBytes f) e)
    refine ⟨e :: states, last, by simp [h1], rfl, ?_, ?_⟩
    · intro i g d hg hd
      cases i with
      | zero =>
        simp only [List.getElem?_cons_zero, Option.some.injEq] at hg hd
        rw [← hg, ← hd]
        exact h2
      | succ i => exact h3 i g d hg hd
    · simp only [List.map_cons, transfer, h4]

end Sys2Proof.Machine
end

