-- ==== Sys2Proof/Laws/Staged.lean ====
section
/-! SUPPORT. The frames that the block stages of its own accord are legal codes, the payloads it returns are legal,
and a flag command whose read fails is that read (30_encoding.md R80;
42_register_model.md R122, R135). -/

namespace Sys2Proof.Machine

open Sys2Proof.Safety

/-- The frame decodes to a well-formed wire command (R76, R80). -/
def LegalFrame (P : Params) (u : Triple) : Prop := ∃ j, decode (.wire u) = .ok j ∧ j.wellFormed P = true

/-- The trace grows, and every frame staged in what was added is legal. -/
def LegalGrows (s t : State) : Prop :=
  t.params = s.params ∧ ∃ evs, t.trace = s.trace ++ evs ∧ ∀ ev ∈ evs, ∀ k u, ev.line = .stage k u →
      LegalFrame s.params u

theorem LegalGrows.refl (s : State) : LegalGrows s s := ⟨rfl, [], by simp, by simp⟩

theorem LegalGrows.trans {a b c} (h : LegalGrows a b) (k : LegalGrows b c) : LegalGrows a c := by
  obtain ⟨h1, e1, h2, h3⟩ := h
  obtain ⟨k1, e2, k2, k3⟩ := k
  refine ⟨k1.trans h1, e1 ++ e2, by rw [k2, h2, List.append_assoc], ?_⟩
  intro ev hev
  rcases List.mem_append.1 hev with h | h
  · exact h3 ev h
  · rw [← h1]; exact k3 ev h

theorem emit_link_grows {l : Line} (hl : isLinkLine l = true) (s : State) : LegalGrows s (emit l s).2 := by
  refine ⟨rfl, [⟨l, (emit l s).1⟩], rfl, ?_⟩
  intro ev hev k u h
  rw [List.mem_singleton.1 hev] at h
  subst h; cases hl

theorem sendLines_grows {ls : List Line} (hl : ∀ l ∈ ls, isLinkLine l = true) : Keeps LegalGrows (sendLines ls) := by
  induction ls with
  | nil => exact fun s => LegalGrows.refl s
  | cons l ls ih =>
    exact Keeps.andThen (R := LegalGrows) (fun _ _ _ h k => h.trans k)
        (fun s => emit_link_grows (hl l (by simp)) s) fun _ => ih fun m hm => hl m (by simp [hm])

theorem stageLines_mem {i : Nat} {ts : List Triple} {k u} (h : Line.stage k u ∈ stageLines i ts) : u ∈ ts := by
  induction ts generalizing i with
  | nil => cases h
  | cons t ts ih =>
    rcases List.mem_cons.1 h with h | h
    · injection h with _ h; simp [h]
    · simp [ih h]

theorem fetchLines_noStage {i : Nat} {xs : List Expect} {k u} (h : Line.stage k u ∈ fetchLines i xs) : False := by
  induction xs generalizing i with
  | nil => cases h
  | cons x xs ih =>
    cases x with
    | none => exact ih h
    | raw => rcases List.mem_cons.1 h with h | h; cases h; exact ih h
    | reg r => rcases List.mem_cons.1 h with h | h; cases h; exact ih h

theorem runBatch_grows {frames xs tx} (hp : packFrames 0 frames = .ok tx) (hx : xs.length = tx.length) (s : State)
    (hl : ∀ u ∈ tx, LegalFrame s.params u) : LegalGrows s (runBatch frames xs s).2 := by
  have hm : (runBatch frames xs s).2.params = s.params := (runBatch_within frames xs s).params
  refine ⟨hm, ?_⟩
  rcases runBatch_shape hp hx s with ⟨e, _, hr⟩ | ⟨e, evs, r, a', _, _, h1, _, hr⟩
  · rw [hr]
    refine ⟨_, rfl, ?_⟩
    intro ev hev k u h
    rw [List.mem_singleton.1 hev] at h
    cases h
  · rw [hr]
    refine ⟨_, rfl, ?_⟩
    intro ev hev k u h
    have hb : ∀ ev ∈ evs, ev.line ∈ bodyLines tx xs := fun ev hev => h1.subset (List.mem_map_of_mem hev)
    simp only [List.cons_append, List.mem_cons, List.mem_append, List.not_mem_nil, or_false] at hev
    rcases hev with rfl | hev | rfl
    · cases h
    · have := hb ev hev
      rw [h] at this
      unfold bodyLines at this
      rcases List.mem_append.1 this with h | h
      · exact hl u (stageLines_mem h)
      · rcases List.mem_cons.1 h with h | h
        · cases h
        · exact (fetchLines_noStage h).elim
    · cases h

theorem legal_nop (P) : LegalFrame P (packCode encNop) := ⟨.wireNop, by decide, rfl⟩

theorem legal_read (P) (r : Reg) : LegalFrame P (packCode (encRead r)) := by
  cases r
  · exact ⟨.wireRdData, by decide, rfl⟩
  · exact ⟨.wireRdControl, by decide, rfl⟩
  · exact ⟨.wireRdClear, by decide, rfl⟩
  · exact ⟨.wireRdSoft, by decide, rfl⟩

theorem legal_write (P) {r : Reg} {p : Payload} (h : p &&& regMask P r = p) :
    LegalFrame P (packCode (writeCode r p)) := by
  have ho := opcodeOf_writeCode r p
  have hp := payloadOf_writeCode r p
  have hd : decode (.wire (packCode (writeCode r p))) = decodeWire (writeCode r p) := by
    show decodeWire (unpackBytes (packCode (writeCode r p))) = _
    rw [unpackBytes_packCode]
  unfold LegalFrame
  rw [hd]
  unfold decodeWire
  rw [ho, hp]
  cases r with
  | data => exact ⟨.wireWrData p, rfl, rfl⟩
  | control => exact ⟨.wireWrControl p, rfl, by simpa [Instr.wellFormed] using h⟩
  | clear => exact ⟨.wireWrClear p, rfl, rfl⟩
  | soft =>
    refine ⟨softWrite p, rfl, ?_⟩
    by_cases h1 : p = 1#20
    · rw [h1]; rfl
    by_cases h2 : p = 2#20
    · rw [h2]; rfl
    by_cases h4 : p = 4#20
    · rw [h4]; rfl
    rw [Laws.RoundTrip.softWrite_other h1 h2 h4]
    simp [Instr.wellFormed, h, h1, h2, h4]

theorem runBatch_pair_grows {a b : Code} {x y} {s : State} (ha : LegalFrame s.params (packCode a))
    (hb : LegalFrame s.params (packCode b)) : LegalGrows s (runBatch [frameOf a, frameOf b] [x, y] s).2 := by
  have hp := packFrames_pair a b
  have hl : [x, y].length = [packCode a, packCode b].length := by simp only [List.length_cons, List.length_nil]
  refine runBatch_grows hp hl s ?_
  intro u hu
  rcases List.mem_cons.1 hu with rfl | hu
  · exact ha
  · rcases List.mem_cons.1 hu with rfl | hu
    · exact hb
    · cases hu

theorem regRead_grows (r) : Keeps LegalGrows (regRead r) := fun s => by
  unfold regRead
  rewrite [map_snd]
  exact runBatch_pair_grows (legal_read _ _) (legal_nop _)

theorem regWrite_grows (r p) : Keeps LegalGrows (regWrite r p) := fun s => by
  unfold regWrite encWrite
  by_cases h : p &&& regMask s.params r = p
  · rewrite [if_pos h]
    dsimp only
    rewrite [map_snd]
    exact runBatch_pair_grows (legal_write _ h) (legal_nop _)
  · rw [if_neg h]; exact LegalGrows.refl s

theorem LegalGrows.andThen {α β} {f : Act α} {g : α → Act β} (hf : Keeps LegalGrows f) (hg : ∀ a,
    Keeps LegalGrows (g a)) : Keeps LegalGrows (Act.andThen f g) := Keeps.andThen (R := LegalGrows)
    (fun _ _ _ h k => h.trans k) hf hg

theorem setFlag_grows (m b) : Keeps LegalGrows (setFlag m b) := fun s =>
  LegalGrows.andThen (regRead_grows .control) (fun _ => regWrite_grows .control _) s

theorem setVoltage_grows (v) : Keeps LegalGrows (setVoltage v) := fun s => by
  unfold setVoltage
  split
  · exact LegalGrows.refl s
  · next c _ =>
    have hp := packFrames_triple (writeCode .data c) (encRead .data) (triggerFrame s.defer)
    have hl : [Expect.none, .none, .reg .data].length = [packCode (writeCode .data c), packCode (encRead .data),
        packCode (triggerFrame s.defer)].length := by simp only [List.length_cons, List.length_nil]
    rewrite [map_snd]
    refine runBatch_grows hp hl s ?_
    intro u hu
    rcases List.mem_cons.1 hu with rfl | hu
    · exact legal_write _ (regMask_full _ _).1
    · rcases List.mem_cons.1 hu with rfl | hu
      · exact legal_read _ _
      · rcases List.mem_cons.1 hu with rfl | hu
        · cases s.defer
          · exact legal_write s.params (r := .soft) (p := softLdacBit)
              (by show softLdacBit &&& 7#20 = softLdacBit; decide)
          · exact legal_nop _
        · cases hu

/-! ### What `REG_READ` returns -/

/-- A payload that `DEC_READBACK` accepts is the code's payload and lies inside the register's mask (R124). -/
theorem decReadback_legal {P : Params} {r : Reg} {c : Code} {p : Payload} (h : decReadback P r c = .ok p) :
    p = payloadOf c ∧ p &&& regMask P r = p := by
  unfold decReadback at h
  split at h
  · cases h
  · split at h
    · cases h
    · next hm => injection h with h; subst h; exact ⟨rfl, not_not.1 hm⟩

/-- A code fetched for register `r` carries a payload inside its mask. -/
theorem fetchOne_legal {i : Nat} {r : Reg} {s : State} {c : Code} (h : (fetchOne i (.reg r) s).1 = .ok c) :
    payloadOf c &&& regMask s.params r = payloadOf c := by
  unfold fetchOne checkResponse at h
  dsimp only at h
  split at h
  · next t _ =>
    cases hd : decReadback s.params r (unpackBytes t) with
    | error e => rw [hd] at h; cases h
    | ok q =>
      rw [hd] at h
      injection h with h
      obtain ⟨h1, h2⟩ := decReadback_legal hd
      rw [← h, ← h1]
      exact h2
  · cases h


/-- The fetch of a `REG_READ` batch ends in a payload inside the mask. -/
theorem fetchRun_pair_legal {r : Reg} {s : State} {v : List (Option Code)}
    (h : (fetchRun 0 [.none, .reg r] s).1 = .ok v) :
    resultPayload 1 v &&& regMask s.params r = resultPayload 1 v := by
  change Except.map (none :: ·) (fetchRun 1 [.reg r] s).1 = .ok v at h
  have hrun : fetchRun 1 [.reg r]
      = Act.andThen (fetchOne 1 (.reg r)) fun c => Act.map (fetchRun 2 []) (some c :: ·) := rfl
  rw [hrun] at h
  cases hc : (fetchOne 1 (.reg r) s).1 with
  | error e => rw [andThen_error hc] at h; cases h
  | ok c =>
    rw [andThen_ok hc] at h
    injection h with h
    rw [← h]
    exact fetchOne_legal hc

/-- A command that completes with a value is an action that answered it. -/
theorem runAct_completed {f : Act Value} {s : State} {v : Value} (h : (runAct f s).completion = some (.ok v)) :
    (f s).1 = .ok v := by
  unfold runAct at h
  cases hf : (f s).1 with
  | error e => rw [hf] at h; cases h
  | ok w => rw [hf] at h; injection h with h; injection h with h; rw [h]

/-- An action that answers its payload as a value answered that payload. -/
theorem map_payload {f : Act Payload} {s : State} {p : Payload} (h : (Act.map f Value.payload s).1 = .ok (Value.payload p)) :
    (f s).1 = .ok p := by
  rw [map_fst] at h
  cases hf : (f s).1 with
  | error e => rw [hf] at h; cases h
  | ok w => rw [hf] at h; injection h with h; injection h with h; rw [h]

/-- Every payload that `REG_READ` returns is inside the register's mask (R135). -/
theorem regRead_legal {r : Reg} {s : State} {p : Payload} (h : (regRead r s).1 = .ok p) :
    p &&& regMask s.params r = p := by
  unfold regRead at h
  rewrite [map_fst] at h
  have hx : ([Expect.none, .reg r]).length = [packCode (encRead r), packCode encNop].length := by
    simp only [List.length_cons, List.length_nil]
  generalize hb : [Expect.none, .reg r] = xs at h hx
  rewrite [runBatch_line (packFrames_pair _ _) hx] at h
  subst hb
  split at h
  · cases h
  · generalize ht : (emit (.create _) s).2 = t at h
    have hP : t.params = s.params := by rw [← ht]; rfl
    unfold closeBatch at h
    dsimp only at h
    cases hv : (batchBody [packCode (encRead r), packCode encNop] [.none, .reg r] t).1 with
    | error e => rewrite [hv] at h; cases h
    | ok v =>
      rewrite [hv] at h
      dsimp only at h
      split at h
      · cases h
      · injection h with h
        subst h
        unfold batchBody at hv
        cases hs : (sendLines (stageLines 0 [packCode (encRead r), packCode encNop] ++ [.pass]) t).1 with
        | error e => rewrite [andThen_error hs] at hv; cases hv
        | ok u =>
          rewrite [andThen_ok hs] at hv
          have hl := fetchRun_pair_legal hv
          rewrite [(sendLines_within _ t).toWithin.params, hP] at hl
          exact hl

/-! ### Commands whose CONTROL read fails -/

/-- A command that completes with an error is an action that ended in it. -/
theorem runAct_failed {f : Act Value} {s : State} {x : Err} (h : (runAct f s).completion = some (.err x)) :
    (f s).1 = .error x := by
  unfold runAct at h
  cases hf : (f s).1 with
  | error e => rw [hf] at h; injection h with h; injection h with h; rw [h]
  | ok w => rw [hf] at h; cases h

/-- Rewriting a value leaves an error. -/
theorem map_failed {α β : Type} {f : Act α} {g : α → β} {s : State} {x : Err} (h : (Act.map f g s).1 = .error x) :
    (f s).1 = .error x := by
  rw [map_fst] at h
  cases hf : (f s).1 with
  | error e => rw [hf] at h; injection h with h; rw [h]
  | ok w => rw [hf] at h; cases h

/-- A `REG_READ` that completes with an error: its action ended in that error (R125, R236). -/
theorem regRead_next_error {r : Reg} {s t : State} {x : Err} (h : exec (.regRead r) s = .next t)
    (hx : t.completion = some (.err x)) :
    s.seq.phase = .idle ∧ s.sess = .claimed ∧ (regRead r s).1 = .error x ∧
      t = complete (.error x) (regRead r s).2 := by
  obtain ⟨h1, h2, h3⟩ := ioCommand_next (f := Act.map (regRead r) Value.payload) h
  rewrite [h3] at hx
  have hr := map_failed (runAct_failed hx)
  refine ⟨h1, h2, hr, ?_⟩
  rewrite [h3, runAct_error (e := x) (by rewrite [map_fst, hr]; rfl), map_snd]
  rfl

/-- A flag getter whose CONTROL read fails is that read (R127, R129). -/
theorem getFlag_failed {m : Payload} {g : Bool → Value} {s t : State} {x : Err} (h : exec (.regRead .control) s = .next t)
    (hx : t.completion = some (.err x)) : ioCommand (Act.map (getFlag m) g) s = .next t := by
  obtain ⟨h1, h2, h3, rfl⟩ := regRead_next_error h hx
  have h4 : (getFlag m s).1 = .error x := by unfold getFlag; rewrite [map_fst, h3]; rfl
  have h5 : (getFlag m s).2 = (regRead .control s).2 := by unfold getFlag; rewrite [map_snd]; rfl
  rewrite [ioCommand_ready _ h1 h2, runAct_error (e := x) (by rewrite [map_fst, h4]; rfl), map_snd, h5]
  rfl

/-- A flag setter whose CONTROL read fails is that read: no second batch (R128, R130, R236 c). -/
theorem setFlag_failed {m : Payload} {b : Bool} {g : Unit → Value} {s t : State} {x : Err}
    (h : exec (.regRead .control) s = .next t) (hx : t.completion = some (.err x)) :
    ioCommand (Act.map (setFlag m b) g) s = .next t := by
  obtain ⟨h1, h2, h3, rfl⟩ := regRead_next_error h hx
  have h4 : setFlag m b s = (.error x, (regRead .control s).2) := andThen_error h3
  rewrite [ioCommand_ready _ h1 h2, runAct_error (e := x) (by rewrite [map_fst, h4]; rfl), map_snd, h4]
  rfl

end Sys2Proof.Machine
end

