-- ==== Sys2Proof/Laws/ViaBatch.lean ====
section
/-! SUPPORT. Commands that are one `RUN_BATCH`, and flag commands that are a CONTROL read and what follows it, for every
peer (42_register_model.md R125 to R133, 44_facade.md R180, R181; 60_exceptions.md R236 b, c). -/

namespace Sys2Proof.Machine
open Sys2Proof.Safety

/-! ### What a batch that ends well has fetched -/

/-- The fetches that end well leave a code in every slot that expects something. -/
theorem fetchRun_wanted {i : Nat} {xs : List Expect} {s : State} {v : List (Option Code)}
    (h : (fetchRun i xs s).1 = .ok v) {j : Nat} {x : Expect} (hx : xs[j]? = some x) (hn : x ≠ .none) :
    ∃ c, v[j]? = some (some c) := by
  induction xs generalizing i s v j with
  | nil => cases hx
  | cons y ys ih =>
    by_cases hy : y = .none
    · subst hy
      change ((fetchRun (i + 1) ys s).1).map _ = _ at h
      cases hr : (fetchRun (i + 1) ys s).1 with
      | error e => rw [hr] at h; cases h
      | ok w =>
        rw [hr] at h
        injection h with h
        subst h
        cases j with
        | zero => injection hx with hx; exact absurd hx.symm hn
        | succ j => exact ih hr hx
    · have hrun : fetchRun i (y :: ys) s
          = Act.andThen (fetchOne i y) (fun c => Act.map (fetchRun (i + 1) ys) (some c :: ·)) s := by
        cases y <;> first | rfl | exact absurd rfl hy
      rw [hrun] at h
      cases hc : (fetchOne i y s).1 with
      | error e => rw [andThen_error hc] at h; cases h
      | ok c =>
        rw [andThen_ok hc, map_fst] at h
        cases hr : (fetchRun (i + 1) ys (fetchOne i y s).2).1 with
        | error e => rw [hr] at h; cases h
        | ok w =>
          rw [hr] at h
          injection h with h
          subst h
          cases j with
          | zero => exact ⟨c, rfl⟩
          | succ j => exact ih hr hx

/-- A batch that ends well has a code in every slot that expects something (R151, R155). -/
theorem runBatch_wanted {frames : List Int} {tx : List Triple} (hp : packFrames 0 frames = .ok tx) {xs : List Expect}
    (hl : xs.length = tx.length) {s : State} {v : List (Option Code)} (h : (runBatch frames xs s).1 = .ok v)
    {j : Nat} {x : Expect} (hx : xs[j]? = some x) (hn : x ≠ .none) : ∃ c, v[j]? = some (some c) := by
  rw [runBatch_line hp hl] at h
  split at h
  · cases h
  · unfold closeBatch at h
    dsimp only at h
    cases hb : (batchBody tx xs (emit (.create tx.length) s).2).1 with
    | error e => rw [hb] at h; cases h
    | ok w =>
      rw [hb] at h
      dsimp only at h
      split at h
      · cases h
      · injection h with h
        subst h
        unfold batchBody at hb
        cases ho : (sendLines (stageLines 0 tx ++ [.pass]) (emit (.create tx.length) s).2).1 with
        | error e => rw [andThen_error ho] at hb; cases hb
        | ok u => rw [andThen_ok ho] at hb; exact fetchRun_wanted hb hx hn

/-! ### Commands of one batch -/

theorem map_map {α β γ : Type} (f : Act α) (g : α → β) (h : β → γ) :
    Act.map (Act.map f g) h = Act.map f fun a => h (g a) := by
  funext s
  unfold Act.map
  cases (f s).1 <;> rfl

/-- An I/O command depends on its action at the one state only. -/
theorem ioCommand_congr {f g : Act Value} {s : State} (h : f s = g s) : ioCommand f s = ioCommand g s := by
  unfold ioCommand runAct
  rw [h]

/-- A command that is one batch and a function of its codes, for every peer: where `RUN_BATCH` of that batch completes
with an error it is that `RUN_BATCH`; else it differs from it in the value it returns (R237, R239). -/
theorem ioCommand_batch (frames : List Int) (xs : List Expect) (g : List (Option Code) → Value) {s u : State}
    (hu : execRunBatch frames xs s = .next u) :
    (∃ x, u.completion = some (.err x) ∧ ioCommand (Act.map (runBatch frames xs) g) s = .next u) ∨
    ∃ cs, (runBatch frames xs s).1 = .ok cs ∧ u.completion = some (.ok (.codes cs)) ∧
      ioCommand (Act.map (runBatch frames xs) g) s = .next { u with completion := some (.ok (g cs)) } := by
  unfold execRunBatch at hu
  split at hu
  · cases hu
  obtain ⟨h1, h2, rfl⟩ := ioCommand_next hu
  rw [ioCommand_ready _ h1 h2]
  cases hr : (runBatch frames xs s).1 with
  | error e =>
    left
    refine ⟨e, ?_, ?_⟩
    · rw [runAct_error (e := e) (by rw [map_fst, hr]; rfl)]
    · rw [runAct_error (e := e) (by rw [map_fst, hr]; rfl), runAct_error (e := e) (by rw [map_fst, hr]; rfl)]
      rfl
  | ok cs =>
    right
    refine ⟨cs, rfl, ?_, ?_⟩
    · rw [runAct_ok (v := .codes cs) (by rw [map_fst, hr]; rfl)]
    · rw [runAct_ok (v := g cs) (by rw [map_fst, hr]; rfl), runAct_ok (v := .codes cs) (by rw [map_fst, hr]; rfl)]
      rfl

theorem resultPayload_of {i : Nat} {res : List (Option Code)} {c : Code} (h : res[i]? = some (some c)) :
    resultPayload i res = c.extractLsb' 0 20 := by
  unfold resultPayload
  rw [h]
  rfl

/-- A command that is one batch of which one fetched code is read, for every peer. -/
theorem ioCommand_fetch {frames : List Int} {tx : List Triple} (hp : packFrames 0 frames = .ok tx) {xs : List Expect}
    (hl : xs.length = tx.length) {j : Nat} {x : Expect} (hx : xs[j]? = some x) (hn : x ≠ .none)
    (g : Payload → Value) {s u : State} (hu : execRunBatch frames xs s = .next u) :
    (∃ x, u.completion = some (.err x) ∧
      ioCommand (Act.map (runBatch frames xs) fun cs => g (resultPayload j cs)) s = .next u) ∨
    ∃ cs c, u.completion = some (.ok (.codes cs)) ∧ cs[j]? = some (some c) ∧
      ioCommand (Act.map (runBatch frames xs) fun cs => g (resultPayload j cs)) s
        = .next { u with completion := some (.ok (g (c.extractLsb' 0 20))) } := by
  rcases ioCommand_batch frames xs (fun cs => g (resultPayload j cs)) hu with h | ⟨cs, h1, h2, h3⟩
  · exact .inl h
  · obtain ⟨c, hc⟩ := runBatch_wanted hp hl h1 hx hn
    refine .inr ⟨cs, c, h2, hc, ?_⟩
    rw [h3, resultPayload_of hc]

/-! ### The batches of the commands -/

/-- The frame operand of a read (R123). -/
theorem frameOf_encRead (r : Reg) : frameOf (encRead r) = 8388608 + ((selectCode r).toNat : Int) * 1048576 := by
  unfold frameOf
  rw [encRead_toNat]
  push_cast
  rfl

/-- The frame operand of a write (R122). -/
theorem frameOf_writeCode (r : Reg) (p : Payload) :
    frameOf (writeCode r p) = ((selectCode r).toNat : Int) * 1048576 + p.toNat := by
  unfold frameOf
  rw [writeCode_toNat]
  push_cast
  rfl

/-- `REG_WRITE` of a legal payload is its batch (R126). -/
theorem regWrite_legal {r : Reg} {p : Payload} {s : State} (hp : p &&& regMask s.params r = p) :
    regWrite r p s = Act.map (runBatch [frameOf (writeCode r p), frameOf encNop] [.none, .none]) (fun _ => ()) s := by
  unfold regWrite encWrite
  rw [if_pos hp]

/-- `SET_VOLTAGE` inside the references is its batch (R181). -/
theorem setVoltage_inside {v : Volt} {c : Payload} {s : State} (hv : v2c s.params v true = .ok c) :
    setVoltage v s = Act.map
      (runBatch [frameOf (writeCode .data c), frameOf (encRead .data), frameOf (triggerFrame s.defer)]
        [.none, .none, .reg .data]) (resultPayload 2) s := by
  unfold setVoltage
  rw [hv]

/-- An action with its value rewritten depends on the action at the one state only. -/
theorem map_congr {α β : Type} {f f' : Act α} {s : State} (h : f s = f' s) (g : α → β) :
    Act.map f g s = Act.map f' g s := by
  unfold Act.map
  rw [h]

/-! ### Actions that do not look at the last completion -/

/-- The action neither reads nor writes the completion of the last command. -/
def CompletionBlind {α : Type} (f : Act α) : Prop :=
  ∀ s c, f { s with completion := c } = ((f s).1, { (f s).2 with completion := c })

theorem CompletionBlind.map {α β : Type} {f : Act α} (hf : CompletionBlind f) (g : α → β) :
    CompletionBlind (Act.map f g) := fun s c => by
  unfold Act.map
  rw [hf s c]

theorem CompletionBlind.andThen {α β : Type} {f : Act α} {g : α → Act β} (hf : CompletionBlind f)
    (hg : ∀ a, CompletionBlind (g a)) : CompletionBlind (Act.andThen f g) := fun s c => by
  unfold Act.andThen
  rw [hf s c]
  cases (f s).1 with
  | error e => rfl
  | ok a => exact hg a _ c

theorem sendLines_completionBlind (ls : List Line) : CompletionBlind (sendLines ls) := by
  induction ls with
  | nil => exact fun _ _ => rfl
  | cons l ls ih => exact CompletionBlind.andThen (f := sendLine l) (fun _ _ => rfl) fun _ => ih

theorem fetchRun_completionBlind (i : Nat) (xs : List Expect) : CompletionBlind (fetchRun i xs) := by
  have hone : ∀ i x, CompletionBlind (fetchOne i x) := fun _ _ _ _ => rfl
  induction xs generalizing i with
  | nil => exact fun _ _ => rfl
  | cons x xs ih =>
    cases x with
    | none => exact (ih _).map _
    | raw => exact (hone _ _).andThen fun _ => (ih _).map _
    | reg r => exact (hone _ _).andThen fun _ => (ih _).map _

theorem runBatch_completionBlind {frames : List Int} {tx : List Triple} (hp : packFrames 0 frames = .ok tx)
    {xs : List Expect} (hl : xs.length = tx.length) : CompletionBlind (runBatch frames xs) := fun s c => by
  have hb : CompletionBlind (batchBody tx xs) :=
    (sendLines_completionBlind _).andThen fun _ => fetchRun_completionBlind _ _
  rw [runBatch_line hp hl, runBatch_line hp hl]
  have he : emit (.create tx.length) { s with completion := c }
      = ((emit (.create tx.length) s).1, { (emit (.create tx.length) s).2 with completion := c }) := rfl
  rw [he]
  dsimp only
  split
  · rfl
  · unfold closeBatch
    rw [hb]
    rfl

theorem regWrite_completionBlind (r : Reg) (p : Payload) : CompletionBlind (regWrite r p) := fun s c => by
  unfold regWrite
  dsimp only
  split
  · rfl
  · exact ((runBatch_completionBlind (packFrames_pair _ _) (Eq.refl 2)).map _) s c

/-- A completed action does not depend on what the last command completed with. -/
theorem CompletionBlind.runAct {f : Act Value} (hf : CompletionBlind f) (s : State) (c : Option Completion) :
    runAct f { s with completion := c } = runAct f s := by
  unfold Machine.runAct
  rw [hf s c]
  cases (f s).1 <;> rfl

/-! ### Flags -/

theorem regRead_phase (r : Reg) {s : State} (h : s.seq.phase = .idle) : (regRead r s).2.seq.phase = .idle := by
  unfold regRead
  rewrite [map_snd]
  exact runBatch_phase _ _ s h

/-- A flag setter whose CONTROL read succeeds is that read and then the write of the changed payload, whatever the peer
(R128, R130, R236 c). -/
theorem setFlag_then (m : Payload) (b : Bool) {s t : State} {p : Payload} (h : execRegRead .control s = .next t)
    (hp : t.completion = some (.ok (.payload p))) :
    ioCommand (Act.map (setFlag m b) fun _ => .none) s = execRegWrite .control (withFlag s.params m b p) t := by
  obtain ⟨h1, h2, rfl⟩ := ioCommand_next h
  cases hr : (regRead .control s).1 with
  | error e =>
    rw [runAct_error (e := e) (by rw [map_fst, hr]; rfl)] at hp
    cases hp
  | ok q =>
    rw [runAct_ok (v := .payload q) (by rw [map_fst, hr]; rfl)] at hp ⊢
    obtain rfl : q = p := by injection hp with hp; injection hp with hp; injection hp with hp
    have hf : setFlag m b s = regWrite .control (withFlag s.params m b q) (regRead .control s).2 := andThen_ok hr
    have hi := regRead_phase .control h1
    have hs := (regRead_within .control s).sess.trans h2
    rewrite [ioCommand_ready _ h1 h2, map_snd]
    generalize (regRead .control s).2 = t at hf hi hs
    unfold execRegWrite
    refine Eq.trans ?_ (ioCommand_ready _ (s := { t with completion := some (.ok (.payload q)) }) hi hs).symm
    rewrite [CompletionBlind.runAct ((regWrite_completionBlind .control _).map _)]
    unfold Machine.runAct Act.map
    rw [hf]

/-- A flag getter whose CONTROL read succeeds is that read, with one bit of its payload as the value (R127, R129). -/
theorem getFlag_value (m : Payload) {s t : State} {p : Payload} (h : execRegRead .control s = .next t)
    (hp : t.completion = some (.ok (.payload p))) :
    ioCommand (Act.map (getFlag m) .bool) s = .next { t with completion := some (.ok (.bool (hasBits p m))) } := by
  obtain ⟨h1, h2, rfl⟩ := ioCommand_next h
  cases hr : (regRead .control s).1 with
  | error e =>
    rw [runAct_error (e := e) (by rw [map_fst, hr]; rfl)] at hp
    cases hp
  | ok q =>
    rw [runAct_ok (v := .payload q) (by rw [map_fst, hr]; rfl)] at hp ⊢
    obtain rfl : q = p := by injection hp with hp; injection hp with hp; injection hp with hp
    rw [ioCommand_ready _ h1 h2, runAct_ok (v := .bool (hasBits q m)) (by unfold getFlag; rw [map_fst, map_fst, hr]; rfl)]
    rfl

end Sys2Proof.Machine
end

