-- ==== Sys2Proof/Tests/Slice0.lean ====
section
/-! SUPPORT. Tests: ill-formed terms that WellFormed refuses, a written-out word for every constructor, vectors of
95_test_vectors.md, and for every statement with hypotheses a concrete case that meets them. Expected values come from
spec/, never from the model. -/

set_option Elab.async false

namespace Sys2Proof.Tests

open Sys2Proof Sys2Proof.Machine Sys2Proof.Safety

/-! ### WellFormed: one ill-formed term for each check -/

theorem test_wf_wireWrControl_mask : (Instr.wireWrControl 0x00401#20).wellFormed Params.default = false := by
  decide +kernel
theorem test_wf_wireWrSoft_mask : (Instr.wireWrSoft 0x00008#20).wellFormed Params.default = false := by decide
theorem test_wf_wireWrSoft_ldac : (Instr.wireWrSoft 0x00001#20).wellFormed Params.default = false := by decide
theorem test_wf_wireWrSoft_clear : (Instr.wireWrSoft 0x00002#20).wellFormed Params.default = false := by decide
theorem test_wf_wireWrSoft_reset : (Instr.wireWrSoft 0x00004#20).wellFormed Params.default = false := by decide
theorem test_wf_runBatch_lengths : (Instr.runBatch [0, 0] [.none]).wellFormed Params.default = false := by decide
theorem test_wf_runBatch_empty : (Instr.runBatch [] []).wellFormed Params.default = false := by decide
theorem test_wf_runBatch_large :
    (Instr.runBatch (List.replicate 17 0) (List.replicate 17 .none)).wellFormed Params.default = false := by decide
theorem test_wf_setSpeed_zero : (Instr.setSpeed 0).wellFormed Params.default = false := by decide
theorem test_wf_lineSetSpeed_zero : (Instr.lineSetSpeed 0).wellFormed Params.default = false := by decide
theorem test_wf_lineInitDev_quote :
    (Instr.lineInitDev ['a', quoteChar]).wellFormed Params.default = false := by decide
theorem test_wf_lineCreate_zero : (Instr.lineCreate 0).wellFormed Params.default = false := by decide
theorem test_wf_lineCreate_large : (Instr.lineCreate 17).wellFormed Params.default = false := by decide
theorem test_wf_lineStage_slot : (Instr.lineStage 16 0 0 0).wellFormed Params.default = false := by decide
theorem test_wf_lineRxq_slot : (Instr.lineRxq 16).wellFormed Params.default = false := by decide
/-- The default parameters meet the constraints of R7 and R8. -/
theorem test_params_ok : Params.default.ok = true := by decide +kernel
/-- R8, D19: a CLEAR default is a voltage inside the references, both bounds inside. -/
theorem test_params_clear_default :
    ({ Params.default with clearDefaultV := .nan }).ok = false ∧
    ({ Params.default with clearDefaultV := .fin (1000125 / 100000) }).ok = false ∧
    ({ Params.default with clearDefaultV := .fin (1000124 / 100000) }).ok = true := by decide +kernel

/-! ### Decoding: a written-out word for every constructor -/

/-- Whether a packet decodes to an instruction. -/
def reads (p : Packet) (i : Instr) : Bool :=
  match decode p with
  | .ok j => decide (j = i)
  | .error _ => false

/-- Whether a text decodes to an instruction. -/
def readsLine (text : String) (i : Instr) : Bool := reads (.line text.toList) i

/-- R76: the twelve W24 codes, `rw sel payload` written from the top bit. -/
theorem test_decode_wire_writes :
    reads (.wire ⟨0b00000000, 0, 0⟩) .wireNop ∧
    reads (.wire ⟨0b00011111, 0b11111111, 0b11001111⟩) (.wireWrData 0xFFFCF#20) ∧
    reads (.wire ⟨0b00100000, 0b00000011, 0b11111110⟩) (.wireWrControl 0x003FE#20) ∧
    reads (.wire ⟨0b00111000, 0, 0⟩) (.wireWrClear 0x80000#20) ∧
    reads (.wire ⟨0b01000000, 0, 0b00000111⟩) (.wireWrSoft 7#20) ∧
    reads (.wire ⟨0b01000000, 0, 0b00000001⟩) .wireSoftLdac ∧
    reads (.wire ⟨0b01000000, 0, 0b00000010⟩) .wireSoftClear ∧
    reads (.wire ⟨0b01000000, 0, 0b00000100⟩) .wireSoftReset := by decide +kernel
theorem test_decode_wire_reads :
    reads (.wire ⟨0b10010000, 0, 0⟩) .wireRdData ∧ reads (.wire ⟨0b10100000, 0, 0⟩) .wireRdControl ∧
    reads (.wire ⟨0b10110000, 0, 0⟩) .wireRdClear ∧ reads (.wire ⟨0b11000000, 0, 0⟩) .wireRdSoft := by decide +kernel

/-- R82: the command numbers; the operand words are assumption log 3. -/
theorem test_decode_host_codec :
    reads (.host 0x01#8 [-1]) (.pack (-1)) ∧ reads (.host 0x02#8 [300, 0, 999]) (.unpack 300 0 999) ∧
    reads (.host 0x03#8 [0x0A, 0x08]) (.hasBits 0x00000A#24 0x000008#24) ∧
    reads (.host 0x04#8 [0x12, 0x08]) (.setBits 0x000012#24 0x000008#24) ∧
    reads (.host 0x05#8 [0x1A, 0x08]) (.clearBits 0x00001A#24 0x000008#24) ∧
    reads (.host 0x08#8 [0xFFFCF, 1]) (.c2v 0xFFFCF#20 true) ∧
    reads (.host 0x09#8 [0, 5, 1, 0]) (.v2c (.fin (5 / 2)) false) := by decide +kernel
theorem test_decode_host_register :
    reads (.host 0x10#8 []) .encNop ∧ reads (.host 0x11#8 [2, 0x80000]) (.encWrite .clear 0x80000#20) ∧
    reads (.host 0x12#8 [3]) (.encRead .soft) ∧
    reads (.host 0x13#8 [0, 0x9FFFCF]) (.decReadback .data 0x9FFFCF#24) ∧
    reads (.host 0x18#8 [0]) (.regRead .data) ∧ reads (.host 0x19#8 [1, 0x12]) (.regWrite .control 0x12#20) ∧
    reads (.host 0x1A#8 []) .getTristate ∧ reads (.host 0x1B#8 [1]) (.setTristate true) ∧
    reads (.host 0x1C#8 []) .getOpgnd ∧ reads (.host 0x1D#8 [0]) (.setOpgnd false) ∧
    reads (.host 0x1E#8 []) .softLdac ∧ reads (.host 0x1F#8 []) .softReset ∧
    reads (.host 0x20#8 []) .softClear := by decide +kernel
theorem test_decode_host_batch_and_facade :
    reads (.host 0x28#8 [3, 0xA00000, 0x900000, 0, 3, 0, 3, 2])
      (.runBatch [0xA00000, 0x900000, 0] [.none, .reg .control, .reg .data]) ∧
    reads (.host 0x30#8 []) .getVoltage ∧ reads (.host 0x31#8 [1, 0, 0]) (.setVoltage .nan) ∧
    reads (.host 0x32#8 []) .getDefer ∧ reads (.host 0x33#8 [1]) (.setDefer true) ∧
    reads (.host 0x38#8 []) .sessionOpen ∧ reads (.host 0x39#8 []) .sessionClose ∧
    reads (.host 0x3A#8 []) .getSpeed ∧ reads (.host 0x3B#8 [499999]) (.setSpeed 500000) := by decide +kernel

/-- R85 to R91, R97, R98: the lines outside the batch protocol. -/
theorem test_decode_line_setup :
    reads (.line ("SPI:INIT:DEV ".toList ++ quoteChar :: "/dev/spidev1.0".toList ++ [quoteChar]))
      (.lineInitDev "/dev/spidev1.0".toList) ∧
    readsLine "SPI:SET:DEF" .lineSetDef ∧ readsLine "SPI:SET:GET" .lineSetGet ∧
    readsLine "SPI:SET:MODE LIST" .lineSetMode ∧ readsLine "SPI:SET:SPEED 1000000" (.lineSetSpeed 1000000) ∧
    readsLine "SPI:SET:WORD 8" .lineSetWord ∧ readsLine "SPI:SET:SET" .lineSetSet ∧
    readsLine "SPI:RELEASE" .lineRelease ∧ readsLine "SPI:SET:SPEED?" .lineSpeedq := by decide +kernel
/-- R92 to R96: the lines of the batch protocol. -/
theorem test_decode_line_batch :
    readsLine "SPI:MSG:CREATE 2" (.lineCreate 2) ∧
    readsLine "SPI:MSG0:TX3:RX:CS #H3F,#HFF,#HCF" (.lineStage 0 0x3F#8 0xFF#8 0xCF#8) ∧
    readsLine "SPI:PASS" .linePass ∧ readsLine "SPI:MSG1:RX?" (.lineRxq 1) ∧
    readsLine "SPI:MSG:DEL" .lineDel := by decide +kernel

/-- The form of an encoded instruction, from R79 and R93. -/
theorem test_encode_words :
    encode (.wireWrData 0xFFFCF#20) = .wire ⟨0x1F, 0xFF, 0xCF⟩ ∧
    encode (.lineStage 2 0x40#8 0x00#8 0x01#8) = .line "SPI:MSG2:TX3:RX:CS #H40,#H00,#H01".toList := by decide +kernel

/-- R76 and R82 numbered as the opcode table numbers them: the W24 word and the command number. -/
theorem test_table_words :
    decodeTableWord 24 0x900000 = some .wireRdData ∧ decodeTableWord 24 0x400002 = some .wireSoftClear ∧
    decodeTableWord 8 0x38 = some .sessionOpen ∧ decodeTableWord 8 0x28 = some (.runBatch [] []) := by decide +kernel

/-! ### Small states and views -/

/-- A block with a session before the reference peer of 95_test_vectors.md section 3: the DAC registers and output as
given, every draw fixed to 0x800000 (bit 23 of every answer drawn 1). -/
def bench (data control clear out : Payload) : State :=
  { State.reset with
    sess := .claimed
    env := { mode := .reference, peer := { bridge := Bridge.reset, dac := ⟨data, control, clear, out, 0⟩ },
             replies := [], fixedDraws := List.replicate 20 0x800000#24, draws := 5 } }

/-- The start state of 95_test_vectors.md section 3, with a session. -/
def start : State := bench 0x12345#20 0x0000A#20 0#20 0x12345#20

/-- The same block with the answers to its next lines named. -/
def answered (rs : List Reply) : State := { start with env := { start.env with replies := rs } }

/-- An unconstrained peer, with the answers to the next lines named. -/
def unconstrained (rs : List Reply) : State := { start with env := { State.reset.env with replies := rs } }

/-- The reset block before the reference peer, without a session, with `DEV_PATH` as in 95_test_vectors.md. -/
def closed : State :=
  { start with sess := .closed, params := { Params.default with devPath := "/dev/spidev1.0".toList } }

/-- The completion an instruction leaves. -/
def completes (i : Instr) (s : State) : Option Completion :=
  match exec i s with
  | .next t => t.completion
  | _ => none

/-- DATA, CONTROL, CLEAR and output after an instruction. -/
def dacAfter (i : Instr) (s : State) : Option (Payload × Payload × Payload × Payload) :=
  match exec i s with
  | .next t => some (t.env.dac.data, t.env.dac.control, t.env.dac.clear, t.env.dac.out)
  | _ => none

/-- The lines an instruction emits. -/
def emits (i : Instr) (s : State) : Option (List Line) :=
  match exec i s with
  | .next t => some ((t.trace.drop s.trace.length).map Event.line)
  | _ => none

/-- Why an instruction is refused. -/
def refuses (i : Instr) (s : State) : Option Refusal :=
  match exec i s with
  | .refused r => some r
  | _ => none

/-- The frame a session stages in slot 0 of its last batch. -/
def lastFrame0 (i : Instr) (s : State) : Option Line :=
  match emits i s with
  | some ls => (ls.filter fun l => match l with | .stage 0 _ => true | _ => false).getLast?
  | none => none

/-! ### Codec, bit helpers (95_test_vectors.md 2.1) -/

theorem test_pack_bytes : completes (.pack 0x1FFFCF) start = some (.ok (.bytes ⟨0x1F, 0xFF, 0xCF⟩)) := by decide +kernel
theorem test_pack_range : completes (.pack 0x1000000) start = some (.err (.rangeError (.code 0x1000000))) := by
  decide +kernel
theorem test_unpack_code : completes (.unpack 159 255 207) start = some (.ok (.code 0x9FFFCF#24)) := by decide +kernel
theorem test_unpack_first_bad : completes (.unpack 300 0 999) start = some (.err (.rangeError (.word 0 300))) := by
  decide +kernel
theorem test_hasBits_partial : completes (.hasBits 0x000004#24 0x000006#24) start = some (.ok (.bool false)) := by
  decide +kernel
theorem test_hasBits_empty : completes (.hasBits 0x123456#24 0#24) start = some (.ok (.bool true)) := by decide +kernel
theorem test_setBits : completes (.setBits 0x000012#24 0x000008#24) start = some (.ok (.code 0x00001A#24)) := by
  decide +kernel
theorem test_clearBits : completes (.clearBits 0x00001A#24 0x000008#24) start = some (.ok (.code 0x000012#24)) := by
  decide +kernel

/-! ### Voltage map (95_test_vectors.md 2.2) -/

theorem test_v2c_zero : completes (.v2c (.fin 0) true) start = some (.ok (.payload 0xFFFCF#20)) := by decide +kernel
theorem test_v2c_truncates : completes (.v2c (.fin (-1)) true) start = some (.ok (.payload 0xF3303#20)) := by
  decide +kernel
theorem test_c2v_full_scale :
    completes (.c2v 0x7FFFF#20 true) start = some (.ok (.volt (1000124 / 100000))) := by decide +kernel
theorem test_c2v_raw_zero : completes (.c2v 0x00000#20 false) start = some (.ok (.volt (-999939 / 100000))) := by
  decide +kernel

/-! ### Encoders and decoder (95_test_vectors.md 2.3) -/

theorem test_encNop : completes .encNop start = some (.ok (.code 0#24)) := by decide +kernel
theorem test_encWrite : completes (.encWrite .clear 0x80000#20) start = some (.ok (.code 0x380000#24)) := by
  decide +kernel
theorem test_encWrite_illegal : completes (.encWrite .control 0x00401#20) start
    = some (.err (.invalidPayload .control 0x00401#20)) := by decide +kernel
theorem test_encRead : completes (.encRead .soft) start = some (.ok (.code 0xC00000#24)) := by decide +kernel
theorem test_decReadback_bit23 : completes (.decReadback .data 0x1FFFCF#24) start
    = some (.ok (.payload 0xFFFCF#20)) := by decide +kernel
theorem test_decReadback_select_first : completes (.decReadback .control 0x9FFFFF#24) start
    = some (.err (.protocolError .selectMismatch .control 0x9FFFFF#24)) := by decide +kernel

/-! ### Wire commands (45_wire_commands.md R201 to R215) -/

theorem test_wireWrData : dacAfter (.wireWrData 0xFFFCF#20) start = some (0xFFFCF#20, 0x0000A#20, 0#20, 0x12345#20) := by
  decide +kernel
theorem test_wireWrControl_masks :
    dacAfter (.wireWrControl 0x00401#20) start = some (0x12345#20, 0#20, 0#20, 0x12345#20) := by decide +kernel
theorem test_wireWrClear : dacAfter (.wireWrClear 0x80000#20) start
    = some (0x12345#20, 0x0000A#20, 0x80000#20, 0x12345#20) := by decide +kernel
theorem test_wireSoftLdac :
    dacAfter .wireSoftLdac (bench 0x0CC9A#20 0#20 0#20 0x12345#20) = some (0x0CC9A#20, 0#20, 0#20, 0x0CC9A#20) := by
  decide +kernel
theorem test_wireWrSoft_empty : dacAfter (.wireWrSoft 0#20) start
    = some (0x12345#20, 0x0000A#20, 0#20, 0x12345#20) := by decide +kernel
/-- R215: what the next frame shifts out after a read of CONTROL, bit 23 drawn 1. -/
theorem test_wireRdControl : (match exec .wireRdControl start with | .next t => some t.env.dac.sdo | _ => none)
    = some 0xA0000A#24 := by decide +kernel

/-! ### Transport lines (30_encoding.md R84 to R98) -/

theorem test_lineSetSpeed : emits (.lineSetSpeed 500000) start = some [.setSpeed 500000] := by decide +kernel
theorem test_lineRelease_fails :
    completes .lineRelease (answered [.fail]) = some (.err (.transportError .release)) := by decide +kernel
theorem test_lineSpeedq : completes .lineSpeedq (answered [.int 500000]) = some (.ok (.int 500000)) := by decide +kernel

/-- A block that has opened a batch of one slot by its line (R92). -/
def opened : State :=
  match exec (.lineCreate 1) start with
  | .next t => t
  | _ => start

/-- The same with slot 0 staged (R93). -/
def staged : State :=
  match exec (.lineStage 0 0x90#8 0#8 0#8) opened with
  | .next t => t
  | _ => start

/-- The same committed (R94). -/
def committed : State :=
  match exec .linePass staged with
  | .next t => t
  | _ => start

theorem test_lineCreate : opened.seq.phase = .staging ∧ opened.seq.n = 1 ∧ opened.seq.ptr = 0 := by decide +kernel
theorem test_lineStage : staged.seq.phase = .staging ∧ staged.seq.ptr = 1 ∧ staged.seq.tx = [⟨0x90, 0, 0⟩] := by
  decide +kernel
theorem test_linePass : committed.seq.phase = .committed ∧ committed.seq.fptr = 0 := by decide +kernel
theorem test_lineRxq : emits (.lineRxq 0) committed = some [.rxq 0] := by decide +kernel
theorem test_lineRxq_no_slot : (match exec (.lineRxq 1) committed with | .fault f => some f | _ => none)
    = some (.noSlot 1) := by decide +kernel
theorem test_lineStage_order : refuses (.lineStage 0 0#8 0#8 0#8) staged = some .outOfOrder := by decide +kernel
theorem test_lineDel_early : refuses .lineDel opened = some .outOfOrder := by decide +kernel

/-! ### Register access and flags (95_test_vectors.md 2.4, 2.6, section 3) -/

/-- T1: the answer to the read is `{159,255,207}`. -/
theorem test_regRead_data : completes (.regRead .data) (bench 0xFFFCF#20 0#20 0#20 0#20)
    = some (.ok (.payload 0xFFFCF#20)) := by decide +kernel
/-- P6: a miswired peer answers with DATA's select. -/
theorem test_regRead_mismatch :
    completes (.regRead .control)
        (answered [.ok, .ok, .ok, .ok, .text [Char.ofNat 123, '1', '4', '4', ',', '0', ',', '1', '0', Char.ofNat 125], .ok])
      = some (.err (.protocolError .selectMismatch .control 0x90000A#24)) := by decide +kernel
/-- T2. -/
theorem test_regWrite_clear : emits (.regWrite .clear 0xFFFCF#20) start
    = some [.create 2, .stage 0 ⟨0x3F, 0xFF, 0xCF⟩, .stage 1 ⟨0, 0, 0⟩, .pass, .del] := by decide +kernel
/-- P5: the fourth line fails. -/
theorem test_regWrite_pass_fails :
    completes (.regWrite .data 0xFFFCF#20) (answered [.ok, .ok, .ok, .fail, .ok]) = some (.err (.transportError .pass)) ∧
    emits (.regWrite .data 0xFFFCF#20) (answered [.ok, .ok, .ok, .fail, .ok])
      = some [.create 2, .stage 0 ⟨0x1F, 0xFF, 0xCF⟩, .stage 1 ⟨0, 0, 0⟩, .pass, .del] := by decide +kernel
theorem test_getTristate : completes .getTristate (bench 0#20 0x00006#20 0#20 0#20) = some (.ok (.bool false)) := by
  decide +kernel
theorem test_getOpgnd : completes .getOpgnd (bench 0#20 0x00004#20 0#20 0#20) = some (.ok (.bool true)) := by
  decide +kernel
theorem test_setTristate : lastFrame0 (.setTristate false) (bench 0#20 0x0000E#20 0#20 0#20)
    = some (.stage 0 ⟨0x20, 0x00, 0x06⟩) := by decide +kernel
theorem test_setOpgnd : lastFrame0 (.setOpgnd false) (bench 0#20 0x003FE#20 0#20 0#20)
    = some (.stage 0 ⟨0x20, 0x03, 0xFA⟩) := by decide +kernel
theorem test_softLdac : dacAfter .softLdac (bench 0x0CC9A#20 0#20 0#20 0#20)
    = some (0x0CC9A#20, 0#20, 0#20, 0x0CC9A#20) := by decide +kernel
theorem test_softClear : lastFrame0 .softClear start = some (.stage 0 ⟨0x40, 0x00, 0x02⟩) := by decide +kernel
theorem test_softReset : lastFrame0 .softReset start = some (.stage 0 ⟨0x40, 0x00, 0x04⟩) := by decide +kernel

/-! ### The sequencer (95_test_vectors.md 2.4) -/

/-- T8: chained reads. -/
theorem test_runBatch_chained :
    completes (.runBatch [0xA00000, 0x900000, 0] [.none, .reg .control, .reg .data]) start
      = some (.ok (.codes [none, some 0xA0000A#24, some 0x912345#24])) := by decide +kernel
/-- T9. -/
theorem test_runBatch_range :
    completes (.runBatch [0x1000000, 0] [.none, .none]) start = some (.err (.rangeError (.frame 0 0x1000000))) ∧
    emits (.runBatch [0x1000000, 0] [.none, .none]) start = some [] := by decide +kernel

/-! ### The facade (95_test_vectors.md 2.5) -/

theorem test_getVoltage_vrefn : completes .getVoltage (bench 0x80000#20 0#20 0#20 0#20)
    = some (.ok (.volt (-999939 / 100000))) := by decide +kernel
theorem test_setVoltage_range : completes (.setVoltage (.fin (1000125 / 100000))) start
    = some (.err (.rangeError (.volt (.fin (1000125 / 100000))))) := by decide +kernel
/-- Deferred: DATA moves, the output does not. -/
theorem test_setVoltage_deferred :
    dacAfter (.setVoltage (.fin (1000124 / 100000))) { start with defer := true }
      = some (0x7FFFF#20, 0x0000A#20, 0#20, 0x12345#20) := by decide +kernel
theorem test_getDefer : completes .getDefer { start with defer := true } = some (.ok (.bool true)) := by decide +kernel
theorem test_setDefer : (match exec (.setDefer true) start with | .next t => t.defer | _ => false) = true := by
  decide +kernel
/-- P0: CLEAR takes the code of 0 V, the rest of the DAC stays. -/
theorem test_sessionOpen :
    dacAfter .sessionOpen closed = some (0x12345#20, 0x0000A#20, 0xFFFCF#20, 0x12345#20) ∧
    emits .sessionOpen closed = some [.initDev "/dev/spidev1.0".toList, .setDef, .setGet, .setMode, .setSpeed 1000000,
      .setWord, .setSet, .create 2, .stage 0 ⟨0x3F, 0xFF, 0xCF⟩, .stage 1 ⟨0, 0, 0⟩, .pass, .del] := by decide +kernel
theorem test_sessionOpen_fifth_fails :
    completes .sessionOpen { closed with env := { closed.env with replies := [.ok, .ok, .ok, .ok, .fail] } }
      = some (.err (.transportError (.setSpeed 1000000))) := by decide +kernel
theorem test_sessionClose_fails :
    (match exec .sessionClose (answered [.fail]) with
      | .next t => some (t.sess, t.completion)
      | _ => none) = some (.closed, some (.err (.transportError .release))) := by decide +kernel
theorem test_getSpeed_closed : refuses .getSpeed closed = some .sessionClosed := by decide +kernel
theorem test_setSpeed : emits (.setSpeed 500000) { closed with sess := .claimed }
    = some [.initDev "/dev/spidev1.0".toList, .setDef, .setGet, .setMode, .setSpeed 500000, .setWord, .setSet] := by
  decide +kernel

/-! ### Fetch -/

/-- The packet placed by `withFetchWord` is executed by the very next step (R20). -/
theorem test_fetch_wire :
    (match step (start.withFetchWord 24 0x1FFFCF) with
      | .next t => some (t.env.dac.data, t.inbox)
      | _ => none) = some (0xFFFCF#20, []) := by decide +kernel
theorem test_fetch_host :
    (match step (State.reset.withFetchWord 8 0x32) with
      | .next t => some (t.completion, t.inbox)
      | _ => none) = some (some (.ok (.bool false)), []) := by decide +kernel

/-! ### Witnesses: for each statement with hypotheses, a case that meets them all -/

/-- A text of three decimal integers in braces (R95). -/
def braced (s : String) : List Char := Char.ofNat 123 :: s.toList ++ [Char.ofNat 125]

/-- The replies to a two-frame batch whose slot 1 is fetched as `{159,255,207}` (T1). -/
def readReplies : List Reply := goodReplies 2 [braced "159,255,207"]

theorem test_witness_idle : State.reset.seq.phase = .idle ∧ start.seq.phase = .idle ∧ opened.seq.phase ≠ .idle := by
  decide +kernel
theorem test_witness_ready : Ready start ∧ WellBehaved start ∧ Safe start :=
  ⟨⟨rfl, rfl⟩, ⟨rfl, rfl⟩, ⟨by decide +kernel, by decide +kernel, fun h => absurd rfl h⟩⟩
/-- A state inside a batch meets the invariant too. -/
theorem test_witness_EveryStepKeepsTheInvariant :
    Safe { opened with inbox := [.line "SPI:MSG0:TX3:RX:CS #H90,#H00,#H00".toList] } ∧
    (match step { opened with inbox := [.line "SPI:MSG0:TX3:RX:CS #H90,#H00,#H00".toList] } with
      | .next t => t.seq.ptr
      | _ => 0) = 1 :=
  ⟨⟨by decide +kernel, by decide +kernel, fun _ => by decide +kernel⟩, by decide +kernel⟩

/-- R82, R111, R112: `two_complement` is true where it is omitted, and stays what it is where it is given. -/
theorem test_decode_default_flag :
    reads (.host 0x08#8 [0x7FFFF]) (.c2v 0x7FFFF#20 true) ∧ reads (.host 0x08#8 [0x7FFFF, 0]) (.c2v 0x7FFFF#20 false) ∧
    reads (.host 0x09#8 [0, 1, 0]) (.v2c (.fin 1) true) ∧ reads (.host 0x09#8 [0, 1, 0, 0]) (.v2c (.fin 1) false) := by
  decide +kernel
/-- U6, R240 (c): after a failed fetch, and after a failed `DEL` of a transferred batch, the DAC is free. -/
theorem test_failed_after_commit (i : Nat) :
    (failedLine (.rxq i) committed.env).dac = (Config.freePeer committed.env.draws).dac ∧
    (failedLine .del committed.env).dac = (Config.freePeer (committed.env.draws + 1)).dac := ⟨rfl, rfl⟩
/-- R240 (c): a failed `STAGE` leaves the DAC as it was, and so does a failed `DEL` after it. -/
theorem test_failed_before_commit :
    (match exec (.regWrite .data 0xFFFCF#20) (answered [.ok, .fail, .fail]) with
      | .next t => some t.env.dac
      | _ => none) = some start.env.dac := by decide +kernel

/-- UnpackInvertsPack and PackAnswersBigEndianBytes at both ends of the range and outside it. -/
theorem test_witness_pack :
    completes (.pack 0) start = some (.ok (.bytes ⟨0, 0, 0⟩)) ∧
    completes (.pack 16777215) start = some (.ok (.bytes ⟨255, 255, 255⟩)) ∧
    completes (.pack (-1)) start = some (.err (.rangeError (.code (-1)))) := by decide +kernel
/-- UnpackAnswersCodeOrFirstBadWord: each clause, at 255 and 256. -/
theorem test_witness_unpack :
    completes (.unpack 256 256 256) start = some (.err (.rangeError (.word 0 256))) ∧
    completes (.unpack 255 (-1) 256) start = some (.err (.rangeError (.word 1 (-1)))) ∧
    completes (.unpack 255 255 256) start = some (.err (.rangeError (.word 2 256))) ∧
    completes (.unpack 255 255 255) start = some (.ok (.code 0xFFFFFF#24)) := by decide +kernel
/-- V2cAnswersFlooredCode and VoltageRoundTrips: both references are inside. -/
theorem test_witness_v2c_inside :
    start.params.voltEval = none ∧ start.params.vrefn < start.params.vrefp ∧
    start.params.vrefn ≤ defaultVrefn ∧ defaultVrefp ≤ start.params.vrefp ∧
    completes (.v2c (.fin defaultVrefn) false) start = some (.ok (.payload 0#20)) ∧
    completes (.v2c (.fin defaultVrefp) false) start = some (.ok (.payload 0xFFFFF#20)) := by decide +kernel
/-- V2cAnswersFlooredCode, C2vAnswersLinearMap: an evaluation of the free family is asked for as well. -/
theorem test_witness_voltEval (k : Nat) :
    ({ start with params := { start.params with voltEval := some k } } : State).seq.phase = .idle := rfl
/-- V2cRangeError: a voltage just outside each reference, and the non-finite values, which meet the hypothesis
because none is finite. -/
theorem test_witness_v2c_outside :
    (∀ q, Volt.nan = .fin q → q < start.params.vrefn ∨ start.params.vrefp < q) ∧
    defaultVrefp < 1000125 / 100000 ∧
    completes (.v2c (.fin (1000125 / 100000)) true) start = some (.err (.rangeError (.volt (.fin (1000125 / 100000))))) ∧
    completes (.v2c .posInf true) start = some (.err (.rangeError (.volt .posInf))) ∧
    completes (.v2c .negInf true) start = some (.err (.rangeError (.volt .negInf))) := by
  refine ⟨fun q h => (by cases h), ?_⟩
  decide +kernel

theorem test_witness_BatchFrameMeansItsWireCommand :
    decode (.wire (packCode 0x1FFFCF#24)) = .ok (.wireWrData 0xFFFCF#20) ∧
    decode (.wire (packCode 0xC00000#24)) = .ok .wireRdSoft := by decide +kernel
theorem test_witness_WireCommandsKeepControlLegal :
    isWireCommand (.wireWrControl 0xFFFFF#20) = true ∧
    start.env.dac.control &&& regMask start.params .control = start.env.dac.control ∧
    dacAfter (.wireWrControl 0xFFFFF#20) start = some (0x12345#20, 0x003FE#20, 0#20, 0x12345#20) := by decide +kernel
/-- WireSoftWritesPulse: none of the three bits, bit 0 alone, and bit 1 or 2, whatever bit 0. -/
theorem test_witness_WireSoftWritesPulse :
    ((8#20).getLsbD 0 = false ∧ (8#20).getLsbD 1 = false ∧ (8#20).getLsbD 2 = false) ∧
    ((9#20).getLsbD 0 = true ∧ (9#20).getLsbD 1 = false ∧ (9#20).getLsbD 2 = false) ∧
    (7#20).getLsbD 1 = true := by decide
/-- WireSoftWritesPulse: five draws a test has fixed. -/
theorem test_witness_WireSoftWritesPulse_fixed :
    ({ start.env with fixedDraws := [1, 2, 3, 4, 5] } : Env).fixedDraws = (1 : Code) :: 2 :: 3 :: 4 :: 5 :: [] ∧
    dacAfter .wireSoftReset { start with env := { start.env with fixedDraws := [0xF00001#24, 0xFFFFFF#24, 3, 4, 5] } }
      = some (0x00001#20, 0x003FE#20, 3#20, 4#20) := by decide +kernel
theorem test_witness_CommandLinesAreEmitted :
    emits (lineInstr (.initDev ['d'])) start = some [.initDev ['d']] ∧
    emits (lineInstr .setDef) start = some [.setDef] ∧ emits (lineInstr .setGet) start = some [.setGet] ∧
    emits (lineInstr .setMode) start = some [.setMode] ∧ emits (lineInstr .setWord) start = some [.setWord] ∧
    emits (lineInstr .setSet) start = some [.setSet] ∧ emits (lineInstr .release) start = some [.release] := by
  decide +kernel

/-- CreateLineOpensBatch at both ends of the size. -/
theorem test_witness_CreateLineOpensBatch :
    Ready start ∧ (1 : Nat) ≤ start.params.maxBatch ∧ emits (.lineCreate 1) start = some [.create 1] ∧
    emits (.lineCreate 16) start = some [.create 16] := ⟨⟨rfl, rfl⟩, by decide +kernel⟩
theorem test_witness_StageLineStagesNextSlot :
    opened.seq.phase = .staging ∧ opened.seq.err = none ∧ opened.seq.ptr < opened.seq.n ∧
    opened.seq.tx.length = opened.seq.n := by decide +kernel
theorem test_witness_PassLineCommits :
    staged.seq.phase = .staging ∧ staged.seq.err = none ∧ staged.seq.ptr = staged.seq.n := by decide +kernel
/-- A committed batch of three slots of which the middle one is wanted. -/
def wanting : State :=
  { committed with seq := { committed.seq with
      n := 3, tx := List.replicate 3 ⟨0, 0, 0⟩, expect := [.none, .reg .data, .none], result := List.replicate 3 none,
      ptr := 3 } }
/-- PassLineCommits: the bridge of a staged batch holds its frames; RxqLineFetchesSlot: it holds the answer. -/
theorem test_witness_reference_slots :
    staged.env.peer.bridge.tx = [(⟨0x90, 0, 0⟩ : Triple)].map some ∧ WellBehaved staged ∧ WellBehaved committed ∧
    committed.env.peer.bridge.rx[0]? = some (some ⟨0x80, 0, 0⟩) :=
  ⟨by decide +kernel, ⟨by decide +kernel, by decide +kernel⟩, ⟨by decide +kernel, by decide +kernel⟩,
    by decide +kernel⟩
theorem test_witness_RxqLineFetchesSlot :
    committed.seq.phase = .committed ∧ committed.seq.err = none ∧ committed.seq.fptr < committed.seq.n := by
  decide +kernel
/-- RxqLineFetchesSlot: slot 1, past slot 0, which expects nothing; its check passes, and fails. -/
theorem test_witness_RxqLineFetchesSlot_past :
    wanting.seq.phase = .committed ∧ wanting.seq.err = none ∧ wanting.seq.fptr = 0 ∧ wanting.seq.n = 3 ∧
    wanting.seq.expect[0]? = some .none ∧ wanting.seq.expect[1]? = some (.reg .data) ∧
    (match exec (.lineRxq 1) { wanting with env := { wanting.env with replies := [.text (braced "159,255,207")] } } with
      | .next t => some (t.seq.fptr, t.seq.result)
      | _ => none) = some (2, [none, some 0x9FFFCF#24, none]) ∧
    (match exec (.lineRxq 1) { wanting with env := { wanting.env with replies := [.text (braced "160,0,10")] } } with
      | .next t => some (t.seq.fptr, t.seq.err)
      | _ => none) = some (1, some (.protocolError .selectMismatch .data 0xA0000A#24)) := by decide +kernel
/-- RxqLineFetchesSlot, its clauses on texts: the vector's triple; a number one too large beside the largest byte; no
triple. -/
theorem test_witness_RxqLineFetchesSlot_text :
    IsTriple (braced "159,255,207") 159 255 207 ∧
    (∀ v0 v1 v2, IsTriple (braced "0,256,255") v0 v1 v2 → 255 < v0 ∨ 255 < v1 ∨ 255 < v2) ∧
    (∀ v0 v1 v2, IsTriple (braced "1,2") v0 v1 v2 → 255 < v0 ∨ 255 < v1 ∨ 255 < v2) := by
  have key : ∀ text, readTriple text = none → ∀ v0 v1 v2, IsTriple text v0 v1 v2 → 255 < v0 ∨ 255 < v1 ∨ 255 < v2 := by
    intro text h v0 v1 v2 ht
    by_contra hn
    rw [readTriple_some ht (by omega) (by omega) (by omega)] at h
    cases h
  refine ⟨⟨['1', '5', '9'], ['2', '5', '5'], ['2', '0', '7'], ?_, ?_, ?_, by decide⟩, key _ (by decide +kernel),
    key _ (by decide +kernel)⟩
  all_goals exact ⟨by simp, by simp, rfl⟩
/-- R95: an answer with 256 in it, and one of two numbers, end the fetch with `TransportError`. -/
theorem test_lineRxq_bad_text :
    ([braced "0,256,255", braced "1,2"].all fun text =>
      match exec (.lineRxq 1) { wanting with env := { wanting.env with replies := [.text text] } } with
        | .next t => decide (t.seq.err = some (.transportError (.rxq 1)))
        | _ => false) = true := by decide +kernel
/-- DelLineEndsBatch: a batch whose stage failed, and one with nothing left to fetch. -/
theorem test_witness_DelLineEndsBatch :
    (match exec (.lineStage 0 0#8 0#8 0#8) { opened with env := { opened.env with replies := [.fail] } } with
      | .next t => decide (t.seq.phase ≠ .idle ∧ t.seq.err ≠ none)
      | _ => false) = true ∧
    (match exec (.lineRxq 0) committed with
      | .next t => decide (t.seq.phase = .committed ∧ t.seq.fptr = t.seq.n)
      | _ => false) = true := by decide +kernel
/-- DelLineEndsBatch: a committed batch with only an unwanted slot left. -/
theorem test_witness_DelLineEndsBatch_unwanted :
    ({ wanting with seq := { wanting.seq with fptr := 2 } } : State).seq.expect[2]? = some .none ∧
    completes .lineDel { wanting with seq := { wanting.seq with fptr := 2 } }
      = some (.ok (.codes [none, none, none])) := by decide +kernel
/-- SequencerLinesStopOutOfOrder: `CREATE` in an open batch, without a session, of size 0 and too large; an error pending;
a slot already passed; a wanted slot passed over by `RXQ` and by `DEL`. -/
theorem test_witness_SequencerLinesStopOutOfOrder_refused :
    refuses (.lineCreate 1) opened = some .busy ∧ refuses (.lineCreate 1) closed = some .sessionClosed ∧
    refuses (.lineCreate 0) start = some .batchSize ∧ refuses (.lineCreate 17) start = some .batchSize ∧
    refuses (.lineStage 0 0#8 0#8 0#8)
      { opened with seq := { opened.seq with err := some (.transportError .pass) } } = some .outOfOrder ∧
    refuses .linePass { staged with seq := { staged.seq with err := some (.transportError .pass) } } = some .outOfOrder ∧
    refuses (.lineRxq 0) { wanting with seq := { wanting.seq with err := some (.transportError .pass) } }
      = some .outOfOrder ∧
    refuses (.lineRxq 0) { wanting with seq := { wanting.seq with fptr := 1 } } = some .outOfOrder ∧
    refuses (.lineRxq 2) wanting = some .outOfOrder ∧ refuses .lineDel wanting = some .outOfOrder ∧
    refuses .lineDel opened = some .outOfOrder := by decide +kernel
/-- SequencerLinesStopOutOfOrder: idle, a slot that does not exist, the wrong slot, the wrong phase, nothing staged. -/
theorem test_witness_SequencerLinesStopOutOfOrder :
    start.seq.phase = .idle ∧ opened.seq.n ≤ 1 ∧ opened.seq.phase ≠ .idle ∧ 0 < committed.seq.n ∧
    committed.seq.phase = .committed ∧ 0 < opened.seq.n ∧ opened.seq.phase = .staging ∧
    opened.seq.ptr ≠ opened.seq.n ∧ opened.seq.err = none := by decide +kernel

/-- RegReadReturnsCheckedPayload, GetVoltageConvertsData: named answers, for the unconstrained peer. -/
theorem test_witness_RegReadReturnsCheckedPayload :
    Ready (unconstrained readReplies) ∧ readTriple (braced "159,255,207") = some ⟨159, 255, 207⟩ ∧
    completes (.regRead .data) (unconstrained readReplies) = some (.ok (.payload 0xFFFCF#20)) ∧
    completes (.regRead .control) (unconstrained readReplies)
      = some (.err (.protocolError .selectMismatch .control 0x9FFFCF#24)) :=
  ⟨⟨rfl, rfl⟩, by decide +kernel⟩
/-- RegWriteSendsOneBatch and RegWriteRejectsIllegalPayload at the edge of the mask of SOFT. -/
theorem test_witness_RegWrite :
    Ready (unconstrained (goodReplies 2 [])) ∧ 7#20 &&& regMask start.params .soft = 7#20 ∧
    8#20 &&& regMask start.params .soft ≠ 8#20 ∧
    completes (.regWrite .soft 7#20) (unconstrained (goodReplies 2 [])) = some (.ok .none) :=
  ⟨⟨rfl, rfl⟩, by decide +kernel⟩
/-- RegReadReturnsCheckedPayload, GetVoltageConvertsData, RegWriteSendsOneBatch, SoftTriggersSendOnePulse: a batch whose
`PASS` fails (T4, k = 4), and the command that is this batch. -/
theorem test_witness_failed_pass :
    ([(Instr.runBatch [0x900000, 0] [.none, .reg .data]), .regRead .data, .getVoltage,
      .runBatch [0x100000 + 0x12345, 0] [.none, .none], .regWrite .data 0x12345#20,
      .runBatch [0x400001, 0] [.none, .none], .softLdac, .softClear, .softReset].all fun i =>
        decide (completes i (answered [.ok, .ok, .ok, .fail]) = some (.err (.transportError .pass)))) = true := by
  decide +kernel
/-- The same statements: a batch that ends well, and its codes. -/
theorem test_witness_good_batch :
    completes (.runBatch [0x900000, 0] [.none, .reg .data]) (unconstrained readReplies)
      = some (.ok (.codes [none, some 0x9FFFCF#24])) ∧
    completes (.runBatch [0x400007, 0] [.none, .none]) (unconstrained (goodReplies 2 []))
      = some (.ok (.codes [none, none])) := by decide +kernel
/-- FlagGettersReadControlOnce and FlagSettersChangeOneBit: CONTROL answered as 0x0000A. -/
theorem test_witness_flags :
    readTriple (braced "160,0,10") = some ⟨160, 0, 10⟩ ∧
    decReadback start.params .control (unpackBytes ⟨160, 0, 10⟩) = .ok 0x0000A#20 ∧
    completes .getTristate (unconstrained (goodReplies 2 [braced "160,0,10"])) = some (.ok (.bool true)) ∧
    lastFrame0 (.setOpgnd true) (unconstrained (goodReplies 2 [braced "160,0,10"] ++ goodReplies 2 []))
      = some (.stage 0 ⟨0x20, 0x00, 0x0E⟩) := by decide +kernel
/-- FlagGettersReadControlOnce and FlagSettersChangeOneBit: the CONTROL read ends in an error, and one batch was sent. -/
theorem test_witness_flags_failed :
    completes (.regRead .control) (unconstrained readReplies)
      = some (.err (.protocolError .selectMismatch .control 0x9FFFCF#24)) ∧
    completes (.setTristate true) (unconstrained readReplies)
      = some (.err (.protocolError .selectMismatch .control 0x9FFFCF#24)) ∧
    emits (.setOpgnd true) (answered [.ok, .ok, .ok, .fail])
      = some [.create 2, .stage 0 ⟨0xA0, 0, 0⟩, .stage 1 ⟨0, 0, 0⟩, .pass, .del] := by decide +kernel
/-- FlagSettersChangeOneBit: the CONTROL read answers 0x0000A, and the second batch fails at its first stage. -/
theorem test_witness_flags_second_batch :
    completes (.regRead .control) (answered (goodReplies 2 [braced "160,0,10"] ++ [.ok, .fail]))
      = some (.ok (.payload 0x0000A#20)) ∧
    completes (.setTristate false) (answered (goodReplies 2 [braced "160,0,10"] ++ [.ok, .fail]))
      = some (.err (.transportError (.stage 0 ⟨0x20, 0x00, 0x02⟩))) := by decide +kernel

/-- RunBatchReturnsFetchedCodes: one slot fetched raw, one checked, one not fetched. -/
theorem test_witness_RunBatchReturnsFetchedCodes :
    packFrames 0 [0xA00000, 0x900000, 0] = .ok [⟨0xA0, 0, 0⟩, ⟨0x90, 0, 0⟩, ⟨0, 0, 0⟩] ∧
    [braced "1,2,3", braced "159,255,207"].map readTriple = [(⟨1, 2, 3⟩ : Triple), ⟨159, 255, 207⟩].map some ∧
    completes (.runBatch [0xA00000, 0x900000, 0] [.none, .raw, .reg .data])
      (unconstrained (goodReplies 3 [braced "1,2,3", braced "159,255,207"]))
      = some (.ok (.codes [none, some 0x010203#24, some 0x9FFFCF#24])) := by decide +kernel
theorem test_witness_RunBatchReturnsFetchedCodes_checks :
    ChecksPass start.params [.none, .raw, .reg .data] [⟨1, 2, 3⟩, ⟨159, 255, 207⟩] :=
  ⟨⟨0xFFFCF#20, by decide +kernel⟩, rfl⟩
/-- RunBatchReturnsFetchedCodes: the least and the greatest code are packed. -/
theorem test_witness_packFrames :
    packFrames 0 [0, 16777215, 0x123456] = .ok [⟨0, 0, 0⟩, ⟨0xFF, 0xFF, 0xFF⟩, ⟨0x12, 0x34, 0x56⟩] := by decide +kernel
theorem test_witness_RunBatchRangeErrorNamesFirstBadFrame :
    completes (.runBatch [0, 16777215, 16777216, -1] [.none, .none, .none, .none]) start
      = some (.err (.rangeError (.frame 2 16777216))) := by decide +kernel
/-- RunBatchTraceShape: `CREATE` fails (T4, k = 1), and a batch with its `DEL` (T4, k = 3). -/
theorem test_witness_RunBatchTraceShape :
    emits (.runBatch [0x1000000, 0] [.none, .none]) start = some [] ∧
    emits (.runBatch [0, 0] [.none, .none]) (answered [.fail]) = some [.create 2] ∧
    emits (.runBatch [0, 0] [.none, .none]) (answered [.ok, .ok, .fail])
      = some [.create 2, .stage 0 ⟨0, 0, 0⟩, .stage 1 ⟨0, 0, 0⟩, .del] := by decide +kernel
/-- RunBatchFirstErrorWins: a failed line wins over a failed `DEL` (T6); a failed check; a failed `DEL` alone
(T4, k = 6). -/
theorem test_witness_RunBatchFirstErrorWins :
    completes (.runBatch [0x900000, 0] [.none, .reg .data]) (answered [.ok, .ok, .ok, .fail, .fail])
      = some (.err (.transportError .pass)) ∧
    completes (.runBatch [0x900000, 0] [.none, .reg .control]) (answered readReplies)
      = some (.err (.protocolError .selectMismatch .control 0x9FFFCF#24)) ∧
    completes (.runBatch [0x900000, 0] [.none, .reg .data])
        (answered [.ok, .ok, .ok, .ok, .text (braced "159,255,207"), .fail])
      = some (.err (.transportError .del)) := by decide +kernel
/-- RunBatchFirstErrorWins: `CREATE` fails (T4, k = 1). -/
theorem test_witness_RunBatchFirstErrorWins_create :
    (match exec (.runBatch [0x900000, 0] [.none, .reg .data]) (answered [.fail]) with
      | .next t => decide (t.trace = start.trace ++ [⟨.create 2, .fail⟩] ∧
          t.completion = some (.err (.transportError (.create 2))))
      | _ => false) = true := by decide +kernel
theorem test_witness_BatchLinesRefineRunBatch :
    completes (.runBatch [0x900000, 0] [.none, .reg .data]) (answered readReplies)
      = some (.ok (.codes [none, some 0x9FFFCF#24])) := by decide +kernel

/-- SetVoltageSendsBatchOfThree (T3). -/
theorem test_witness_SetVoltageSendsBatchOfThree :
    v2c start.params (.fin 0) true = .ok 0xFFFCF#20 ∧
    completes (.setVoltage (.fin 0)) (unconstrained (goodReplies 3 [braced "159,255,207"]))
      = some (.ok (.payload 0xFFFCF#20)) := by decide +kernel
/-- SetVoltageSendsBatchOfThree: the batch of three whose `PASS` fails (T5, k = 5), and one that ends well. -/
theorem test_witness_SetVoltage_batch :
    completes (.runBatch [0x1FFFCF, 0x900000, 0x400001] [.none, .none, .reg .data])
      (answered [.ok, .ok, .ok, .ok, .fail]) = some (.err (.transportError .pass)) ∧
    completes (.setVoltage (.fin 0)) (answered [.ok, .ok, .ok, .ok, .fail]) = some (.err (.transportError .pass)) ∧
    completes (.runBatch [0x1FFFCF, 0x900000, 0x400001] [.none, .none, .reg .data])
      (answered (goodReplies 3 [braced "159,255,207"])) = some (.ok (.codes [none, none, some 0x9FFFCF#24])) := by
  decide +kernel
/-- SessionOpenSetsUpAndWritesClear and SessionOpenStopsAtFirstError: seven good answers; none good; six good. -/
theorem test_witness_sessionOpen :
    v2c closed.params closed.params.clearDefaultV true = .ok 0xFFFCF#20 ∧
    completes .sessionOpen
        { closed with env := { closed.env with replies := List.replicate 7 .ok ++ goodReplies 2 [] } }
      = some (.ok .none) ∧
    emits .sessionOpen { closed with env := { closed.env with replies := [.fail] } }
      = some [.initDev closed.params.devPath] ∧
    completes .sessionOpen { closed with env := { closed.env with replies := List.replicate 6 .ok ++ [.fail] } }
      = some (.err (.transportError .setSet)) := by decide +kernel
/-- SessionOpenStopsAtFirstError: a CLEAR default outside the references (95_test_vectors.md 2.5). -/
theorem test_witness_sessionOpen_range :
    completes .sessionOpen { closed with params := { closed.params with clearDefaultV := .fin 12 } }
      = some (.err (.rangeError (.volt (.fin 12)))) := by decide +kernel
/-- SessionOpenStopsAtFirstError: the CLEAR write fails, and the session stays claimed. -/
theorem test_witness_sessionOpen_clear_fails :
    (match exec .sessionOpen
        { closed with env := { closed.env with replies := List.replicate 7 .ok ++ [.fail] } } with
      | .next t => some (t.sess, t.completion)
      | _ => none) = some (.claimed, some (.err (.transportError (.create 2)))) := by decide +kernel
theorem test_witness_SetSpeedRepeatsSetup :
    completes (.setSpeed 1) (unconstrained (List.replicate 7 .ok)) = some (.ok .none) ∧
    emits (.setSpeed 1) (unconstrained [.ok, .fail]) = some [.initDev [], .setDef] := by decide +kernel
theorem test_witness_HostCommandsCompleteBetweenBatches :
    isHostCommand .getDefer = true ∧ start.seq = Seq.idle ∧ completes .getDefer start = some (.ok (.bool false)) := by
  decide +kernel
/-- HostCommandsAreRefusedExactlyWhen: each reason, at the ends of its range, and a command that is not refused. -/
theorem test_witness_HostCommandsAreRefusedExactlyWhen :
    refuses .getDefer opened = some .busy ∧ refuses .getVoltage closed = some .sessionClosed ∧
    refuses .sessionOpen start = some .sessionClaimed ∧ refuses (.runBatch [] []) start = some .batchSize ∧
    refuses (.runBatch (List.replicate 17 0) (List.replicate 17 .none)) start = some .batchSize ∧
    refuses (.runBatch [0, 0] [.none]) start = some .batchSize ∧ refuses (.setSpeed 0) start = some .operandType ∧
    completes (.runBatch (List.replicate 16 0) (List.replicate 16 .none)) start
      = some (.ok (.codes (List.replicate 16 none))) := by decide +kernel
/-- ValidationErrorsChangeNothing (P7). -/
theorem test_witness_ValidationErrorsChangeNothing :
    isHostCommand (.regWrite .soft 8#20) = true ∧
    completes (.regWrite .soft 8#20) start = some (.err (.invalidPayload .soft 8#20)) ∧
    isValidationError (.invalidPayload .soft 8#20) = true := by decide +kernel
/-- DeferIsWrittenBySetDeferAlone and SessionIsWrittenBySessionCommandsAlone: instructions of each format run. -/
theorem test_witness_writers :
    (match exec .wireNop start with | .next t => some (t.defer, t.sess) | _ => none) = some (false, .claimed) ∧
    (match exec (.regRead .data) start with | .next t => some (t.defer, t.sess) | _ => none) = some (false, .claimed) ∧
    (match exec .lineRelease start with | .next t => some (t.defer, t.sess) | _ => none)
      = some (false, .claimed) := by decide +kernel
theorem test_witness_OnlyLegalBitsAreAsserted :
    emits .softLdac start = some [.create 2, .stage 0 ⟨0x40, 0, 1⟩, .stage 1 ⟨0, 0, 0⟩, .pass, .del] ∧
    completes (.regRead .data) (bench 0xFFFCF#20 0#20 0#20 0#20) = some (.ok (.payload 0xFFFCF#20)) := by
  decide +kernel
theorem test_witness_WriteThenReadReturnsPayload :
    0x00012#20 &&& regMask start.params .control = 0x00012#20 ∧ Reg.control ≠ .soft ∧
    completes (.regWrite .control 0x00012#20) start = some (.ok .none) := by decide +kernel
/-- OutputMovesAtTheTrigger: both values of the flag. -/
theorem test_witness_OutputMovesAtTheTrigger :
    v2c start.params (.fin 1) true = .ok 0x0CC9A#20 ∧ start.defer = false ∧ ({ start with defer := true }).defer = true ∧
    dacAfter (.setVoltage (.fin 1)) start = some (0x0CC9A#20, 0x0000A#20, 0#20, 0x0CC9A#20) := by decide +kernel
/-- OnlyPassReachesTheDac: a line that fails before the commit; the bridge of a staged batch has transferred nothing. -/
theorem test_witness_OnlyPassReachesTheDac_failed :
    dacAfter (.lineCreate 2) (answered [.fail]) = some (0x12345#20, 0x0000A#20, 0#20, 0x12345#20) ∧
    (answered [.fail]).env.mode = .reference ∧ ∀ r ∈ staged.env.peer.bridge.rx, r = none := by decide +kernel
theorem test_witness_OnlyPassReachesTheDac :
    Line.create 2 ≠ .pass ∧ dacAfter (lineInstr (.create 2)) start = some (0x12345#20, 0x0000A#20, 0#20, 0x12345#20) := by
  decide +kernel
/-- StepRunsDecodedInstruction: a packet that decodes, one that does not. -/
theorem test_witness_StepRunsDecodedInstruction :
    decode (.host 0x32#8 []) = .ok .getDefer ∧ decode (.host 0x06#8 []) = .error (.reservedCommand 0x06#8) := by
  decide +kernel
/-- ReservedEncodingsAreRejected: each clause. -/
theorem test_witness_ReservedEncodingsAreRejected :
    0x5FFFFF / 1048576 = 5 ∧ 0x800000 / 1048576 = 8 ∧ 0x900001 / 1048576 = 9 ∧ 0x900001 % 1048576 ≠ 0 ∧
    decode (.wire (packCode 0x500000#24)) = .error (.reservedSelect 0x500000#24) ∧
    decode (.wire (packCode 0x000001#24)) = .error (.reservedPayload 0x000001#24) := by decide +kernel
theorem test_witness_roundtrips :
    (Instr.lineStage 15 0x40#8 0#8 1#8).wellFormed Params.default = true ∧
    (Instr.runBatch [-1, 0] [.none, .reg .soft]).wellFormed Params.default = true ∧
    decode (.wire ⟨0x1F, 0xFF, 0xCF⟩) = .ok (.wireWrData 0xFFFCF#20) ∧
    decode (.line "SPI:PASS".toList) = .ok .linePass := by decide +kernel

end Sys2Proof.Tests
end

section
/-! What the instructions of each format are (30_encoding.md R70): a W24 frame acts on the environment alone, a host
command is refused or completes one action, and the rest are transport lines. The rules about every instruction are
proved from these three descriptions. -/

namespace Sys2Proof.Machine

open Sys2Proof.Safety

/-! ### The three formats -/

theorem isWireCommand_or_isHostCommand_or_lineInstr (i : Instr) :
    isWireCommand i = true ∨ isHostCommand i = true ∨ ∃ l, i = lineInstr l := by
  cases i with
  | wireNop | wireWrData | wireWrControl | wireWrClear | wireWrSoft | wireSoftLdac | wireSoftClear | wireSoftReset
  | wireRdData | wireRdControl | wireRdClear | wireRdSoft => exact .inl rfl
  | lineInitDev path => exact .inr (.inr ⟨.initDev path, rfl⟩)
  | lineSetDef => exact .inr (.inr ⟨.setDef, rfl⟩)
  | lineSetGet => exact .inr (.inr ⟨.setGet, rfl⟩)
  | lineSetMode => exact .inr (.inr ⟨.setMode, rfl⟩)
  | lineSetSpeed k => exact .inr (.inr ⟨.setSpeed k, rfl⟩)
  | lineSetWord => exact .inr (.inr ⟨.setWord, rfl⟩)
  | lineSetSet => exact .inr (.inr ⟨.setSet, rfl⟩)
  | lineCreate n => exact .inr (.inr ⟨.create n, rfl⟩)
  | lineStage k b0 b1 b2 => exact .inr (.inr ⟨.stage k ⟨b0, b1, b2⟩, rfl⟩)
  | linePass => exact .inr (.inr ⟨.pass, rfl⟩)
  | lineRxq k => exact .inr (.inr ⟨.rxq k, rfl⟩)
  | lineDel => exact .inr (.inr ⟨.del, rfl⟩)
  | lineRelease => exact .inr (.inr ⟨.release, rfl⟩)
  | lineSpeedq => exact .inr (.inr ⟨.speedq, rfl⟩)
  | _ => exact .inr (.inl rfl)

/-- A frame at the DAC acts on the environment and on nothing else (R215). -/
theorem exec_wire {i : Instr} (hi : isWireCommand i = true) (s : State) :
    ∃ e : Env, exec i s = .next { s with env := e } := by
  cases i with
  | wireNop | wireWrData | wireWrControl | wireWrClear | wireWrSoft | wireSoftLdac | wireSoftClear | wireSoftReset
  | wireRdData | wireRdControl | wireRdClear | wireRdSoft => exact ⟨_, rfl⟩
  | _ => cases hi

/-! ### Host commands: one refusal or one action -/

/-- What an admitted host command does (R82). An instruction of another format is given no action of its own. -/
def hostAction (s : State) : Instr → Act Value
  | .pack code => Act.result ((pack code).map .bytes)
  | .unpack w0 w1 w2 => Act.result ((unpack w0 w1 w2).map .code)
  | .hasBits code mask => Act.result (.ok (.bool (hasBits code mask)))
  | .setBits code mask => Act.result (.ok (.code (setBits code mask)))
  | .clearBits code mask => Act.result (.ok (.code (clearBits code mask)))
  | .c2v p tc => Act.result (.ok (.volt (c2v s.params p tc)))
  | .v2c v tc => Act.result ((v2c s.params v tc).map .payload)
  | .encNop => Act.result (.ok (.code encNop))
  | .encWrite r p => Act.result ((encWrite s.params r p).map .code)
  | .encRead r => Act.result (.ok (.code (encRead r)))
  | .decReadback r code => Act.result ((decReadback s.params r code).map .payload)
  | .regRead r => Act.map (regRead r) .payload
  | .regWrite r p => Act.map (regWrite r p) fun _ => .none
  | .getTristate => Act.map (getFlag (tristateBit s.params)) .bool
  | .setTristate b => Act.map (setFlag (tristateBit s.params) b) fun _ => .none
  | .getOpgnd => Act.map (getFlag (opgndBit s.params)) .bool
  | .setOpgnd b => Act.map (setFlag (opgndBit s.params) b) fun _ => .none
  | .softLdac => Act.map (regWrite .soft softLdacBit) fun _ => .none
  | .softReset => Act.map (regWrite .soft softResetBit) fun _ => .none
  | .softClear => Act.map (regWrite .soft softClearBit) fun _ => .none
  | .runBatch frames expect => Act.map (runBatch frames expect) .codes
  | .getVoltage => Act.map getVoltage .volt
  | .setVoltage v => Act.map (setVoltage v) .payload
  | .getDefer => Act.result (.ok (.bool s.defer))
  | .setDefer b => fun s => (.ok .none, { s with defer := b })
  | .sessionOpen => Act.map sessionOpen fun _ => .none
  | .sessionClose => Act.map sessionClose fun _ => .none
  | .getSpeed => Act.map querySpeed .int
  | .setSpeed k => Act.map (setSpeed k) fun _ => .none
  | _ => Act.result (.ok .none)

/-- The refusals that one host command alone has (R248 b, c, d). -/
def ownRefusal (s : State) : Instr → Option Refusal
  | .sessionOpen => if s.sess = .claimed then some .sessionClaimed else none
  | .runBatch frames expect =>
    if frames.length = expect.length ∧ batchSizeOk s.params frames.length = true then none else some .batchSize
  | .setSpeed k => if k = 0 then some .operandType else none
  | _ => none

/-- Why a host command is refused, in the order of R248; `none` where it is admitted. -/
def hostRefusal (s : State) (i : Instr) : Option Refusal :=
  if s.seq.phase ≠ .idle then some .busy
  else if needsSession i = true ∧ s.sess ≠ .claimed then some .sessionClosed
  else ownRefusal s i

theorem hostRefusal_busy {s : State} (hp : s.seq.phase ≠ .idle) (i : Instr) : hostRefusal s i = some .busy :=
  if_pos hp

theorem hostRefusal_sessionClosed {s : State} (hp : s.seq.phase = .idle) {i : Instr} (hn : needsSession i = true)
    (hs : s.sess ≠ .claimed) : hostRefusal s i = some .sessionClosed := by
  simp [hostRefusal, hp, hn, hs]

theorem hostRefusal_own {s : State} (hp : s.seq.phase = .idle) {i : Instr}
    (hs : needsSession i = true → s.sess = .claimed) : hostRefusal s i = ownRefusal s i := by
  have hn : ¬ (needsSession i = true ∧ s.sess ≠ .claimed) := fun h => h.2 (hs h.1)
  simp only [hostRefusal, hp, ne_eq, not_true_eq_false, if_false, if_neg hn]

/-- An admitted host command starts between batches, and under a session where it needs one. -/
theorem hostRefusal_none {s : State} {i : Instr} (h : hostRefusal s i = none) :
    s.seq.phase = .idle ∧ (needsSession i = true → s.sess = .claimed) ∧ ownRefusal s i = none := by
  unfold hostRefusal at h
  split at h
  · cases h
  · next hp =>
    split at h
    · cases h
    · next hs => exact ⟨by simpa using hp, fun hn => by simpa [hn] using hs, h⟩

/-- The outcome of an instruction that is refused for this reason, or runs this action to its completion. -/
def outcomeOf (r : Option Refusal) (f : Act Value) (s : State) : Host.Outcome State Fault Refusal :=
  r.elim (.next (runAct f s)) .refused

theorem hostCommand_eq_outcomeOf {i : Instr} {s : State} (hn : needsSession i = false) (ho : ownRefusal s i = none)
    (f : Act Value) : hostCommand f s = outcomeOf (hostRefusal s i) f s := by
  by_cases hp : s.seq.phase = .idle
  · rw [hostCommand_idle f hp, hostRefusal_own hp (by simp [hn]), ho]; rfl
  · rw [hostCommand_busy f hp, hostRefusal_busy hp]; rfl

/-- A refusal of its own is asked for only once phase and session have let the command pass (R248). -/
theorem ioCommand_eq_outcomeOf {i : Instr} {s : State} (hn : needsSession i = true)
    (ho : s.seq.phase = .idle → s.sess = .claimed → ownRefusal s i = none) (f : Act Value) :
    ioCommand f s = outcomeOf (hostRefusal s i) f s := by
  by_cases hp : s.seq.phase = .idle
  · by_cases hs : s.sess = .claimed
    · rw [ioCommand_ready f hp hs, hostRefusal_own hp fun _ => hs, ho hp hs]; rfl
    · rw [hostRefusal_sessionClosed hp hn hs]; simp [ioCommand, hp, hs, outcomeOf]
  · rw [hostRefusal_busy hp]; simp [ioCommand, hp, outcomeOf]

/-- A host command is refused for the first reason of R248 that applies; where none does it completes its action. -/
theorem exec_host {i : Instr} (hi : isHostCommand i = true) (s : State) :
    exec i s = outcomeOf (hostRefusal s i) (hostAction s i) s := by
  cases i with
  | pack | unpack | hasBits | setBits | clearBits | c2v | v2c | encNop | encWrite | encRead | decReadback
  | getDefer | setDefer | sessionClose => exact hostCommand_eq_outcomeOf rfl rfl _
  | regRead | regWrite | getTristate | setTristate | getOpgnd | setOpgnd | softLdac | softReset | softClear
  | getVoltage | setVoltage | getSpeed => exact ioCommand_eq_outcomeOf rfl (fun _ _ => rfl) _
  | sessionOpen =>
    show execSessionOpen s = _
    unfold execSessionOpen
    split
    · next h => simp [hostRefusal, needsSession, ownRefusal, h, outcomeOf]
    · next h =>
      by_cases hp : s.seq.phase = .idle
      · exact hostCommand_eq_outcomeOf (i := .sessionOpen) rfl (if_neg fun hs => h ⟨hp, hs⟩) _
      · rw [hostCommand_busy _ hp, hostRefusal_busy hp]; rfl
  | runBatch frames expect =>
    show execRunBatch frames expect s = _
    unfold execRunBatch
    split
    · next h =>
      obtain ⟨hp, hs, hb⟩ := h
      rw [hostRefusal_own hp fun _ => hs, ownRefusal, if_neg hb]; rfl
    · next h =>
      exact ioCommand_eq_outcomeOf (i := .runBatch frames expect) rfl
        (fun hp hs => if_pos (by_contra fun hb => h ⟨hp, hs, hb⟩)) _
  | setSpeed k =>
    show execSetSpeed k s = _
    unfold execSetSpeed
    split
    · next h =>
      obtain ⟨hp, hs, hk⟩ := h
      rw [hostRefusal_own hp fun _ => hs, ownRefusal, if_pos hk]; rfl
    · next h =>
      exact ioCommand_eq_outcomeOf (i := .setSpeed k) rfl (fun hp hs => if_neg fun hk => h ⟨hp, hs, hk⟩) _
  | _ => cases hi

/-- A host command that answers a next state was admitted and has completed its action. -/
theorem exec_host_next {i : Instr} (hi : isHostCommand i = true) {s t : State} (h : exec i s = .next t) :
    hostRefusal s i = none ∧ t = runAct (hostAction s i) s := by
  rw [exec_host hi] at h
  cases hr : hostRefusal s i with
  | some r => rw [hr] at h; cases h
  | none => rw [hr] at h; injection h with h; exact ⟨rfl, h.symm⟩

/-! ### What the action of a host command keeps -/

/-- Only the session commands and `SET_DEFER` write the session or the flag (R22, R23). -/
theorem hostAction_withinSession {i : Instr} (h1 : i ≠ .sessionOpen) (h2 : i ≠ .sessionClose)
    (h3 : ∀ b, i ≠ .setDefer b) (s : State) : Keeps WithinSession (hostAction s i) := by
  cases i with
  | sessionOpen => exact absurd rfl h1
  | sessionClose => exact absurd rfl h2
  | setDefer b => exact absurd rfl (h3 b)
  | regRead r => exact (regRead_within r).map _
  | regWrite r p => exact (regWrite_within r p).map _
  | getTristate | getOpgnd => exact (getFlag_within _).map _
  | setTristate b | setOpgnd b => exact (setFlag_within _ b).map _
  | softLdac | softReset | softClear => exact (regWrite_within .soft _).map _
  | runBatch frames expect => exact (runBatch_within frames expect).map _
  | getVoltage => exact getVoltage_within.map _
  | setVoltage v => exact (setVoltage_within v).map _
  | getSpeed => exact querySpeed_within.map _
  | setSpeed k => exact (setSpeed_within k).map _
  | _ => exact Keeps.result WithinSession.refl _

theorem hostAction_within {i : Instr} (hd : ∀ b, i ≠ .setDefer b) (s : State) : Keeps Within (hostAction s i) := by
  by_cases h1 : i = .sessionOpen
  · subst h1; exact sessionOpen_within.map _
  by_cases h2 : i = .sessionClose
  · subst h2; exact sessionClose_within.map _
  exact fun u => (hostAction_withinSession h1 h2 hd s u).toWithin

theorem hostAction_endsIdle (i : Instr) (s : State) : EndsIdle (hostAction s i) := by
  cases i with
  | setDefer b => exact fun _ h => h
  | sessionOpen => exact sessionOpen_endsIdle.map _
  | sessionClose => exact sessionClose_endsIdle.map _
  | regRead r => exact (regRead_endsIdle r).map _
  | regWrite r p => exact (regWrite_endsIdle r p).map _
  | getTristate | getOpgnd => exact (getFlag_endsIdle _).map _
  | setTristate b | setOpgnd b => exact (setFlag_endsIdle _ b).map _
  | softLdac | softReset | softClear => exact (regWrite_endsIdle .soft _).map _
  | runBatch frames expect => exact (runBatch_endsIdle frames expect).map _
  | getVoltage => exact getVoltage_endsIdle.map _
  | setVoltage v => exact (setVoltage_endsIdle v).map _
  | getSpeed => exact querySpeed_blind.endsIdle.map _
  | setSpeed k => exact (setSpeed_endsIdle k).map _
  | _ => exact EndsIdle.result _

/-- An admitted `RUN_BATCH` has lists of one length, so that its batch opens in canonical form (R151). -/
theorem hostAction_keepsInv {i : Instr} {s : State} (ho : ownRefusal s i = none) :
    KeepsInv (needsSession i) (hostAction s i) := by
  cases i with
  | setDefer b => exact fun _ h hp hs => ⟨inv_congr h rfl rfl rfl, hp, hs⟩
  | sessionOpen => exact sessionOpen_keepsInv.map _
  | sessionClose => exact sessionClose_keepsInv.map _
  | regRead r => exact (regRead_keepsInv r).map _
  | regWrite r p => exact (regWrite_keepsInv r p).map _
  | getTristate | getOpgnd => exact (getFlag_keepsInv _).map _
  | setTristate b | setOpgnd b => exact (setFlag_keepsInv _ b).map _
  | softLdac | softReset | softClear => exact (regWrite_keepsInv .soft _).map _
  | runBatch frames expect =>
    have hlen : frames.length = expect.length := by
      by_contra hne
      simp [ownRefusal, hne] at ho
    exact (runBatch_keepsInv hlen.symm).map _
  | getVoltage => exact getVoltage_keepsInv.map _
  | setVoltage v => exact (setVoltage_keepsInv v).map _
  | getSpeed => exact (querySpeed_keepsInv true).map _
  | setSpeed k => exact (setSpeed_keepsInv k).map _
  | _ => exact KeepsInv.result _ _

theorem runAct_completes (f : Act Value) (s : State) : ∃ c, (runAct f s).completion = some c := by
  cases h : (f s).1 with
  | ok v => exact ⟨_, by rw [runAct_ok h]⟩
  | error e => exact ⟨_, by rw [runAct_error h]⟩

theorem exec_host_inv {i : Instr} (hi : isHostCommand i = true) {s t : State} (hs : Safe s)
    (h : exec i s = .next t) : Safe t := by
  obtain ⟨hr, rfl⟩ := exec_host_next hi h
  obtain ⟨hp, hsess, ho⟩ := hostRefusal_none hr
  exact inv_runAct (hostAction_keepsInv ho) hs hp hsess

/-! ### What a transport line keeps -/

/-- No transport line writes the flag or the session (R22, R23). -/
theorem exec_lineInstr_keeps {l : Line} {s t : State} (h : exec (lineInstr l) s = .next t) :
    t.defer = s.defer ∧ t.sess = s.sess := by
  cases l with
  | initDev | setDef | setGet | setMode | setSpeed | setWord | setSet | release =>
    exact hostCommand_keeps ((sendLine_within _).map _) h
  | speedq => exact hostCommand_keeps (querySpeed_within.map _) h
  | create n => exact execLineCreate_keeps h
  | stage i u =>
    have hw := execLineStage_within h
    exact ⟨hw.defer, hw.sess⟩
  | pass =>
    have hw := execLinePass_within h
    exact ⟨hw.defer, hw.sess⟩
  | rxq i =>
    have hw := execLineRxq_within h
    exact ⟨hw.defer, hw.sess⟩
  | del => exact execLineDel_keeps h

/-- `CREATE` opens a canonical batch, or leaves the sequencer idle (R152). -/
theorem execLineCreate_inv {n : Nat} {s t : State} (hs : Safe s) (h : execLineCreate n s = .next t) : Safe t := by
  unfold execLineCreate at h
  split at h
  · next hp =>
    split at h
    · next hc =>
      split at h
      · injection h with h
        have hb := (seqBegin_inv (s := seqLoad (List.replicate n ⟨0, 0, 0⟩) (List.replicate n .none) s)
          (hs.scan_idle hp) hc (seqLoad_lengths _ _ s).1 (by simp [seqLoad]) (seqLoad_lengths _ _ s).2 rfl).1
        subst h
        split
        · exact hb
        · exact inv_congr hb (by simp) (by simp) (by simp)
      · cases h
    · cases h
  · cases h

/-- What the slots hold is no part of the invariant, only how many they are. -/
theorem inv_setTx {s : State} (hs : Safe s) (hp : s.seq.phase ≠ .idle) {tx : List Triple}
    (hlen : tx.length = s.seq.tx.length) : Safe { s with seq := { s.seq with tx := tx } } := by
  refine ⟨?_, ?_, hs.session⟩
  · have hw := hs.buffer
    cases hph : s.seq.phase with
    | idle => exact absurd hph hp
    | staging => simpa [Memory.wf, hph, hlen] using hw
    | committed => simpa [Memory.wf, hph, hlen] using hw
  · have htr := hs.trace
    cases hsc : scan s.trace with
    | none => simp [hsc, traceAgrees] at htr
    | some b => cases b <;> simpa [hsc, traceAgrees] using htr

theorem execLineStage_inv {i : Nat} {b0 b1 b2 : Byte} {s t : State} (hs : Safe s)
    (h : execLineStage i b0 b1 b2 s = .next t) : Safe t := by
  unfold execLineStage at h
  split at h
  · next hex =>
    split at h
    · next hc =>
      obtain ⟨hp, he, rfl⟩ := hc
      have hlt : s.seq.ptr < s.seq.n := by simpa [slotExists, hp] using hex
      injection h with h
      subst h
      exact (seqStage_inv (inv_setTx hs (by simp [hp]) (List.length_set ..)) hp he hlt).1
    · cases h
  · cases h

theorem execLinePass_inv {s t : State} (hs : Safe s) (h : execLinePass s = .next t) : Safe t := by
  unfold execLinePass at h
  split at h
  · next hc =>
    obtain ⟨hp, he, hptr⟩ := hc
    injection h with h
    subst h
    exact (seqCommit_inv hs hp he hptr).1
  · cases h

theorem execLineRxq_inv {i : Nat} {s t : State} (hs : Safe s) (h : execLineRxq i s = .next t) : Safe t := by
  unfold execLineRxq at h
  split at h
  · next hex =>
    split at h
    · next hc =>
      obtain ⟨hp, he, hle, -⟩ := hc
      have hlt : i < s.seq.n := by simpa [slotExists, hp] using hex
      injection h with h
      subst h
      exact (fetchSlot_inv i _ (skip_inv i hs hp he hle hlt.le) hp he le_rfl hlt).1
    · cases h
  · cases h

theorem execLineDel_inv {s t : State} (hs : Safe s) (h : execLineDel s = .next t) : Safe t := by
  unfold execLineDel at h
  split at h
  · next hc =>
    obtain ⟨hp, hd⟩ := hc
    injection h with h
    subst h
    exact inv_congr (seqEnd_inv hs hp (hd.imp_right And.left)) (by simp) (by simp) (by simp)
  · cases h

theorem exec_lineInstr_inv {l : Line} {s t : State} (hs : Safe s) (h : exec (lineInstr l) s = .next t) : Safe t := by
  cases l with
  | initDev | setDef | setGet | setMode | setSpeed | setWord | setSet | release =>
    exact inv_hostCommand ((sendLine_keepsInv false rfl).map _) hs h
  | speedq => exact inv_hostCommand ((querySpeed_keepsInv false).map _) hs h
  | create n => exact execLineCreate_inv hs h
  | stage i u => exact execLineStage_inv hs h
  | pass => exact execLinePass_inv hs h
  | rxq i => exact execLineRxq_inv hs h
  | del => exact execLineDel_inv hs h

/-! ### What every instruction keeps -/

theorem exec_inv {i : Instr} {s t : State} (hs : Safe s) (h : exec i s = .next t) : Safe t := by
  rcases isWireCommand_or_isHostCommand_or_lineInstr i with hw | hh | ⟨l, rfl⟩
  · obtain ⟨e, he⟩ := exec_wire hw s
    rw [he] at h
    injection h with h
    exact inv_congr hs (by rw [← h]) (by rw [← h]) (by rw [← h])
  · exact exec_host_inv hh hs h
  · exact exec_lineInstr_inv hs h

/-- Flag and session have three writers (R22, R23). -/
theorem exec_keeps_defer_sess {i : Instr} (h1 : i ≠ .sessionOpen) (h2 : i ≠ .sessionClose)
    (h3 : ∀ b, i ≠ .setDefer b) {s t : State} (h : exec i s = .next t) : t.defer = s.defer ∧ t.sess = s.sess := by
  rcases isWireCommand_or_isHostCommand_or_lineInstr i with hw | hh | ⟨l, rfl⟩
  · obtain ⟨e, he⟩ := exec_wire hw s
    rw [he] at h
    injection h with h
    subst h
    exact ⟨rfl, rfl⟩
  · obtain ⟨-, rfl⟩ := exec_host_next hh h
    have hw := hostAction_withinSession h1 h2 h3 s s
    simp [hw.defer, hw.sess]
  · exact exec_lineInstr_keeps h

/-! ### One step -/

theorem step_nil {s : State} (h : s.inbox = []) : step s = .next s := by simp [step, h]

theorem step_decoded {s : State} {p : Packet} {rest : List Packet} (h : s.inbox = p :: rest) {i : Instr}
    (hd : decode p = .ok i) : step s = exec i { s with inbox := rest } := by simp [step, h, hd]

theorem step_undecodable {s : State} {p : Packet} {rest : List Packet} (h : s.inbox = p :: rest) {x : DecodeError}
    (hd : decode p = .error x) : step s = .refused (.undecodable x) := by simp [step, h, hd]

end Sys2Proof.Machine
end

section
/-! What every step keeps, when a host command is refused and how it ends, what writes the flag and the session, and
reset (10_state.md R22, R23, R39, R40; 60_exceptions.md R236, R248). -/

namespace Sys2Proof.Machine

open Sys2Proof.Safety

/-- Settles O60: a step waits, refuses its packet, or executes one instruction, and each instruction keeps the
invariant. -/
theorem everyStepKeepsTheInvariant : Obligations.EveryStepKeepsTheInvariant := by
  intro s t hs h
  cases hin : s.inbox with
  | nil =>
    rw [step_nil hin] at h
    injection h with h
    exact h ▸ hs
  | cons p rest =>
    cases hd : decode p with
    | error x => rw [step_undecodable hin hd] at h; cases h
    | ok i =>
      rw [step_decoded hin hd] at h
      exact exec_inv (s := { s with inbox := rest }) (inv_congr hs rfl rfl rfl) h

/-- Settles O44: an admitted host command is its completed action, which begins and ends between batches;
`SET_DEFER`, which writes the flag, is treated apart. -/
theorem hostCommandsCompleteBetweenBatches : Obligations.HostCommandsCompleteBetweenBatches := by
  intro i s t hi hq h
  obtain ⟨-, rfl⟩ := exec_host_next hi h
  have hidle : (runAct (hostAction s i) s).seq = Seq.idle := by
    rw [runAct_seq]; exact hostAction_endsIdle i s s hq
  refine ⟨hidle, ?_⟩
  by_cases hd : ∃ b, i = .setDefer b
  · obtain ⟨b, rfl⟩ := hd
    exact ⟨rfl, rfl, rfl, List.prefix_refl _, runAct_completes _ s⟩
  · have hw := hostAction_within (fun b hb => hd ⟨b, hb⟩) s s
    exact ⟨by rw [runAct_params, hw.params], by rw [runAct_inbox, hw.inbox], by rw [runAct_env, hw.mode],
      by rw [runAct_trace]; exact hw.trace, runAct_completes _ s⟩

/-- Settles O45: the reasons of R248 read off `hostRefusal` one by one; where none applies the command is admitted. -/
theorem hostCommandsAreRefusedExactlyWhen : Obligations.HostCommandsAreRefusedExactlyWhen := by
  intro i s hi
  have refused : ∀ {r}, hostRefusal s i = some r → exec i s = .refused r := fun hr => by rw [exec_host hi, hr]; rfl
  refine ⟨fun hp => refused (hostRefusal_busy hp i),
    fun hp hn hs => refused (hostRefusal_sessionClosed hp hn (by simp [hs])), ?_, ?_, ?_, ?_⟩
  · rintro hp rfl hs
    exact refused ((hostRefusal_own hp fun _ => hs).trans (if_pos hs))
  · rintro fs xs hp hs rfl hbad
    refine refused ((hostRefusal_own hp fun _ => hs).trans (if_neg ?_))
    simp only [batchSizeOk, Bool.and_eq_true, decide_eq_true_eq]
    omega
  · rintro hp hs rfl
    exact refused (hostRefusal_own hp fun _ => hs)
  · intro hp hs hopen hbatch hspeed
    have hown : ownRefusal s i = none := by
      cases i with
      | sessionOpen => exact if_neg (by simp [hopen rfl])
      | runBatch fs xs =>
        obtain ⟨hpos, hmax, hlen⟩ := hbatch fs xs rfl
        exact if_pos ⟨hlen, by simp [batchSizeOk, hmax]; omega⟩
      | setSpeed k => exact if_neg fun hk => hspeed (congrArg Instr.setSpeed hk)
      | _ => rfl
    exact ⟨_, by rw [exec_host hi, hostRefusal_own hp hs, hown]; rfl⟩

/-- Settles O47: apart from `SET_DEFER`, the session commands are the only ones outside `exec_keeps_defer_sess`. -/
theorem deferIsWrittenBySetDeferAlone : Obligations.DeferIsWrittenBySetDeferAlone := by
  intro i s t hd h
  by_cases hs : i = .sessionOpen ∨ i = .sessionClose
  · have hi : isHostCommand i = true := by rcases hs with rfl | rfl <;> rfl
    obtain ⟨-, rfl⟩ := exec_host_next hi h
    rw [runAct_defer, (hostAction_within hd s s).defer]
  · rw [not_or] at hs
    exact (exec_keeps_defer_sess hs.1 hs.2 hd h).1

/-- Settles O48: `SET_DEFER`, which `exec_keeps_defer_sess` leaves out, writes the flag alone. -/
theorem sessionIsWrittenBySessionCommandsAlone : Obligations.SessionIsWrittenBySessionCommandsAlone := by
  intro i s t h1 h2 h
  by_cases hd : ∃ b, i = .setDefer b
  · obtain ⟨b, rfl⟩ := hd
    obtain ⟨-, rfl⟩ := exec_host_next rfl h
    rw [runAct_sess]; rfl
  · exact (exec_keeps_defer_sess h1 h2 (fun b hb => hd ⟨b, hb⟩) h).2

/-- Settles O53: the field lemmas of `blockReset`, and the literal reset state. -/
theorem resetPutsBlockAtItsResetValues : Obligations.ResetPutsBlockAtItsResetValues :=
  ⟨fun s => ⟨blockReset_sess s, blockReset_defer s, by rw [blockReset_seq]; rfl, blockReset_trace s, blockReset_env s⟩,
    rfl, rfl, rfl, rfl⟩

/-- Settles O54: the three cases of the next packet. -/
theorem stepRunsDecodedInstruction : Obligations.StepRunsDecodedInstruction := fun _ _ _ h =>
  ⟨fun _ hd => step_decoded h hd, fun _ hd => step_undecodable h hd, step_nil rfl⟩

/-- Settles O59: an idle state is safe when its buffer is cleared and its trace, here empty, is bracketed. -/
theorem resetIsSafe : Obligations.ResetIsSafe := (inv_idle_iff rfl).2 ⟨rfl, rfl⟩

end Sys2Proof.Machine
end

section
/-! The lines of the batch protocol one by one (20_memory.md R50 to R52; 43_sequencer.md R152 to R156, R162): for each
line the states in which it stops, and for the two that reach a slot the state it ends in; and which host commands can
end in a validation error (60_exceptions.md R230). -/

namespace Sys2Proof.Machine

open Sys2Proof.Safety

/-! ### Slots -/

/-- `TX` and `RX` exist while a batch is open, up to its size (R50). -/
theorem slotExists_iff {i : Nat} {s : State} : slotExists i s = true ↔ s.seq.phase ≠ .idle ∧ i < s.seq.n := by
  simp [slotExists]

theorem lineExpect_reg {i : Nat} {s : State} {r : Reg} (h : s.seq.expect[i]? = some (.reg r)) :
    lineExpect i s = .reg r := by simp [lineExpect, h]

/-- A slot that names no register is fetched without a check. -/
theorem lineExpect_raw {i : Nat} {s : State} (h : ∀ r, s.seq.expect[i]? ≠ some (.reg r)) : lineExpect i s = .raw := by
  unfold lineExpect
  split
  · next r hr => exact absurd hr (h r)
  · rfl

/-! ### Where a line of the batch protocol stops -/

theorem exec_lineCreate_busy {n : Nat} {s : State} (hp : s.seq.phase ≠ .idle) :
    exec (.lineCreate n) s = .refused .busy := if_neg hp

theorem exec_lineCreate_sessionClosed {n : Nat} {s : State} (hp : s.seq.phase = .idle) (hs : s.sess ≠ .claimed) :
    exec (.lineCreate n) s = .refused .sessionClosed := (if_pos hp).trans (if_neg hs)

theorem exec_lineCreate_batchSize {n : Nat} {s : State} (hp : s.seq.phase = .idle) (hs : s.sess = .claimed)
    (hn : batchSizeOk s.params n ≠ true) : exec (.lineCreate n) s = .refused .batchSize :=
  (if_pos hp).trans ((if_pos hs).trans (if_neg hn))

theorem exec_lineStage_noSlot {i : Nat} (b0 b1 b2 : Byte) {s : State} (h : ¬ (s.seq.phase ≠ .idle ∧ i < s.seq.n)) :
    exec (.lineStage i b0 b1 b2) s = .fault (.noSlot i) := if_neg (mt slotExists_iff.1 h)

theorem exec_lineStage_outOfOrder {i : Nat} (b0 b1 b2 : Byte) {s : State} (hp : s.seq.phase ≠ .idle)
    (hi : i < s.seq.n) (h : ¬ (s.seq.phase = .staging ∧ s.seq.err = none ∧ i = s.seq.ptr)) :
    exec (.lineStage i b0 b1 b2) s = .refused .outOfOrder :=
  (if_pos (slotExists_iff.2 ⟨hp, hi⟩)).trans (if_neg h)

theorem exec_lineRxq_noSlot {i : Nat} {s : State} (h : ¬ (s.seq.phase ≠ .idle ∧ i < s.seq.n)) :
    exec (.lineRxq i) s = .fault (.noSlot i) := if_neg (mt slotExists_iff.1 h)

theorem exec_lineRxq_outOfOrder {i : Nat} {s : State} (hp : s.seq.phase ≠ .idle) (hi : i < s.seq.n)
    (h : ¬ (s.seq.phase = .committed ∧ s.seq.err = none ∧ s.seq.fptr ≤ i ∧ skippable s.seq.fptr i s = true)) :
    exec (.lineRxq i) s = .refused .outOfOrder := (if_pos (slotExists_iff.2 ⟨hp, hi⟩)).trans (if_neg h)

theorem exec_linePass_outOfOrder {s : State}
    (h : ¬ (s.seq.phase = .staging ∧ s.seq.err = none ∧ s.seq.ptr = s.seq.n)) :
    exec .linePass s = .refused .outOfOrder := if_neg h

theorem exec_lineDel_outOfOrder {s : State}
    (h : ¬ (s.seq.phase ≠ .idle ∧
      (s.seq.err ≠ none ∨ (s.seq.phase = .committed ∧ skippable s.seq.fptr s.seq.n s = true)))) :
    exec .lineDel s = .refused .outOfOrder := if_neg h

/-! ### The two lines that reach a slot -/

/-- `SEQ_STAGE` of a slot with nothing pending, as one line (R153). -/
theorem seqStage_line {s : State} {t : Triple} (ht : s.seq.tx[s.seq.ptr]? = some t) (he : s.seq.err = none) :
    seqStage s = { (emit (.stage s.seq.ptr t) s).2 with
      seq := if (emit (.stage s.seq.ptr t) s).1 = .fail
        then { s.seq with err := some (.transportError (.stage s.seq.ptr t)) }
        else { s.seq with ptr := s.seq.ptr + 1 } } := by
  unfold seqStage
  rw [ht]
  dsimp only
  rw [memWriteTx_self ht]
  split
  · unfold recordErr
    rw [emit_seq, he]
  · rfl

/-- `STAGE` of the next slot writes the slot and sends the line (R51, R153). -/
theorem exec_lineStage {b0 b1 b2 : Byte} {s : State} (hp : s.seq.phase = .staging) (he : s.seq.err = none)
    (hi : s.seq.ptr < s.seq.n) (hl : s.seq.tx.length = s.seq.n) :
    exec (.lineStage s.seq.ptr b0 b1 b2) s = .next { (emit (.stage s.seq.ptr ⟨b0, b1, b2⟩) s).2 with
      seq := if (emit (.stage s.seq.ptr ⟨b0, b1, b2⟩) s).1 = .fail
        then { s.seq with
          tx := s.seq.tx.set s.seq.ptr ⟨b0, b1, b2⟩
          err := some (.transportError (.stage s.seq.ptr ⟨b0, b1, b2⟩)) }
        else { s.seq with tx := s.seq.tx.set s.seq.ptr ⟨b0, b1, b2⟩, ptr := s.seq.ptr + 1 } } := by
  have hex : slotExists s.seq.ptr s = true := slotExists_iff.2 ⟨by simp [hp], hi⟩
  refine ((if_pos hex).trans (if_pos ⟨hp, he, rfl⟩)).trans ?_
  exact congrArg Host.Outcome.next (seqStage_line (t := ⟨b0, b1, b2⟩)
    (s := { s with seq := { s.seq with tx := s.seq.tx.set s.seq.ptr ⟨b0, b1, b2⟩ } })
    (List.getElem?_set_self (hl ▸ hi)) he)

/-- `RXQ` of the next wanted slot is one fetch, which leaves the position at the slot or moves it past (R52, R155). -/
theorem exec_lineRxq {i : Nat} {s : State} (hp : s.seq.phase = .committed) (he : s.seq.err = none)
    (hf : s.seq.fptr ≤ i) (hi : i < s.seq.n) (hs : skippable s.seq.fptr i s = true) :
    exec (.lineRxq i) s = .next { (emit (.rxq i) s).2 with seq := match (fetchOne i (lineExpect i s) s).1 with
      | .ok c => { s.seq with result := s.seq.result.set i (some c), fptr := i + 1 }
      | .error x => { s.seq with fptr := i, err := some x } } := by
  have hex : slotExists i s = true := slotExists_iff.2 ⟨by simp [hp], hi⟩
  refine ((if_pos hex).trans (if_pos ⟨hp, he, hf, hs⟩)).trans ?_
  rw [fetchSlot_line i _ { s with seq := { s.seq with fptr := i } } he, fetchOne_blind]
  rfl

/-- A fetch whose line is answered with no triple is a transport error (R52, R234). -/
theorem fetchOne_fail {i : Nat} (x : Expect) {s : State} (h : (emit (.rxq i) s).1 = .fail) :
    (fetchOne i x s).1 = .error (.transportError (.rxq i)) := by
  simp only [fetchOne, h]

theorem fetchOne_bytes {i : Nat} (x : Expect) {s : State} {t : Triple} (h : (emit (.rxq i) s).1 = .bytes t) :
    (fetchOne i x s).1 = (checkResponse s.params x (unpackBytes t)).map fun _ => unpackBytes t := by
  simp only [fetchOne, h]

/-! ### Answers to a fetch -/

theorem readReply_text_some {i : Nat} {text : List Char} {t : Triple} (h : readTriple text = some t) :
    readReply (.rxq i) (.text text) = .bytes t := by simp [readReply, h]

theorem readReply_text_none {i : Nat} {text : List Char} (h : readTriple text = none) :
    readReply (.rxq i) (.text text) = .fail := by simp [readReply, h]

/-- The reference peer answers what it holds in the slot (R214). -/
theorem referenceLine_rxq {P : Params} {i : Nat} {t : Triple} {e : Env}
    (h : e.peer.bridge.rx[i]? = some (some t)) : referenceLine P (.rxq i) e = (.bytes t, e) := by
  simp [referenceLine, h]

/-! ### Lines and the DAC -/

theorem not_transferred {b : Bridge} (h : ∀ r ∈ b.rx, r = none) : b.transferred = false := by
  simp only [Bridge.transferred, List.any_eq_false]
  intro r hr
  simp [h r hr]

/-- What the emitted line leaves of the DAC, the instruction that emits it leaves. -/
theorem exec_lineInstr_dac {l : Line} {s t : State} (hd : (answer s.params l s.env).2.dac = s.env.dac)
    (h : exec (lineInstr l) s = .next t) : t.env.dac = s.env.dac := by
  rcases lineInstr_env h with he | he
  · rw [he, emit_env, hd]
  · rw [he]

/-! ### Host commands and validation errors -/

theorem sendLine_noVal (l : Line) : NoVal (sendLine l) := fun s x h => by
  unfold sendLine at h
  dsimp only at h
  split at h
  · injection h with h; subst h; rfl
  · cases h

theorem querySpeed_noVal : NoVal querySpeed := fun s x h => by
  unfold querySpeed at h
  dsimp only at h
  split at h
  · cases h
  · injection h with h; subst h; rfl

/-- A flag setter writes a legal payload, so it ends in no validation error (R128, R130). -/
theorem setFlag_noVal (m : Payload) (b : Bool) : NoVal (setFlag m b) := fun s x h => by
  unfold setFlag at h
  cases hr : (regRead .control s).1 with
  | error y =>
    rw [andThen_error hr] at h
    injection h with h
    exact h ▸ regRead_noVal .control s y hr
  | ok p =>
    rw [andThen_ok hr] at h
    refine regWrite_noVal ?_ h
    rw [(regRead_within .control s).params, withFlag_legal]

theorem regWrite_clear_noVal (p : Payload) : NoVal (regWrite .clear p) := fun s _ h =>
  regWrite_noVal (regMask_full s.params p).2 h

/-- The range check of the CLEAR default precedes the setup lines (R184). -/
theorem sessionOpen_clean : CleanErr sessionOpen := fun s => by
  unfold sessionOpen
  split
  · exact fun _ _ _ => rfl
  · have hclaim : NoVal (setSession .claimed) := fun _ _ h => nomatch h
    exact ((sendLines_noVal _).andThen fun _ => hclaim.andThen fun _ => regWrite_clear_noVal _).clean s

theorem sessionClose_noVal : NoVal sessionClose := fun s => sendLine_noVal .release s

/-- The range check of the voltage precedes the batch (R181). -/
theorem setVoltage_clean (v : Volt) : CleanErr (setVoltage v) := fun s => by
  unfold setVoltage
  split
  · exact fun _ _ _ => rfl
  · exact map_clean (runBatch_clean _ _ (Eq.refl 3)) _ s

theorem hostAction_clean {i : Instr} {s : State} (ho : ownRefusal s i = none) : CleanErr (hostAction s i) := by
  cases i with
  | setDefer b => exact fun _ _ h => nomatch h
  | sessionOpen => exact map_clean sessionOpen_clean _
  | sessionClose => exact (sessionClose_noVal.map _).clean
  | regRead r => exact ((regRead_noVal r).map _).clean
  | regWrite r p => exact map_clean (regWrite_clean r p) _
  | getTristate | getOpgnd => exact (((regRead_noVal .control).map _).map _).clean
  | setTristate b | setOpgnd b => exact ((setFlag_noVal _ b).map _).clean
  | softLdac | softReset | softClear => exact map_clean (regWrite_clean .soft _) _
  | runBatch frames expect =>
    have hlen : frames.length = expect.length := by
      by_contra hne
      simp [ownRefusal, hne] at ho
    exact map_clean (runBatch_clean frames expect hlen.symm) _
  | getVoltage => exact NoVal.clean (NoVal.map (fun s => (regRead_noVal .data).map _ s) _)
  | setVoltage v => exact map_clean (setVoltage_clean v) _
  | getSpeed => exact (querySpeed_noVal.map _).clean
  | setSpeed k => exact (NoVal.map (fun s => sendLines_noVal _ s) _).clean
  | _ => exact fun _ _ _ _ => rfl

/-- A command that completes with an error is an action that has ended in it (R236 a). -/
theorem error_of_runAct {f : Act Value} {s : State} {x : Err} (h : (runAct f s).completion = some (.err x)) :
    (f s).1 = .error x := by
  cases hr : (f s).1 with
  | ok v => rw [runAct_ok hr] at h; cases h
  | error e => rw [runAct_error hr] at h; cases h; rfl

/-- A command whose action is clean has changed nothing but its completion when that is a validation error. -/
theorem CleanErr.runAct {f : Act Value} (hf : CleanErr f) {s : State} {x : Err}
    (h : (runAct f s).completion = some (.err x)) (hx : isValidationError x = true) :
    runAct f s = { s with completion := some (.err x) } := by
  have hr := error_of_runAct h
  rw [runAct_error hr, hf s x hr hx]

end Sys2Proof.Machine
end

section
/-! The memory of a batch and the lines that reach it (20_memory.md R50 to R61): a slot staged, a slot fetched, the
lines that stop, what reaches the DAC, and errors that reach nothing. -/

namespace Sys2Proof.Machine

open Sys2Proof.Safety

/-- Settles O23: `readTriple_iff` for the texts; the line is one fetch, whose answer and check decide the rest. -/
theorem rxqLineFetchesSlot : Obligations.RxqLineFetchesSlot := by
  refine ⟨readTriple_iff, fun i s hp he hf hi hskip => ?_⟩
  have hfit : AnswerFits (.rxq i) (answer s.params (.rxq i) s.env).1 := answer_fits _ _ _
  refine ⟨_, (answer s.params (.rxq i) s.env).2, hfit, ⟨answer_replies _ _ _, answer_mode _ _ _⟩, ?_, ?_, ?_⟩
  · rintro ⟨hm, hr⟩ t ht
    rw [answer_reference _ _ _ hm hr, referenceLine_rxq ht]
    exact ⟨rfl, rfl⟩
  · intro text rest hr
    rw [answer_named _ _ _ _ _ hr (by simp)]
    refine ⟨fun v0 v1 v2 ht h0 h1 h2 => ⟨readReply_text_some (readTriple_some ht h0 h1 h2), ?_⟩,
      fun h => readReply_text_none (readTriple_none h)⟩
    simp only [unpackBytes_toNat, BitVec.toNat_ofNat]
    omega
  · rw [exec_lineRxq hp he hf hi (skippable_of_none hskip)]
    rcases hfit with ha | ⟨t, ha⟩
    · rw [fetchOne_fail _ ha, emit_after, ha]
      rfl
    · rw [fetchOne_bytes _ ha, emit_after, ha]
      cases hx : s.seq.expect[i]? with
      | none => rw [lineExpect_raw (by simp [hx])]; rfl
      | some x =>
        cases x with
        | none | raw => rw [lineExpect_raw (by simp [hx])]; rfl
        | reg r =>
          rw [lineExpect_reg hx, checkResponse_reg]
          dsimp only
          cases decReadback s.params r (unpackBytes t) <;> rfl

/-- Settles O25: each clause denies the condition of its line, and the rule of that line says how it stops. -/
theorem sequencerLinesStopOutOfOrder : Obligations.SequencerLinesStopOutOfOrder := by
  intro s i b0 b1 b2
  refine ⟨exec_lineCreate_busy, fun hp hs => exec_lineCreate_sessionClosed hp (by simp [hs]), ?_, ?_, ?_, ?_, ?_⟩
  · intro hp hs hn
    refine exec_lineCreate_batchSize hp hs ?_
    simp only [batchSizeOk, ne_eq, Bool.and_eq_true, decide_eq_true_eq]
    omega
  · intro h
    have hno : ¬ (s.seq.phase ≠ .idle ∧ i < s.seq.n) := fun ⟨hp, hi⟩ => h.elim hp (by omega)
    exact ⟨exec_lineStage_noSlot b0 b1 b2 hno, exec_lineRxq_noSlot hno⟩
  · intro hp hi
    refine ⟨fun h => exec_lineStage_outOfOrder b0 b1 b2 hp hi ?_, fun h => exec_lineRxq_outOfOrder hp hi ?_⟩
    · rintro ⟨hst, he, hptr⟩
      rcases h with hc | hne | hne
      · rw [hst] at hc; cases hc
      · exact hne he
      · exact hne hptr
    · rintro ⟨hc, he, hle, hskip⟩
      rcases h with hst | hne | hlt | ⟨j, x, hj, hji, hx, hxn⟩
      · rw [hc] at hst; cases hst
      · exact hne he
      · omega
      · exact not_skippable_of_wanted hj hji hx hxn hskip
  · intro h
    refine exec_linePass_outOfOrder ?_
    rintro ⟨hst, he, hptr⟩
    exact h.elim (· hst) fun h => h.elim (· he) (· hptr)
  · intro h
    refine exec_lineDel_outOfOrder ?_
    rintro ⟨hp, hend⟩
    rcases h with hidle | ⟨he, h⟩
    · exact hp hidle
    · rcases hend with hne | ⟨hc, hskip⟩
      · exact hne he
      · rcases h with hst | ⟨j, x, hj, hjn, hx, hxn⟩
        · rw [hc] at hst; cases hst
        · exact not_skippable_of_wanted hj hjn hx hxn hskip

/-- Settles O46: the action of an admitted host command is clean. -/
theorem validationErrorsChangeNothing : Obligations.ValidationErrorsChangeNothing := by
  intro i s t x hi h hc hx
  obtain ⟨hr, rfl⟩ := exec_host_next hi h
  obtain ⟨-, -, ho⟩ := hostRefusal_none hr
  exact (hostAction_clean ho).runAct hc hx

/-- Settles O52: by itself the reference peer reaches its DAC at `PASS` alone; where a line fails, not before the batch
is transferred. -/
theorem onlyPassReachesTheDac : Obligations.OnlyPassReachesTheDac := by
  refine ⟨fun l s t hw hl h => exec_lineInstr_dac ?_ h, fun l s t hm hl hq hd h => exec_lineInstr_dac ?_ h⟩
  · rw [answer_reference _ _ _ hw.1 hw.2, referenceLine_dac hl]
  · exact answer_dac_before hl hq s.env hm fun hdel => not_transferred (hd hdel)

/-- Settles O21: the rule of the line, with the peer's answer. -/
theorem stageLineStagesNextSlot : Obligations.StageLineStagesNextSlot := by
  intro b0 b1 b2 s hp he hi hl
  refine ⟨_, (answer s.params (.stage s.seq.ptr ⟨b0, b1, b2⟩) s.env).2, answer_command rfl _ _,
    ⟨answer_replies _ _ _, answer_mode _ _ _⟩, ?_, exec_lineStage hp he hi hl⟩
  rintro ⟨hm, hr⟩
  rw [answer_reference _ _ _ hm hr]
  exact ⟨rfl, rfl⟩

end Sys2Proof.Machine
end

section
/-! The encoding (30_encoding.md R70 to R99): a frame's packet is its opcode and its payload, a line's packet is its
text, so that decoding and encoding invert each other on both; the encodings that stand for no instruction. -/

namespace Sys2Proof

open Sys2Proof.Machine Sys2Proof.Laws

/-! ### Frames -/

theorem decode_packCode (c : Code) : decode (.wire (packCode c)) = decodeWire c :=
  congrArg decodeWire (unpackBytes_packCode c)

/-- The packet of a code's own opcode and payload is that code (R77). -/
theorem wirePacket_parts (c : Code) : wirePacket (opcodeOf c) (payloadOf c) = .wire (packCode c) := by
  rw [wirePacket, codeOf_parts]

theorem noPayload_ok {c : Code} {i j : Instr} (h : noPayload c i = .ok j) : payloadOf c = 0 ∧ i = j := by
  unfold noPayload at h
  split at h
  · next hp => exact ⟨hp, Except.ok.inj h⟩
  · cases h

theorem noPayload_reserved {c : Code} (i : Instr) (h : c.toNat % 1048576 ≠ 0) :
    noPayload c i = .error (.reservedPayload c) := by
  refine if_neg fun hp => h ?_
  rw [← payloadOf_toNat, hp]
  rfl

/-- The three named SOFT writes are encoded as the SOFT writes of their payloads (R76, R206 to R208). -/
theorem encode_softWrite (p : Payload) : encode (softWrite p) = wirePacket 0x4#4 p := by
  unfold softWrite
  split
  · next h => rw [h]; rfl
  · split
    · next h => rw [h]; rfl
    · split
      · next h => rw [h]; rfl
      · rfl

theorem opcodeOf_eq_ofNat {c : Code} {n : Nat} (h : (opcodeOf c).toNat = n) : opcodeOf c = BitVec.ofNat 4 n := by
  rw [← h, BitVec.ofNat_toNat, BitVec.setWidth_eq]

/-- A NOP or a read that decodes is encoded with the payload zero that it had (R76). -/
theorem encode_of_noPayload {c : Code} {i j : Instr} {n : Nat} (h : noPayload c j = .ok i)
    (hn : (opcodeOf c).toNat = n) (hj : encode j = wirePacket (BitVec.ofNat 4 n) 0) :
    encode i = wirePacket (opcodeOf c) (payloadOf c) := by
  obtain ⟨hp, rfl⟩ := noPayload_ok h
  rw [hj, opcodeOf_eq_ofNat hn, hp]

/-- A code that decodes is encoded from its own opcode and payload (R76). -/
theorem encode_of_decodeWire {c : Code} {i : Instr} (h : decodeWire c = .ok i) :
    encode i = wirePacket (opcodeOf c) (payloadOf c) := by
  unfold decodeWire at h
  split at h
  case h_10 => cases h
  case h_1 hn | h_6 hn | h_7 hn | h_8 hn | h_9 hn => exact encode_of_noPayload h hn rfl
  case h_5 hn =>
    rw [opcodeOf_eq_ofNat hn, ← Except.ok.inj h]
    exact encode_softWrite _
  case h_2 hn | h_3 hn | h_4 hn =>
    rw [opcodeOf_eq_ofNat hn, ← Except.ok.inj h]
    rfl

/-! ### Lines -/

theorem encode_lineInstr (l : Line) : encode (lineInstr l) = .line (printLine l) := by cases l <;> rfl

/-- A text that decodes is a line that was read from it. -/
theorem decodeLine_ok {text : List Char} {i : Instr} (h : decodeLine text = .ok i) :
    ∃ l, readLine text = some l ∧ i = lineInstr l := by
  unfold decodeLine at h
  split at h
  · next l hl => exact ⟨l, hl, (Except.ok.inj h).symm⟩
  · cases h

/-! ### Reserved command numbers -/

theorem commandOf_reserved {n : Nat} (ws : List Int)
    (h : n ∉ [0x01, 0x02, 0x03, 0x04, 0x05, 0x08, 0x09, 0x10, 0x11, 0x12, 0x13, 0x18, 0x19, 0x1A, 0x1B, 0x1C, 0x1D,
      0x1E, 0x1F, 0x20, 0x28, 0x30, 0x31, 0x32, 0x33, 0x38, 0x39, 0x3A, 0x3B]) : commandOf n ws = none := by
  unfold commandOf
  split
  case h_30 => rfl
  all_goals exact absurd (by decide) h

/-! ### The tables of instructions -/

/-- The decoder reads every well-formed instruction back from its packet: row by row of the tables R76, R82 and R85 to
R98. -/
theorem decode_encode : ∀ i : Instr, RoundTrip.Statement i
  | .wireNop => RoundTrip.wireNop
  | .wireWrData p => RoundTrip.wireWrData p
  | .wireWrControl p => RoundTrip.wireWrControl p
  | .wireWrClear p => RoundTrip.wireWrClear p
  | .wireWrSoft p => RoundTrip.wireWrSoft p
  | .wireSoftLdac => RoundTrip.wireSoftLdac
  | .wireSoftClear => RoundTrip.wireSoftClear
  | .wireSoftReset => RoundTrip.wireSoftReset
  | .wireRdData => RoundTrip.wireRdData
  | .wireRdControl => RoundTrip.wireRdControl
  | .wireRdClear => RoundTrip.wireRdClear
  | .wireRdSoft => RoundTrip.wireRdSoft
  | .pack code => RoundTrip.pack code
  | .unpack w0 w1 w2 => RoundTrip.unpack w0 w1 w2
  | .hasBits code mask => RoundTrip.hasBits code mask
  | .setBits code mask => RoundTrip.setBits code mask
  | .clearBits code mask => RoundTrip.clearBits code mask
  | .c2v code20 twoComplement => RoundTrip.c2v code20 twoComplement
  | .v2c v twoComplement => RoundTrip.v2c v twoComplement
  | .encNop => RoundTrip.encNop
  | .encWrite r p => RoundTrip.encWrite r p
  | .encRead r => RoundTrip.encRead r
  | .decReadback r code => RoundTrip.decReadback r code
  | .regRead r => RoundTrip.regRead r
  | .regWrite r p => RoundTrip.regWrite r p
  | .getTristate => RoundTrip.getTristate
  | .setTristate b => RoundTrip.setTristate b
  | .getOpgnd => RoundTrip.getOpgnd
  | .setOpgnd b => RoundTrip.setOpgnd b
  | .softLdac => RoundTrip.softLdac
  | .softReset => RoundTrip.softReset
  | .softClear => RoundTrip.softClear
  | .runBatch frames expect => RoundTrip.runBatch frames expect
  | .getVoltage => RoundTrip.getVoltage
  | .setVoltage v => RoundTrip.setVoltage v
  | .getDefer => RoundTrip.getDefer
  | .setDefer b => RoundTrip.setDefer b
  | .sessionOpen => RoundTrip.sessionOpen
  | .sessionClose => RoundTrip.sessionClose
  | .getSpeed => RoundTrip.getSpeed
  | .setSpeed k => RoundTrip.setSpeed k
  | .lineInitDev path => RoundTrip.lineInitDev path
  | .lineSetDef => RoundTrip.lineSetDef
  | .lineSetGet => RoundTrip.lineSetGet
  | .lineSetMode => RoundTrip.lineSetMode
  | .lineSetSpeed k => RoundTrip.lineSetSpeed k
  | .lineSetWord => RoundTrip.lineSetWord
  | .lineSetSet => RoundTrip.lineSetSet
  | .lineCreate n => RoundTrip.lineCreate n
  | .lineStage i b0 b1 b2 => RoundTrip.lineStage i b0 b1 b2
  | .linePass => RoundTrip.linePass
  | .lineRxq i => RoundTrip.lineRxq i
  | .lineDel => RoundTrip.lineDel
  | .lineRelease => RoundTrip.lineRelease
  | .lineSpeedq => RoundTrip.lineSpeedq

/-! ### The statements -/

/-- Settles O57: by `decode_encode`. -/
theorem decodeInvertsEncode : Obligations.DecodeInvertsEncode := fun P i => decode_encode i P

/-- Settles O55: a frame is decided by its opcode, the payload of a NOP or a read by `noPayload_reserved`, a command by
its number. -/
theorem reservedEncodingsAreRejected : Obligations.ReservedEncodingsAreRejected := by
  refine ⟨fun c => ⟨fun h => ?_, fun h hp => ?_⟩, fun cmd ws h => ?_⟩
  · rw [← opcodeOf_toNat] at h
    rw [decode_packCode, decodeWire]
    simp only [List.mem_cons, List.not_mem_nil, or_false] at h
    rcases h with h | h | h | h | h | h | h <;> rw [h] <;> rfl
  · rw [← opcodeOf_toNat] at h
    rw [decode_packCode, decodeWire]
    simp only [List.mem_cons, List.not_mem_nil, or_false] at h
    rcases h with h | h | h | h | h <;> rw [h] <;> exact noPayload_reserved _ hp
  · simp only [decode, decodeHost, commandOf_reserved ws h]

/-- Settles O58: a frame has one opcode and one payload, a line has one text. -/
theorem encodeInvertsDecodeOfFramesAndLines : Obligations.EncodeInvertsDecodeOfFramesAndLines := by
  refine ⟨fun t i h => ?_, fun text i h => ?_⟩
  · rw [encode_of_decodeWire h, wirePacket_parts, packCode_unpackBytes]
  · obtain ⟨l, hl, rfl⟩ := decodeLine_ok h
    rw [encode_lineInstr, ← readLine_some hl]

/-- Settles O56: ten closed packets, decoded. -/
theorem writtenOutWordsDecode : Obligations.WrittenOutWordsDecode := by
  unfold Obligations.WrittenOutWordsDecode
  decide

end Sys2Proof
end

section
/-! Transport lines as single steps (30_encoding.md R84 to R98; 43_sequencer.md R152 to R156, R162): the next state of
each line in terms of its emission; what the reference peer's DAC does with the frames of a committed batch; and what
no frame does to CONTROL (45_wire_commands.md R214, R215). -/

namespace Sys2Proof.Machine

open Sys2Proof.Safety

/-! ### Lines between batches -/

/-- Whatever a line is answered, it has taken one reply of the queue (R217). -/
theorem answer_leavesReplies (l : Line) (s : State) :
    LeavesReplies s s.env.replies.tail (answer s.params l s.env).2 :=
  ⟨answer_replies s.params l s.env, answer_mode s.params l s.env⟩

/-- A line sent for its acknowledgement completes without a value, or with the failure of its line (R84, R234). -/
theorem lineCommand_idle (l : Line) {s : State} (hp : s.seq.phase = .idle) :
    lineCommand l s = .next { (emit l s).2 with
      completion := some (if (emit l s).1 = .fail then .err (.transportError l) else .ok .none) } := by
  refine (hostCommand_idle _ hp).trans (congrArg Host.Outcome.next ?_)
  by_cases ha : (emit l s).1 = .fail
  · rw [if_pos ha]
    exact runAct_error (by simp [sendLine, ha, Except.map])
  · rw [if_neg ha]
    exact runAct_ok (by simp [sendLine, ha, Except.map])

/-- The speed query completes with the integer it is answered, or with the failure of its line (R98, R186). -/
theorem exec_lineSpeedq {s : State} (hp : s.seq.phase = .idle) :
    exec .lineSpeedq s = .next { (emit .speedq s).2 with
      completion := some (match (emit .speedq s).1 with
        | .int k => .ok (.int k)
        | _ => .err (.transportError .speedq)) } := by
  refine (hostCommand_idle _ hp).trans (congrArg Host.Outcome.next ?_)
  cases ha : (emit .speedq s).1 with
  | int k => exact runAct_ok (by simp [querySpeed, ha, Except.map])
  | ok | bytes | fail => exact runAct_error (by simp [querySpeed, ha, Except.map])

/-- The reference peer answers the speed it has recorded (R216). -/
theorem referenceLine_speedq {P : Params} {k : Nat} {e : Env} (h : e.peer.bridge.settings.speed = some k) :
    referenceLine P .speedq e = (.int k, e) := by
  simp [referenceLine, h]

/-! ### Lines of a batch -/

/-- `SEQ_BEGIN` of a loaded batch whose `CREATE` fails: the phase stays `IDLE` (R152). -/
theorem seqBegin_seqLoad_fail {tx : List Triple} {n : Nat} (hn : tx.length = n) (xs : List Expect) {s : State}
    (ha : (emit (.create n) s).1 = .fail) :
    seqBegin (seqLoad tx xs s)
      = (.error (.transportError (.create n)), { (emit (.create n) s).2 with seq := Seq.idle }) := by
  subst hn
  exact if_pos ha

/-- `SEQ_BEGIN` of a loaded batch whose `CREATE` is answered: the batch is open, nothing is staged (R152). -/
theorem seqBegin_seqLoad_ok {tx : List Triple} {n : Nat} (hn : tx.length = n) (xs : List Expect) {s : State}
    (ha : (emit (.create n) s).1 ≠ .fail) :
    seqBegin (seqLoad tx xs s) = (.ok (), { (emit (.create n) s).2 with
      seq := { phase := .staging, n := n, tx := tx, expect := xs, result := List.replicate n none, ptr := 0,
               fptr := 0, err := none } }) := by
  subst hn
  exact if_neg ha

/-- `CREATE` under a session is `SEQ_BEGIN` of empty slots (R92, R152). -/
theorem exec_lineCreate {n : Nat} {s : State} (hr : Ready s) (h1 : 1 ≤ n) (hn : n ≤ s.params.maxBatch) :
    exec (.lineCreate n) s = .next (
      if (emit (.create n) s).1 = .fail then { (emit (.create n) s).2 with
        seq := Seq.idle, completion := some (.err (.transportError (.create n))) }
      else { (emit (.create n) s).2 with
        seq := { phase := .staging, n := n, tx := List.replicate n ⟨0, 0, 0⟩, expect := List.replicate n .none,
                 result := List.replicate n none, ptr := 0, fptr := 0, err := none } }) := by
  have hsize : batchSizeOk s.params n = true := by simp [batchSizeOk, h1, hn]
  refine ((if_pos hr.1).trans ((if_pos hr.2).trans (if_pos hsize))).trans (congrArg Host.Outcome.next ?_)
  have hlen : (List.replicate n (⟨0, 0, 0⟩ : Triple)).length = n := List.length_replicate
  by_cases ha : (emit (.create n) s).1 = .fail
  · rw [if_pos ha, seqBegin_seqLoad_fail hlen _ ha]
    rfl
  · rw [if_neg ha, seqBegin_seqLoad_ok hlen _ ha]

/-- `PASS` with every slot staged and nothing pending, as one line (R154). -/
theorem exec_linePass {s : State} (hp : s.seq.phase = .staging) (he : s.seq.err = none) (hn : s.seq.ptr = s.seq.n) :
    exec .linePass s = .next { (emit .pass s).2 with
      seq := if (emit .pass s).1 = .fail then { s.seq with err := some (.transportError .pass) }
        else { s.seq with phase := .committed, ptr := s.seq.n, fptr := 0 } } := by
  refine (if_pos ⟨hp, he, hn⟩).trans (congrArg Host.Outcome.next ?_)
  unfold seqCommit
  dsimp only
  split
  · unfold recordErr
    rw [emit_seq, he]
  · rfl

/-- `DEL`, where R162 has it, completes with the pending error, its own failure, or the results (R156). -/
theorem exec_lineDel {s : State} (hp : s.seq.phase ≠ .idle)
    (h : s.seq.err ≠ none ∨ (s.seq.phase = .committed ∧ skippable s.seq.fptr s.seq.n s = true)) :
    exec .lineDel s = .next { (emit .del s).2 with
      seq := Seq.idle
      completion := some (match s.seq.err with
        | some x => .err x
        | none => if (emit .del s).1 = .fail then .err (.transportError .del) else .ok (.codes s.seq.result)) } := by
  refine (if_pos ⟨hp, h⟩).trans (congrArg Host.Outcome.next ?_)
  cases he : s.seq.err with
  | some x => exact runAct_error (by simp [seqEnd, he, Except.map])
  | none =>
    by_cases ha : (emit .del s).1 = .fail
    · simp only [if_pos ha]
      exact runAct_error (by simp [seqEnd, he, ha, Except.map])
    · simp only [if_neg ha]
      exact runAct_ok (by simp [seqEnd, he, ha, Except.map])

/-! ### The frames of a committed batch at the reference peer -/

/-- The DAC executes the frames in slot order, each from the state the one before has left; each receive slot takes
what the DAC shifts out before it executes the slot's frame (R214). -/
theorem transfer_frames (P : Params) (frames : List Triple) (e : Env) :
    ∃ (states : List Env) (last : Env), states.length = frames.length ∧ (states ++ [last])[0]? = some e ∧
      (∀ i f d, frames[i]? = some f → states[i]? = some d →
        (states ++ [last])[i + 1]? = some (dacFrame P (unpackBytes f) d)) ∧
      transfer P (frames.map some) e = (states.map fun d => some (packCode d.dac.sdo), last) := by
  induction frames generalizing e with
  | nil => exact ⟨[], e, rfl, rfl, by simp, rfl⟩
  | cons t ts ih =>
    obtain ⟨states, last, hlen, hfirst, hnext, hrun⟩ := ih (dacFrame P (unpackBytes t) e)
    refine ⟨e :: states, last, by simp [hlen], rfl, fun i f d hf hd => ?_, ?_⟩
    · cases i with
      | zero =>
        cases hf
        cases hd
        exact hfirst
      | succ i => exact hnext i f d hf hd
    · simp [transfer, hrun]

/-- `PASS` at the reference peer: its bridge keeps everything but the receive slots (R214). -/
theorem passBatch_eq (P : Params) (e : Env) :
    passBatch P e = (transfer P e.peer.bridge.tx e.drawSdo).2.setBridge { e.peer.bridge with
      rx := (transfer P e.peer.bridge.tx e.drawSdo).1 } := by
  simp [passBatch]

/-! ### CONTROL -/

/-- Every bit of CONTROL at the DAC is a legal one (R31, R73). -/
def ControlLegal (P : Params) (e : Env) : Prop := e.dac.control &&& regMask P .control = e.dac.control

theorem masked_legal (p m : Payload) : p &&& m &&& m = p &&& m := by rw [BitVec.and_assoc, BitVec.and_self]

theorem ControlLegal.drawSdo {P : Params} {e : Env} (h : ControlLegal P e) : ControlLegal P e.drawSdo := by
  simpa [ControlLegal] using h

theorem ControlLegal.dacWrite {P : Params} {e : Env} (h : ControlLegal P e) (r : Reg) (p : Payload) :
    ControlLegal P (dacWrite P r p e) := by
  refine ControlLegal.drawSdo ?_
  cases r with
  | control => exact masked_legal p _
  | data | clear | soft => exact h

theorem ControlLegal.dacRead {P : Params} {e : Env} (h : ControlLegal P e) (r : Reg) :
    ControlLegal P (dacRead r e) := by
  simpa [ControlLegal, Machine.dacRead] using h

theorem drawRegisters_controlLegal (P : Params) (e : Env) : ControlLegal P (drawRegisters P e) :=
  masked_legal _ _

/-- A pulse of LDAC leaves CONTROL alone, one of CLEAR or RESET draws it inside its mask (R205 to R208, U4). -/
theorem ControlLegal.dacSoft {P : Params} {e : Env} (h : ControlLegal P e) (p : Payload) :
    ControlLegal P (dacSoft P p e) := by
  have hldac : ControlLegal P (if p.getLsbD 0 then dacLdac e else e) := by split <;> exact h
  refine ControlLegal.drawSdo ?_
  split
  · exact drawRegisters_controlLegal P _
  · exact hldac

/-- A frame writes no parameter, so the mask that CONTROL is held to stays the same. -/
theorem ControlLegal.onDac {f : Env → Env} {s t : State} (hf : ControlLegal s.params (f s.env))
    (h : onDac f s = .next t) : ControlLegal t.params t.env := by
  injection h with h
  rw [← h]
  exact hf

/-! ### The statements -/

/-- Settles O16: a write masks what it stores, a CLEAR or RESET pulse masks what it draws, and no other frame writes
CONTROL. -/
theorem wireCommandsKeepControlLegal : Obligations.WireCommandsKeepControlLegal := by
  intro i s t hi hs h
  replace hs : ControlLegal s.params s.env := hs
  cases i with
  | wireNop | wireRdSoft => exact hs.drawSdo.onDac h
  | wireWrData p | wireWrControl p | wireWrClear p => exact (hs.dacWrite _ p).onDac h
  | wireWrSoft p => exact (hs.dacSoft p).onDac h
  | wireSoftLdac | wireSoftClear | wireSoftReset => exact (hs.dacSoft _).onDac h
  | wireRdData | wireRdControl | wireRdClear => exact (hs.dacRead _).onDac h
  | _ => cases hi

/-- Settles O17: each of the eight lines is sent for its acknowledgement alone. -/
theorem commandLinesAreEmitted : Obligations.CommandLinesAreEmitted := by
  intro l s hp hl
  have hcommand : isCommandLine l = true ∧ exec (lineInstr l) s = lineCommand l s := by
    rcases hl with ⟨path, rfl⟩ | rfl | rfl | rfl | ⟨k, rfl⟩ | rfl | rfl | rfl <;> exact ⟨rfl, rfl⟩
  obtain ⟨hcmd, hexec⟩ := hcommand
  exact ⟨_, (answer s.params l s.env).2, answer_command hcmd s.params s.env, answer_leavesReplies l s,
    hexec.trans (lineCommand_idle l hp)⟩

/-- Settles O19: the rule of the line; `GET_SPEED` admits the same query. -/
theorem speedQueryReturnsItsAnswer : Obligations.SpeedQueryReturnsItsAnswer := by
  intro s hp
  refine ⟨⟨_, (answer s.params .speedq s.env).2, answer_fits s.params .speedq s.env,
    answer_leavesReplies _ s, ?_, exec_lineSpeedq hp⟩, fun hs => ?_⟩
  · rintro ⟨hm, hr⟩ k hk
    rw [answer_reference _ _ _ hm hr, referenceLine_speedq hk]
    exact ⟨rfl, rfl⟩
  · exact (ioCommand_ready _ hp hs).trans (hostCommand_idle _ hp).symm

/-- Settles O20: the rule of the line, with the peer's answer. -/
theorem createLineOpensBatch : Obligations.CreateLineOpensBatch := by
  intro n s hr h1 hn
  refine ⟨_, (answer s.params (.create n) s.env).2, answer_command rfl _ _,
    answer_leavesReplies _ s, ?_, exec_lineCreate hr h1 hn⟩
  rintro ⟨hm, hq⟩
  rw [answer_reference _ _ _ hm hq]
  exact ⟨rfl, rfl⟩

/-- Settles O22: the rule of the line; `transfer_frames` gives the states of the reference peer's DAC. -/
theorem passLineCommits : Obligations.PassLineCommits := by
  intro s hp he hn
  refine ⟨_, (answer s.params .pass s.env).2, answer_command rfl _ _,
    answer_leavesReplies _ s, ?_, exec_linePass hp he hn⟩
  rintro ⟨hm, hr⟩
  rw [answer_reference _ _ _ hm hr]
  refine ⟨rfl, fun frames htx => ?_⟩
  obtain ⟨states, last, hlen, hfirst, hnext, hrun⟩ := transfer_frames s.params frames s.env.drawSdo
  refine ⟨states, last, hlen, hfirst, hnext, (passBatch_eq s.params s.env).trans ?_⟩
  rw [htx, hrun]

/-- Settles O24: the rule of the line; the slots that are left to pass over expect nothing. -/
theorem delLineEndsBatch : Obligations.DelLineEndsBatch := by
  intro s hp h
  refine ⟨_, (answer s.params .del s.env).2, answer_command rfl _ _,
    answer_leavesReplies _ s, ?_,
    exec_lineDel hp (h.imp_right fun ⟨hc, hn⟩ => ⟨hc, skippable_of_none hn⟩)⟩
  rintro ⟨hm, hr⟩
  rw [answer_reference _ _ _ hm hr]
  exact ⟨rfl, rfl⟩

end Sys2Proof.Machine
end

section
/-! The codec (40_codec.md R100 to R105): `PACK` and `UNPACK` as functions of integers, the bit helper that asks, and the
next states of the five commands. -/

namespace Sys2Proof.Machine

/-! ### `PACK` and `UNPACK` in numbers -/

theorem isCode24_iff {k : Int} : isCode24 k = true ↔ 0 ≤ k ∧ k < 16777216 := by simp [isCode24]

theorem isByte_iff {k : Int} : isByte k = true ↔ 0 ≤ k ∧ k < 256 := by simp [isByte]

/-- `PACK` of an integer in range answers the bytes of its 24-bit code (R100). -/
theorem pack_of_range {k : Int} (hk : 0 ≤ k ∧ k < 16777216) : pack k = .ok (packCode (BitVec.ofInt 24 k)) :=
  if_pos (isCode24_iff.2 hk)

/-- `PACK` byte by byte, or the code that is out of range (R100). -/
theorem pack_eq (k : Int) :
    pack k = if 0 ≤ k ∧ k < 16777216 then
        .ok ⟨BitVec.ofInt 8 (k / 65536), BitVec.ofInt 8 (k / 256), BitVec.ofInt 8 k⟩
      else .error (.rangeError (.code k)) := by
  by_cases hk : 0 ≤ k ∧ k < 16777216
  · rw [if_pos hk, pack_of_range hk, pack_bytes (pack_of_range hk)]
  · rw [if_neg hk]
    exact if_neg (mt isCode24_iff.1 hk)

/-- Three words in range, put together, are the number that their bytes stand for (R101). -/
theorem unpackBytes_ofInt {w0 w1 w2 : Int} (h0 : 0 ≤ w0 ∧ w0 < 256) (h1 : 0 ≤ w1 ∧ w1 < 256)
    (h2 : 0 ≤ w2 ∧ w2 < 256) :
    unpackBytes ⟨BitVec.ofInt 8 w0, BitVec.ofInt 8 w1, BitVec.ofInt 8 w2⟩
      = BitVec.ofInt 24 (w0 * 65536 + w1 * 256 + w2) := by
  apply BitVec.eq_of_toNat_eq
  rw [unpackBytes_toNat]
  simp only [BitVec.toNat_ofInt]
  omega

/-- `UNPACK` as a number, or the first word out of range (R101). -/
theorem unpack_eq (w0 w1 w2 : Int) :
    unpack w0 w1 w2 =
      if ¬ (0 ≤ w0 ∧ w0 < 256) then .error (.rangeError (.word 0 w0))
      else if ¬ (0 ≤ w1 ∧ w1 < 256) then .error (.rangeError (.word 1 w1))
      else if ¬ (0 ≤ w2 ∧ w2 < 256) then .error (.rangeError (.word 2 w2))
      else .ok (BitVec.ofInt 24 (w0 * 65536 + w1 * 256 + w2)) := by
  simp only [unpack, isByte_iff, ite_not]
  split_ifs with h0 h1 h2
  · rw [unpackBytes_ofInt h0 h1 h2]
  all_goals rfl

/-! ### `HAS_BITS` bit by bit -/

/-- `HAS_BITS` holds where the code has every bit that the mask has (R103). -/
theorem hasBits_iff {w : Nat} (c m : BitVec w) :
    hasBits c m = true ↔ ∀ i : Fin w, m.getLsbD i.val = true → c.getLsbD i.val = true := by
  have hbit (i : Nat) : ((c &&& m).getLsbD i = m.getLsbD i) ↔ (m.getLsbD i = true → c.getLsbD i = true) := by
    rw [BitVec.getLsbD_and]
    cases c.getLsbD i <;> cases m.getLsbD i <;> decide
  unfold hasBits
  rw [beq_iff_eq]
  constructor
  · intro h i
    exact (hbit i.val).1 (congrArg (·.getLsbD i.val) h)
  · intro h
    exact BitVec.eq_of_getLsbD_eq fun i hi => (hbit i).2 (h ⟨i, hi⟩)

/-! ### Commands that touch nothing -/

/-- Between batches a command without effects changes the completion alone (R248 a). -/
theorem hostCommand_result (r : Except Err Value) {s : State} (hp : s.seq.phase = .idle) :
    hostCommand (Act.result r) s = .next { s with
      completion := some (match r with | .ok v => .ok v | .error e => .err e) } :=
  (hostCommand_idle _ hp).trans (congrArg Host.Outcome.next (runAct_result r s))

/-! ### The statements -/

/-- Settles O1: `PACK` and `UNPACK` are `packCode` and `unpackBytes` on what is in range, which undo each other. -/
theorem unpackInvertsPack : Obligations.UnpackInvertsPack := by
  refine ⟨fun k h0 h1 => ⟨packCode (BitVec.ofInt 24 k), pack_of_range ⟨h0, h1⟩, ?_⟩,
    fun t => ⟨unpackBytes t, unpack_triple t, ?_⟩⟩
  · rw [unpack_triple, unpackBytes_packCode]
  · rw [pack_code, packCode_unpackBytes]

/-- Settles O2: `pack_eq`, and the command has no effect but its answer. -/
theorem packAnswersBigEndianBytes : Obligations.PackAnswersBigEndianBytes := by
  intro k s hp
  refine (hostCommand_result _ hp).trans ?_
  rw [pack_eq]
  split_ifs <;> rfl

/-- Settles O3: `unpack_eq`, and the command has no effect but its answer. -/
theorem unpackAnswersCodeOrFirstBadWord : Obligations.UnpackAnswersCodeOrFirstBadWord := by
  intro w0 w1 w2 s hp
  refine (hostCommand_result _ hp).trans ?_
  rw [unpack_eq]
  split_ifs <;> rfl

/-- Settles O4: `hasBits_iff` for the question; the complement of R105 is the exclusive or with 24 ones. -/
theorem bitHelpersAnswer : Obligations.BitHelpersAnswer := by
  intro c m s hp
  have hhas : hasBits c m = decide (∀ i : Fin 24, m.getLsbD i.val = true → c.getLsbD i.val = true) :=
    Bool.eq_iff_iff.2 ((hasBits_iff c m).trans decide_eq_true_iff.symm)
  have hnot : ~~~m = 0xFFFFFF#24 ^^^ m := by
    rw [show (0xFFFFFF#24 : Code) = BitVec.allOnes 24 by rfl, BitVec.allOnes_xor]
  refine ⟨?_, hostCommand_result _ hp, ?_⟩
  · rw [← hhas]
    exact hostCommand_result _ hp
  · rw [← hnot]
    exact hostCommand_result _ hp

end Sys2Proof.Machine
end

section
/-! The voltage map (41_voltage_map.md R110 to R116): the two's-complement adjustment, the exact reading from code to
voltage and back, what R115 says of every evaluation, and the commands `C2V` and `V2C`. -/

namespace Sys2Proof.Machine

/-! ### The two's-complement adjustment (R113) -/

/-- The adjustment is its own inverse (R113). -/
@[simp] theorem adjust_adjust (tc : Bool) (p : Payload) : adjust tc (adjust tc p) = p := by
  cases tc
  · rfl
  · exact (BitVec.xor_assoc _ _ _).trans (by rw [BitVec.xor_self, BitVec.xor_zero])

/-! ### The exact reading, from the code -/

/-- The quotient of a code's voltage is the code (R114). -/
theorem exactQuotient_exactVolt {vn vp : Rat} (h : vn < vp) (n : Nat) :
    exactQuotient vn vp (exactVolt vn vp n) = n := by
  unfold exactQuotient exactVolt
  rw [add_sub_cancel_right, div_mul_cancel₀ _ fullScale_pos.ne', mul_div_cancel_left₀ _ (sub_pos.2 h).ne']

/-- A code comes back from its voltage exactly (R114). -/
theorem exactRaw_exactVolt {vn vp : Rat} (h : vn < vp) (n : Nat) : exactRaw vn vp (exactVolt vn vp n) = n := by
  unfold exactRaw
  rw [exactQuotient_exactVolt h]
  show ⌊(n : Rat)⌋.toNat = n
  rw [Int.floor_natCast, Int.toNat_natCast]

/-- The voltage of a code up to `FS` lies inside the references, both bounds inside (R111). -/
theorem exactVolt_inside {vn vp : Rat} (h : vn < vp) {n : Nat} (hn : n ≤ fullScale) :
    vn ≤ exactVolt vn vp n ∧ exactVolt vn vp n ≤ vp := by
  have hs : 0 ≤ vp - vn := (sub_pos.2 h).le
  have hc : (n : Rat) ≤ (fullScale : Rat) := Nat.cast_le.2 hn
  have hle : (vp - vn) * (n : Rat) / (fullScale : Rat) ≤ vp - vn := by
    rw [div_le_iff₀ fullScale_pos]
    exact mul_le_mul_of_nonneg_left hc hs
  exact ⟨le_add_of_nonneg_left (div_nonneg (mul_nonneg hs n.cast_nonneg) fullScale_pos.le), le_sub_iff_add_le.1 hle⟩

/-! ### Every evaluation (R115) -/

theorem rawOf_exact {P : Params} (he : P.voltEval = none) (q : Rat) : rawOf P q = exactRaw P.vrefn P.vrefp q := by
  simp only [rawOf, he]

theorem voltOf_exact {P : Params} (he : P.voltEval = none) (n : Nat) : voltOf P n = exactVolt P.vrefn P.vrefp n := by
  simp only [voltOf, he]

/-- The evaluation that the parameters select. -/
def evalOf (P : Params) : VoltEval :=
  match P.voltEval with
  | none => VoltEval.exact
  | some k => voltFamily k

theorem rawOf_eq (P : Params) (q : Rat) : rawOf P q = (evalOf P).raw P.vrefn P.vrefp q := by
  unfold rawOf evalOf
  cases P.voltEval <;> rfl

theorem voltOf_eq (P : Params) (n : Nat) : voltOf P n = (evalOf P).volt P.vrefn P.vrefp n := by
  unfold voltOf evalOf
  cases P.voltEval <;> rfl

section
variable {P : Params} {q : Rat} (h : P.vrefn < P.vrefp) (h1 : P.vrefn ≤ q) (h2 : q ≤ P.vrefp)
include h h1 h2

/-- The raw code of a voltage inside the references is a 20-bit code (R115 c). -/
theorem rawOf_le : rawOf P q ≤ fullScale := by
  rw [rawOf_eq]
  exact (evalOf P).raw_le _ _ _ h h1 h2

/-- The raw code is at most one step from the exact one (R115 c). -/
theorem rawOf_step :
    rawOf P q ≤ exactRaw P.vrefn P.vrefp q + 1 ∧ exactRaw P.vrefn P.vrefp q ≤ rawOf P q + 1 := by
  rw [rawOf_eq]
  exact (evalOf P).raw_step _ _ _ h h1 h2

/-- The voltage of the raw code is within one quantization step (R114, R115 c). -/
theorem voltOf_rawOf : |voltOf P (rawOf P q) - q| ≤ lsb P.vrefn P.vrefp := by
  rw [voltOf_eq, rawOf_eq]
  exact (evalOf P).pair _ _ _ h h1 h2

/-- `C2V` of the payload that `V2C` answers is the voltage of the raw code: the adjustment cancels (R113). -/
theorem c2v_adjust_rawOf (tc : Bool) :
    c2v P (adjust tc (BitVec.ofNat 20 (rawOf P q))) tc = voltOf P (rawOf P q) := by
  have hlt : rawOf P q < 2 ^ 20 := Nat.lt_succ_of_le (rawOf_le h h1 h2)
  unfold c2v
  rw [adjust_adjust, BitVec.toNat_ofNat, Nat.mod_eq_of_lt hlt]

end

/-! ### `V2C` inside and outside the references (R112, R116) -/

/-- `V2C` of a voltage inside the references is its adjusted raw code (R112). -/
theorem v2c_inside {P : Params} {q : Rat} (h1 : P.vrefn ≤ q) (h2 : q ≤ P.vrefp) (tc : Bool) :
    v2c P (.fin q) tc = .ok (adjust tc (BitVec.ofNat 20 (rawOf P q))) := if_pos ⟨h1, h2⟩

/-- `V2C` of anything else is `RangeError` (R116). -/
theorem v2c_outside {P : Params} {v : Volt} (h : ∀ q, v = .fin q → q < P.vrefn ∨ P.vrefp < q) (tc : Bool) :
    v2c P v tc = .error (.rangeError (.volt v)) := by
  cases v with
  | fin q =>
    refine if_neg fun ⟨h1, h2⟩ => ?_
    rcases h q rfl with hlow | hhigh
    · exact hlow.not_ge h1
    · exact hhigh.not_ge h2
  | nan | posInf | negInf => rfl

/-- In the exact reading `V2C` undoes `C2V` (R114). -/
theorem v2c_c2v {P : Params} (he : P.voltEval = none) (h : P.vrefn < P.vrefp) (p : Payload) (tc : Bool) :
    v2c P (.fin (c2v P p tc)) tc = .ok p := by
  have hn : (adjust tc p).toNat ≤ fullScale := Nat.le_of_lt_succ (adjust tc p).isLt
  have hv : c2v P p tc = exactVolt P.vrefn P.vrefp (adjust tc p).toNat := voltOf_exact he _
  obtain ⟨h1, h2⟩ := exactVolt_inside h hn
  rw [hv, v2c_inside h1 h2, rawOf_exact he, exactRaw_exactVolt h, BitVec.ofNat_toNat, BitVec.setWidth_eq,
    adjust_adjust]

/-! ### The next states of `C2V` and `V2C` -/

/-- Between batches `C2V` completes with the voltage of its code (R111). -/
theorem exec_c2v (p : Payload) (tc : Bool) {s : State} (hp : s.seq.phase = .idle) :
    exec (.c2v p tc) s = .next { s with completion := some (.ok (.volt (c2v s.params p tc))) } :=
  hostCommand_result _ hp

/-- Between batches `V2C` completes with its payload (R112). -/
theorem exec_v2c_ok {v : Volt} {tc : Bool} {p : Payload} {s : State} (hp : s.seq.phase = .idle)
    (hv : v2c s.params v tc = .ok p) :
    exec (.v2c v tc) s = .next { s with completion := some (.ok (.payload p)) } :=
  (hostCommand_result _ hp).trans (by rw [hv]; rfl)

/-- Between batches `V2C` completes with its error (R116). -/
theorem exec_v2c_error {v : Volt} {tc : Bool} {e : Err} {s : State} (hp : s.seq.phase = .idle)
    (hv : v2c s.params v tc = .error e) :
    exec (.v2c v tc) s = .next { s with completion := some (.err e) } :=
  (hostCommand_result _ hp).trans (by rw [hv]; rfl)

/-! ### The statements -/

/-- `FS` as the literal that the statements write (R110). -/
theorem fullScale_cast : (fullScale : Rat) = 1048575 := by norm_num [fullScale]

/-- Settles O5: the command has no effect but its answer, and the exact reading is the linear map. -/
theorem c2vAnswersLinearMap : Obligations.C2vAnswersLinearMap := by
  intro p tc s hp
  refine ⟨exec_c2v p tc hp, fun he => (voltOf_exact he _).trans ?_⟩
  rw [exactVolt, fullScale_cast, adjust]

/-- Settles O6: the selected evaluation is at most a step from the floor (`rawOf_step`, `exactRaw_bounds`), and its pair
comes back within a step (`voltOf_rawOf`). -/
theorem v2cAnswersFlooredCode : Obligations.V2cAnswersFlooredCode := by
  intro q tc s hp h h1 h2
  obtain ⟨hfloor, hlt⟩ := exactRaw_bounds h h1
  obtain ⟨hup, hdown⟩ := rawOf_step h h1 h2
  have hback := voltOf_rawOf h h1 h2
  rw [← c2v_adjust_rawOf h h1 h2 tc, lsb] at hback
  rw [exactQuotient] at hfloor hlt
  rw [fullScale_cast] at hfloor hlt hback
  exact ⟨rawOf s.params q, exactRaw s.params.vrefn s.params.vrefp q, _, _, rawOf_le h h1 h2, hfloor, hlt,
    fun he => rawOf_exact he q, hup, hdown, rfl, exec_v2c_ok hp (v2c_inside h1 h2 tc), exec_c2v _ tc hp, hback⟩

/-- Settles O7: `v2c_outside`, and the command has no effect but its answer. -/
theorem v2cRangeError : Obligations.V2cRangeError := fun _ tc _ hp hout => exec_v2c_error hp (v2c_outside hout tc)

/-- Settles O8: `voltOf_rawOf` for every evaluation, `exactVolt_exactRaw` for the exact one, and `v2c_c2v`. -/
theorem voltageRoundTrips : Obligations.VoltageRoundTrips := by
  refine ⟨fun P q tc h h1 h2 => ⟨_, v2c_inside h1 h2 tc, ?_⟩, fun P p tc he h => v2c_c2v he h p tc⟩
  rw [c2v_adjust_rawOf h h1 h2, ← fullScale_cast]
  refine ⟨voltOf_rawOf h h1 h2, fun he => ?_⟩
  rw [voltOf_exact he, rawOf_exact he]
  exact exactVolt_exactRaw h h1

end Sys2Proof.Machine
end

section
/-! Register access as next states (42_register_model.md R120 to R135): the codes and the check of `DEC_READBACK` in
numbers, an admitted action and its completion, the two flags as bits of CONTROL, the frames that a host command stages,
and a write followed by a read at the reference peer. -/

namespace Sys2Proof.Machine

open Sys2Proof.Safety

/-! ### Codes in numbers (R121 to R124) -/

theorem code_eq_ofNat {c : Code} {n : Nat} (h : c.toNat = n) : c = BitVec.ofNat 24 n := by
  rw [← h, BitVec.ofNat_toNat, BitVec.setWidth_eq]

/-- `ENC_WRITE` as a number, or the bits that the mask shuts out (R122). -/
theorem encWrite_eq (P : Params) (r : Reg) (p : Payload) :
    encWrite P r p = if p &&& regMask P r = p then
        .ok (BitVec.ofNat 24 ((selectCode r).toNat * 1048576 + p.toNat))
      else .error (.invalidPayload r (p &&& ~~~ regMask P r)) := by
  rw [encWrite, code_eq_ofNat (writeCode_toNat r p)]

theorem payloadOf_eq_ofNat (c : Code) : payloadOf c = BitVec.ofNat 20 c.toNat := by
  apply BitVec.eq_of_toNat_eq
  rw [payloadOf_toNat, BitVec.toNat_ofNat]

theorem selectOf_eq_iff {c : Code} {r : Reg} :
    selectOf c = selectCode r ↔ c.toNat / 1048576 % 8 = (selectCode r).toNat := by
  rw [← BitVec.toNat_inj, selectOf_toNat]

/-- `DEC_READBACK` in numbers: the select check, then the mask check, then the payload (R124). -/
theorem decReadback_eq (P : Params) (r : Reg) (c : Code) :
    decReadback P r c =
      if c.toNat / 1048576 % 8 ≠ (selectCode r).toNat then .error (.protocolError .selectMismatch r c)
      else if BitVec.ofNat 20 c.toNat &&& regMask P r ≠ BitVec.ofNat 20 c.toNat then
        .error (.protocolError .maskViolation r c)
      else .ok (BitVec.ofNat 20 c.toNat) := by
  simp only [decReadback, payloadOf_eq_ofNat, ne_eq, selectOf_eq_iff]

/-! ### An admitted action and its completion -/

/-- An I/O command under a session completes with what its action ends in (R81, R236 a). -/
theorem ioCommand_of_eq {f : Act Value} {s t : State} {x : Except Err Value} (hr : Ready s) (h : f s = (x, t)) :
    ioCommand f s = .next (complete x t) := by
  rw [ioCommand_ready f hr.1 hr.2, runAct, h]

theorem map_of_eq {α β : Type} {f : Act α} {s t : State} {x : Except Err α} (h : f s = (x, t)) (g : α → β) :
    Act.map f g s = (x.map g, t) := by
  rw [Act.map, h]

/-- A `REG_READ` that completes with a payload ended in one inside the register's mask (R135). -/
theorem exec_regRead_legal {r : Reg} {p : Payload} {s t : State} (h : exec (.regRead r) s = .next t)
    (hp : t.completion = some (.ok (.payload p))) : p &&& regMask s.params r = p := by
  obtain ⟨-, -, ht⟩ := ioCommand_next (f := Act.map (regRead r) Value.payload) h
  rw [ht] at hp
  exact regRead_legal (map_payload (runAct_completed hp))

/-! ### The single bits of SOFT (R131 to R133) -/

theorem softBit_legal (P : Params) {p : Payload} (hp : p = softLdacBit ∨ p = softClearBit ∨ p = softResetBit) :
    p &&& regMask P .soft = p := by
  show p &&& 7#20 = p
  rcases hp with rfl | rfl | rfl <;> decide

/-! ### The flags (R127 to R130) -/

/-- Instruction and position of a flag getter (R35). -/
def IsGetter (P : Params) (i : Instr) (k : Fin 20) : Prop :=
  (i = .getTristate ∧ k = P.ctrlPos.dactri) ∨ (i = .getOpgnd ∧ k = P.ctrlPos.opgnd)

/-- Instruction and position of a flag setter (R35). -/
def IsSetter (P : Params) (b : Bool) (i : Instr) (k : Fin 20) : Prop :=
  (i = .setTristate b ∧ k = P.ctrlPos.dactri) ∨ (i = .setOpgnd b ∧ k = P.ctrlPos.opgnd)

theorem IsGetter.exec_eq {s : State} {i : Instr} {k : Fin 20} (h : IsGetter s.params i k) :
    exec i s = ioCommand (Act.map (getFlag (payloadBit k)) .bool) s := by
  rcases h with ⟨rfl, rfl⟩ | ⟨rfl, rfl⟩ <;> rfl

theorem IsSetter.exec_eq {s : State} {b : Bool} {i : Instr} {k : Fin 20} (h : IsSetter s.params b i k) :
    exec i s = ioCommand (Act.map (setFlag (payloadBit k) b) fun _ => .none) s := by
  rcases h with ⟨rfl, rfl⟩ | ⟨rfl, rfl⟩ <;> rfl

/-- Both flags stand at legal positions of CONTROL (R31). -/
theorem IsSetter.mem_positions {P : Params} {b : Bool} {i : Instr} {k : Fin 20} (h : IsSetter P b i k) :
    k ∈ P.ctrlPos.positions := by
  rcases h with ⟨-, rfl⟩ | ⟨-, rfl⟩ <;> simp [CtrlPos.positions]

/-- What a flag setter writes back differs from the legal payload it has read in its own bit alone (R128, R130). -/
theorem IsSetter.withFlag_bits {P : Params} {b : Bool} {i : Instr} {k : Fin 20} (h : IsSetter P b i k) {p : Payload}
    (hp : p &&& regMask P .control = p) (j : Fin 20) :
    (withFlag P (payloadBit k) b p).getLsbD j.val = if j = k then b else p.getLsbD j.val :=
  Machine.withFlag_bits P k b p h.mem_positions hp j

/-! ### The frames that host commands stage (R135) -/

/-- A change of the session stages nothing. -/
theorem LegalGrows.setSess {s t : State} (h : LegalGrows s t) (v : Session) : LegalGrows s { t with sess := v } := h

theorem sessionOpen_grows : Keeps LegalGrows sessionOpen := fun s => by
  unfold sessionOpen
  split
  · exact .refl s
  · have hsetup := sendLines_grows (setupLines_link s.params.devPath s.params.spiSpeed)
    have hclaim : Keeps LegalGrows (setSession .claimed) := fun t => (LegalGrows.refl t).setSess _
    exact LegalGrows.andThen hsetup (fun _ => LegalGrows.andThen hclaim fun _ => regWrite_grows .clear _) s

theorem sessionClose_grows : Keeps LegalGrows sessionClose := fun s =>
  (emit_link_grows (l := .release) rfl s).setSess _

/-- No host command but `RUN_BATCH`, whose frames are its operands, stages a frame that is not legal. -/
theorem hostAction_grows {i : Instr} (hb : ∀ fs xs, i ≠ .runBatch fs xs) (s : State) :
    Keeps LegalGrows (hostAction s i) := by
  have hflag (m : Payload) : Keeps LegalGrows (getFlag m) := (regRead_grows .control).map _
  cases i with
  | runBatch frames expect => exact absurd rfl (hb frames expect)
  | regRead r => exact (regRead_grows r).map _
  | regWrite r p => exact (regWrite_grows r p).map _
  | getTristate | getOpgnd => exact (hflag _).map _
  | setTristate b | setOpgnd b => exact (setFlag_grows _ b).map _
  | softLdac | softReset | softClear => exact (regWrite_grows .soft _).map _
  | getVoltage => exact Keeps.map (f := getVoltage) (fun u => (regRead_grows .data).map _ u) _
  | setVoltage v => exact (setVoltage_grows v).map _
  | setDefer b => exact LegalGrows.refl
  | sessionOpen => exact sessionOpen_grows.map _
  | sessionClose => exact sessionClose_grows.map _
  | getSpeed => exact emit_link_grows (l := .speedq) rfl
  | setSpeed k => exact fun t => sendLines_grows (setupLines_link t.params.devPath k) t
  | _ => exact Keeps.result LegalGrows.refl _

/-! ### A write at the reference peer (R134) -/

/-- The code shifted out next is no register. -/
theorem Dac.read_sdo (d : Dac) (r : Reg) (c : Code) : ({ d with sdo := c } : Dac).read r = d.read r := by
  cases r <;> rfl

/-- Once the frames of a `REG_WRITE` are transferred, the register holds the legal payload (R202 to R204, R214). -/
theorem transferred_write_read {r : Reg} (hr : r ≠ .soft) {p : Payload} {s : State}
    (hp : p &&& regMask s.params r = p) :
    (transferred [packCode (writeCode r p), packCode encNop] s).2.dac.read r = p := by
  simp only [transferred, List.map_cons, List.map_nil, transfer, dacFrame_write _ hr, dacFrame_nop, dacNop, dacWrite,
    Env.drawSdo_dac, Env.setDac_dac, Dac.read_sdo, hp]
  exact Dac.read_write_same _ r p hr

end Sys2Proof.Machine
end

section
/-! The register model (42_register_model.md R120 to R135): encoders and decoder, register access, flags and soft
triggers, and what of all this is legal and reads back. -/

namespace Sys2Proof.Machine

open Sys2Proof.Safety

/-- Settles O9: `encWrite_eq` and `encRead_toNat` for the codes; `regMask_control_bit` for the mask of CONTROL. -/
theorem encodersAnswerCodes : Obligations.EncodersAnswerCodes := by
  refine ⟨fun r p s hp => ⟨hostCommand_result _ hp, ?_, ?_⟩, ⟨rfl, rfl, rfl, rfl⟩,
    fun P => ⟨rfl, rfl, rfl, fun k => ?_⟩⟩
  · refine (hostCommand_result _ hp).trans ?_
    rw [encWrite_eq]
    split_ifs <;> rfl
  · rw [← code_eq_ofNat (encRead_toNat r)]
    exact hostCommand_result _ hp
  · rw [regMask_control_bit]
    simp only [CtrlPos.positions, List.mem_cons, List.not_mem_nil, or_false]

/-- Settles O10: `decReadback_eq`, and the command has no effect but its answer. -/
theorem decReadbackChecksSelectThenMask : Obligations.DecReadbackChecksSelectThenMask := by
  intro r c s hp
  refine (hostCommand_result _ hp).trans ?_
  rw [decReadback_eq]
  split_ifs <;> rfl

/-- Settles O26: `regRead_named` for the named replies; for every peer the command is its batch, of which it reads the
code in slot 1. -/
theorem regReadReturnsCheckedPayload : Obligations.RegReadReturnsCheckedPayload := by
  refine ⟨fun r s txt t rest hr hrep ht => ?_, fun r s u hu => ?_⟩
  · obtain ⟨f, hf, hread⟩ := regRead_named r hrep ht
    refine ⟨f, hf, (ioCommand_of_eq hr (map_of_eq hread Value.payload)).trans ?_⟩
    cases decReadback s.params r (unpackBytes t) <;> rfl
  · rw [← frameOf_encRead] at hu
    have h := ioCommand_fetch (packFrames_pair (encRead r) encNop) (xs := [.none, .reg r]) rfl (j := 1) rfl
      Expect.noConfusion Value.payload hu
    rwa [← map_map] at h

/-- Settles O27: `regWrite_named` for the named replies; for every peer the command is its batch (`regWrite_legal`). -/
theorem regWriteSendsOneBatch : Obligations.RegWriteSendsOneBatch := by
  refine ⟨fun r p s rest hr hp hrep => ?_, fun r p s u hp hu => ?_⟩
  · obtain ⟨f, hf, hwrite⟩ := regWrite_named hp hrep
    exact ⟨f, hf, ioCommand_of_eq hr (map_of_eq hwrite fun _ => Value.none)⟩
  · rw [← frameOf_writeCode] at hu
    have hexec : exec (.regWrite r p) s = ioCommand (Act.map
        (runBatch [frameOf (writeCode r p), frameOf encNop] [.none, .none]) fun _ => .none) s := by
      rw [← map_map _ (fun _ => ()) fun _ => Value.none]
      exact ioCommand_congr (map_congr (regWrite_legal hp) _)
    rw [hexec]
    exact (ioCommand_batch _ _ (fun _ => .none) hu).imp_right fun ⟨cs, _, hcs⟩ => ⟨cs, hcs⟩

/-- Settles O28: `regWrite_illegal`. -/
theorem regWriteRejectsIllegalPayload : Obligations.RegWriteRejectsIllegalPayload := fun _ _ _ hr hp =>
  ioCommand_of_eq hr (map_of_eq (regWrite_illegal hp) _)

/-- Settles O29: a getter is the CONTROL read with one bit of its payload for a value (`getFlag_failed`,
`getFlag_value`). -/
theorem flagGettersReadControlOnce : Obligations.FlagGettersReadControlOnce := by
  refine ⟨fun s txt t p rest hr hrep ht hd => ?_, fun s t x i hi h hx => ?_,
    fun s t p i k (hi : IsGetter _ i k) h hp => ?_⟩
  · obtain ⟨f, hf, hread⟩ := regRead_named .control hrep ht
    rw [hd] at hread
    refine ⟨f, hf, fun i k (hi : IsGetter _ i k) => ?_⟩
    rw [hi.exec_eq, ← hasBits_bit]
    exact ioCommand_of_eq hr (map_of_eq (map_of_eq hread _) _)
  · rcases hi with rfl | rfl
    · exact getFlag_failed (m := tristateBit s.params) (g := .bool) h hx
    · exact getFlag_failed (m := opgndBit s.params) (g := .bool) h hx
  · rw [hi.exec_eq, ← hasBits_bit]
    exact getFlag_value (payloadBit k) h hp

/-- Settles O30: a setter is the CONTROL read and then the write of the payload with the flag (`setFlag_failed`,
`setFlag_then`); the payload read is legal, so that the masking of R128 changes no other bit. -/
theorem flagSettersChangeOneBit : Obligations.FlagSettersChangeOneBit := by
  refine ⟨fun b s txt t p rest hr hrep ht hd i k (hi : IsSetter _ b i k) => ?_, fun b s t x i hi h hx => ?_,
    fun b s t p i k (hi : IsSetter _ b i k) h hp => ?_⟩
  · obtain ⟨f, hf, hset⟩ := setFlag_named (payloadBit k) b hrep ht hd
    refine ⟨f, _, hf, hi.withFlag_bits (decReadback_legal hd).2, ?_⟩
    rw [hi.exec_eq]
    exact ioCommand_of_eq hr (map_of_eq hset _)
  · rcases hi with rfl | rfl
    · exact setFlag_failed (m := tristateBit s.params) (g := fun _ => .none) h hx
    · exact setFlag_failed (m := opgndBit s.params) (g := fun _ => .none) h hx
  · refine ⟨_, hi.withFlag_bits (exec_regRead_legal h hp), ?_⟩
    rw [hi.exec_eq]
    exact setFlag_then (payloadBit k) b h hp

/-- Settles O31: each trigger is the `REG_WRITE` of one legal bit to SOFT, whose code is the statement's literal. -/
theorem softTriggersSendOnePulse : Obligations.SoftTriggersSendOnePulse := by
  obtain ⟨hnamed, hbatch⟩ := regWriteSendsOneBatch
  refine ⟨fun s rest hr hrep i b hi => ?_, fun s u i k hi hu => ?_⟩
  · rcases hi with ⟨rfl, rfl⟩ | ⟨rfl, rfl⟩ | ⟨rfl, rfl⟩
    · exact hnamed .soft _ s rest hr (softBit_legal s.params (.inl rfl)) hrep
    · exact hnamed .soft _ s rest hr (softBit_legal s.params (.inr (.inl rfl))) hrep
    · exact hnamed .soft _ s rest hr (softBit_legal s.params (.inr (.inr rfl))) hrep
  · rcases hi with ⟨rfl, rfl⟩ | ⟨rfl, rfl⟩ | ⟨rfl, rfl⟩
    · exact hbatch .soft _ s u (softBit_legal s.params (.inl rfl)) hu
    · exact hbatch .soft _ s u (softBit_legal s.params (.inr (.inl rfl))) hu
    · exact hbatch .soft _ s u (softBit_legal s.params (.inr (.inr rfl))) hu

/-- Settles O49: `hostAction_grows` for what is staged, `exec_regRead_legal` for what is returned. -/
theorem onlyLegalBitsAreAsserted : Obligations.OnlyLegalBitsAreAsserted := by
  refine ⟨fun i s t hi hb h => ?_, fun r p s t h hp => exec_regRead_legal h hp⟩
  obtain ⟨-, rfl⟩ := exec_host_next hi h
  obtain ⟨-, evs, htrace, hlegal⟩ := hostAction_grows hb s s
  rw [runAct_trace, htrace, List.drop_left]
  exact hlegal

/-- Settles O50: after the write the register holds the payload (`transferred_write_read`), and the read returns what
the register holds (`regRead_ref`). -/
theorem writeThenReadReturnsPayload : Obligations.WriteThenReadReturnsPayload := by
  intro r p s hsoft hr hw hp
  obtain ⟨e, evs, hmode, hreplies, hdac, hwrite⟩ := regWrite_ref hw hp
  have hheld : e.dac.read r = p := by rw [hdac, transferred_write_read hsoft hp]
  have hlegal : e.dac.read r &&& regMask s.params r = e.dac.read r := by rw [hheld, hp]
  have hdone := ioCommand_of_eq hr (map_of_eq hwrite fun _ => Value.none)
  have hready : Ready (complete (.ok .none) { s.after e evs with seq := Seq.idle }) := ⟨rfl, hr.2⟩
  obtain ⟨_, _, -, -, -, hread⟩ := regRead_ref (r := r)
    (s := complete (.ok .none) { s.after e evs with seq := Seq.idle }) ⟨hmode, hreplies⟩ hsoft hlegal
  exact ⟨_, _, hdone, rfl, ioCommand_of_eq hready (map_of_eq hread Value.payload),
    congrArg (fun v => some (Completion.ok (.payload v))) hheld⟩

end Sys2Proof.Machine
end

section
/-! `RUN_BATCH` and the lines of its batch (43_sequencer.md R150 to R162): its admission, the packing of its frames, its
run under named replies, the shape of what it appends to the trace, and its lines executed one after another. -/

namespace Sys2Proof.Machine

open Sys2Proof.Safety

/-! ### Admission -/

/-- A `RUN_BATCH` that answers a next state was admitted, and has completed its action (R151, R248). -/
theorem exec_runBatch_next {frames : List Int} {xs : List Expect} {s t : State}
    (h : exec (.runBatch frames xs) s = .next t) :
    Ready s ∧ frames.length = xs.length ∧ 1 ≤ frames.length ∧ frames.length ≤ s.params.maxBatch ∧
      t = runAct (Act.map (runBatch frames xs) .codes) s := by
  obtain ⟨hr, ht⟩ := exec_host_next rfl h
  obtain ⟨hp, hs, ho⟩ := hostRefusal_none hr
  obtain ⟨hl, hsize⟩ : frames.length = xs.length ∧ batchSizeOk s.params frames.length = true :=
    by_contra fun hn => Option.some_ne_none _ ((if_neg hn).symm.trans ho)
  rw [batchSizeOk, Bool.and_eq_true, decide_eq_true_iff, decide_eq_true_iff] at hsize
  exact ⟨⟨hp, hs rfl⟩, hl, hsize.1, hsize.2, ht⟩

/-- `RUN_BATCH` of a batch that R248 admits completes with what its action ends in (R81, R151). -/
theorem exec_runBatch_of_eq {frames : List Int} {xs : List Expect} {s t : State} {x : Except Err (List (Option Code))}
    (hr : Ready s) (hl : frames.length = xs.length) (h1 : 1 ≤ frames.length) (hn : frames.length ≤ s.params.maxBatch)
    (h : runBatch frames xs s = (x, t)) : exec (.runBatch frames xs) s = .next (complete (x.map .codes) t) := by
  have hsize : batchSizeOk s.params frames.length = true := by simp [batchSizeOk, h1, hn]
  exact (if_neg fun hno => hno.2.2 ⟨hl, hsize⟩).trans (ioCommand_of_eq hr (map_of_eq h Value.codes))

/-! ### Packing -/

/-- Packing stops at the first frame out of range (R151, R238). -/
theorem packFrames_firstBad {pre : List Int} (post : List Int) {k : Int} (hpre : ∀ f ∈ pre, 0 ≤ f ∧ f < 16777216)
    (hk : ¬ (0 ≤ k ∧ k < 16777216)) (i : Nat) :
    packFrames i (pre ++ k :: post) = .error (.rangeError (.frame (i + pre.length) k)) := by
  induction pre generalizing i with
  | nil => exact if_neg (mt isCode24_iff.1 hk)
  | cons f fs ih =>
    have hf : isCode24 f = true := isCode24_iff.2 (hpre f List.mem_cons_self)
    rw [List.cons_append, packFrames, if_pos hf, ih (fun g hg => hpre g (List.mem_cons_of_mem f hg)) (i + 1),
      List.length_cons, Nat.add_right_comm, Nat.add_assoc]
    rfl

/-- A batch with a frame out of range touches nothing (R151, R231). -/
theorem runBatch_unpacked {frames : List Int} {x : Err} (h : packFrames 0 frames = .error x) (xs : List Expect)
    (s : State) : runBatch frames xs s = (.error x, s) := by
  simp only [runBatch, h]

/-! ### Named replies -/

theorem okEvents_line (ls : List Line) : (ls.map fun l => (⟨l, .ok⟩ : Event)).map Event.line = ls := by
  simp [Function.comp_def]

theorem okEvents_answered (ls : List Line) : ∀ ev ∈ ls.map fun l => (⟨l, .ok⟩ : Event), ev.answer ≠ .fail :=
  List.forall_mem_map.2 fun _ _ => Answer.noConfusion

theorem openedEvents_line (tx : List Triple) :
    (openedEvents tx).map Event.line = .create tx.length :: (stageLines 0 tx ++ [Line.pass]) :=
  okEvents_line (.create tx.length :: (stageLines 0 tx ++ [Line.pass]))

theorem openedEvents_answered (tx : List Triple) : ∀ ev ∈ openedEvents tx, ev.answer ≠ .fail :=
  okEvents_answered (.create tx.length :: (stageLines 0 tx ++ [Line.pass]))

/-- A batch whose every line is answered and whose every check passes (R151). -/
theorem runBatch_texts {frames : List Int} {tx : List Triple} (hp : packFrames 0 frames = .ok tx) {xs : List Expect}
    (hx : xs.length = tx.length) {texts : List (List Char)} {ts : List Triple}
    (ht : texts.map readTriple = ts.map some) {s : State} (hc : ChecksPass s.params xs ts) {rest : List Reply}
    (h : s.env.replies = goodReplies tx.length texts ++ rest) :
    ∃ f evs, LeavesReplies s rest f ∧ evs.map Event.line = fetchLines 0 xs ∧ (∀ ev ∈ evs, ev.answer ≠ .fail) ∧
      runBatch frames xs s = (.ok (placeResults xs ts),
        { s.after f (openedEvents tx ++ evs ++ [⟨.del, .ok⟩]) with seq := Seq.idle }) := by
  obtain ⟨e0, ⟨hrep, hmode⟩, hend⟩ := runBatch_named hp hx (s := s) (mid := texts.map .text ++ .ok :: rest)
    (by simp [h, goodReplies])
  obtain ⟨e, evs, ⟨hrep', hmode'⟩, hlines, hanswered, hfetch⟩ :=
    fetchRun_texts (i := 0) (s := s.after e0 (openedEvents tx)) hrep ht hc
  obtain ⟨f, hf, hrun⟩ := hend _ e evs rest hfetch ⟨hrep', hmode'.trans hmode⟩
  exact ⟨f, evs, hf, hlines, hanswered, hrun⟩

/-! ### The shape of the trace (R160) -/

theorem allButLastAnswered_of_dropLast : ∀ {evs : List Event}, (∀ ev ∈ evs.dropLast, ev.answer ≠ .fail) →
    AllButLastAnswered evs
  | [], _ => trivial
  | [_], _ => trivial
  | e :: f :: es, h => by
    rw [List.dropLast_cons_cons, List.forall_mem_cons] at h
    exact ⟨h.1, allButLastAnswered_of_dropLast h.2⟩

theorem firstFailure_concat_fail {evs : List Event} (h : ∀ ev ∈ evs, ev.answer ≠ .fail) (l : Line) :
    firstFailure (evs ++ [⟨l, .fail⟩]) = some l := by
  induction evs with
  | nil => rfl
  | cons e es ih =>
    obtain ⟨he, hes⟩ := List.forall_mem_cons.1 h
    rw [List.cons_append, firstFailure, if_neg he, ih hes]

theorem PassedFetch.answered {P : Params} {i : Nat} {xs : List Expect} {ev : Event} (h : PassedFetch P i xs ev) :
    ev.answer ≠ .fail := by
  obtain ⟨j, u, rfl, -⟩ := h
  exact Answer.noConfusion

/-- What `DEC_READBACK` raises is a protocol error (R124, R233). -/
theorem decReadback_error {P : Params} {r : Reg} {c : Code} {x : Err} (h : decReadback P r c = .error x) :
    ∃ check, x = .protocolError check r c := by
  unfold decReadback at h
  split at h
  · injection h with h
    exact ⟨_, h.symm⟩
  · split at h
    · injection h with h
      exact ⟨_, h.symm⟩
    · cases h

/-- How the body of a batch can go (R160): it has all its lines, or it stops at a line that failed, or at a response that
failed its check. No line follows one that failed. -/
def BodyEnds (lines : List Line) (body : List Event) (r : Except Err (List (Option Code))) : Prop :=
  AllButLastAnswered body ∧
    (body.map Event.line = lines ∨ (∃ l, firstFailure body = some l) ∨
      ∃ check q c, r = .error (.protocolError check q c))

theorem BodyEnds.of_lineFails {os : List Event} (ho : ∀ ev ∈ os, ev.answer ≠ .fail) (l : Line) (lines : List Line)
    (r : Except Err (List (Option Code))) : BodyEnds lines (os ++ [⟨l, .fail⟩]) r :=
  ⟨allButLastAnswered_of_dropLast (by rwa [List.dropLast_concat]), .inr (.inl ⟨l, firstFailure_concat_fail ho l⟩)⟩

/-- Behind lines that were all answered the fetches decide how the body ends. -/
theorem FetchEnds.bodyEnds {P : Params} {xs : List Expect} {fs : List Event} {r : Except Err (List (Option Code))}
    (h : FetchEnds P 0 xs fs r) {os : List Event} (ho : ∀ ev ∈ os, ev.answer ≠ .fail) :
    BodyEnds (os.map Event.line ++ fetchLines 0 xs) (os ++ fs) r := by
  have hpassed : ∀ {es : List Event}, (∀ ev ∈ es, PassedFetch P 0 xs ev) → ∀ ev ∈ os ++ es, ev.answer ≠ .fail :=
    fun hes => List.forall_mem_append.2 ⟨ho, fun ev hev => (hes ev hev).answered⟩
  rcases h with ⟨v, -, hlines, hall⟩ | ⟨pre, j, rfl, hall, -⟩ | ⟨pre, j, u, q, x, rfl, hall, -, -, hcheck, rfl⟩
  · exact ⟨allButLastAnswered_of_dropLast fun ev hev => hpassed hall ev (List.mem_of_mem_dropLast hev),
      .inl (by rw [List.map_append, hlines])⟩
  · rw [← List.append_assoc]
    exact .of_lineFails (hpassed hall) _ _ _
  · obtain ⟨check, rfl⟩ := decReadback_error hcheck
    rw [← List.append_assoc]
    exact ⟨allButLastAnswered_of_dropLast (by rw [List.dropLast_concat]; exact hpassed hall),
      .inr (.inr ⟨check, q, _, rfl⟩)⟩

/-- What an admitted batch of packed frames appends to the trace, for every peer (R160). -/
theorem runBatch_trace {frames : List Int} {tx : List Triple} (hp : packFrames 0 frames = .ok tx) {xs : List Expect}
    (hx : xs.length = tx.length) (s : State) :
    (runBatch frames xs s).2.trace = s.trace ++ [⟨.create tx.length, .fail⟩] ∨
      ∃ (body : List Event) (a : Answer),
        (runBatch frames xs s).2.trace = s.trace ++ (⟨.create tx.length, .ok⟩ :: body ++ [⟨.del, a⟩]) ∧
        body.map Event.line <+: bodyLines tx xs ∧ BodyEnds (bodyLines tx xs) body (runBatch frames xs s).1 := by
  rcases runBatch_shape hp hx s with ⟨e, -, hrun⟩ | ⟨e, body, r, a, -, -, hprefix, hbody, hrun⟩
  · exact .inl (by rw [hrun]; rfl)
  · refine .inr ⟨body, a, by rw [hrun]; rfl, hprefix, ?_⟩
    have hends : BodyEnds (bodyLines tx xs) body r := by
      rcases hbody with ⟨pre, l, rfl, -⟩ | ⟨fs, rfl, hfetch⟩
      · exact .of_lineFails (okEvents_answered pre) l _ _
      · have h := hfetch.bodyEnds (okEvents_answered (stageLines 0 tx ++ [Line.pass]))
        rwa [okEvents_line, List.append_assoc] at h
    refine hends.imp_right (Or.imp_right (Or.imp_right ?_))
    rintro ⟨check, q, c, rfl⟩
    exact ⟨check, q, c, by rw [hrun]⟩

/-! ### The lines of a batch one after another (R152 to R156, R162) -/

/-- A composite action ends well only where both its parts do (R236 c). -/
theorem andThen_eq_ok {α β : Type} {f : Act α} {g : α → Act β} {s t : State} {b : β}
    (h : Act.andThen f g s = (.ok b, t)) : ∃ a u, f s = (.ok a, u) ∧ g a u = (.ok b, t) := by
  cases hf : (f s).1 with
  | error e => rw [andThen_error hf] at h; cases h
  | ok a => exact ⟨a, (f s).2, by rw [← hf], by rwa [andThen_ok hf] at h⟩

theorem sendLine_eq_ok {l : Line} {s t : State} {x : Unit} (h : sendLine l s = (.ok x, t)) :
    (emit l s).1 ≠ .fail ∧ t = (emit l s).2 := by
  unfold sendLine at h
  dsimp only at h
  split at h
  · cases h
  · next ha => exact ⟨ha, (congrArg Prod.snd h).symm⟩

/-- A body that ends well: its stages are answered, then `PASS`, then every fetch passes. -/
theorem batchBody_eq_ok {tx : List Triple} {xs : List Expect} {s t : State} {v : List (Option Code)}
    (h : batchBody tx xs s = (.ok v, t)) :
    ∃ u, sendLines (stageLines 0 tx) s = (.ok (), u) ∧ (emit .pass u).1 ≠ .fail ∧
      fetchRun 0 xs (emit .pass u).2 = (.ok v, t) := by
  obtain ⟨⟨⟩, w, hopen, hfetch⟩ := andThen_eq_ok h
  rw [sendLines_append] at hopen
  obtain ⟨⟨⟩, u, hstage, hpass⟩ := andThen_eq_ok hopen
  obtain ⟨⟨⟩, w', hline, hend⟩ := andThen_eq_ok (f := sendLine .pass) hpass
  obtain ⟨ha, rfl⟩ := sendLine_eq_ok hline
  obtain rfl : (emit .pass u).2 = w := congrArg Prod.snd hend
  exact ⟨u, hstage, ha, hfetch⟩

/-- A batch that ends well: `CREATE` and `DEL` are answered, and the body between them ends well. -/
theorem runBatch_eq_ok {frames : List Int} {tx : List Triple} (hp : packFrames 0 frames = .ok tx) {xs : List Expect}
    (hx : xs.length = tx.length) {s t : State} {v : List (Option Code)} (h : runBatch frames xs s = (.ok v, t)) :
    ∃ u, (emit (.create tx.length) s).1 ≠ .fail ∧ batchBody tx xs (emit (.create tx.length) s).2 = (.ok v, u) ∧
      (emit .del u).1 ≠ .fail ∧ t = { (emit .del u).2 with seq := Seq.idle } := by
  rw [runBatch_line hp hx] at h
  split at h
  · cases h
  · next ha =>
    generalize (emit (.create tx.length) s).2 = w at h
    obtain ⟨hval, hstate⟩ := Prod.mk.inj h
    cases hb : (batchBody tx xs w).1 with
    | error e => rw [hb] at hval; cases hval
    | ok v' =>
      rw [hb] at hval
      dsimp only at hval
      split at hval
      · cases hval
      · next hd =>
        injection hval with hval
        exact ⟨(batchBody tx xs w).2, ha, by rw [← hval, ← hb], hd, hstate.symm⟩

theorem execAll_trans {is js : List Instr} {s t u : State} (h : execAll is s = .next t) (k : execAll js t = .next u) :
    execAll (is ++ js) s = .next u := (execAll_append is js s h).trans k

theorem exec_linePass_answered {s : State} (hp : s.seq.phase = .staging) (he : s.seq.err = none)
    (hn : s.seq.ptr = s.seq.n) (ha : (emit .pass s).1 ≠ .fail) :
    exec .linePass s = .next { (emit .pass s).2 with
      seq := { s.seq with phase := .committed, ptr := s.seq.n, fptr := 0 } } := by
  rw [exec_linePass hp he hn, if_neg ha]

theorem exec_lineDel_answered {s : State} (hp : s.seq.phase = .committed) (he : s.seq.err = none)
    (hs : skippable s.seq.fptr s.seq.n s = true) (ha : (emit .del s).1 ≠ .fail) :
    exec .lineDel s = .next { (emit .del s).2 with
      seq := Seq.idle, completion := some (.ok (.codes s.seq.result)) } := by
  simp only [exec_lineDel (s := s) (by simp [hp]) (.inr ⟨hp, hs⟩), he, if_neg ha]

/-- The working state that the line `CREATE` opens a batch with (R92, assumption log 6). -/
def bareSeq (n : Nat) : Seq :=
  { phase := .staging
    n := n
    tx := List.replicate n ⟨0, 0, 0⟩
    expect := List.replicate n .none
    result := List.replicate n none
    ptr := 0
    fptr := 0
    err := none }

/-- The working state of such a batch after its commit, with slots that may have been fetched. -/
def bareCommitted (n : Nat) (slots : List Triple) (f : Nat) (v : List (Option Code)) : Seq :=
  { bareSeq n with phase := .committed, tx := slots, ptr := n, fptr := f, result := v }

/-- A body that ends well is its lines executed one after another, in a batch that the line `CREATE` has opened; what is
left to do is `DEL`. -/
theorem execAll_bodyLines {tx : List Triple} {xs : List Expect} (hx : xs.length = tx.length) {s t : State}
    {v : List (Option Code)} (h : batchBody tx xs s = (.ok v, t)) :
    ∃ slots f, execAll ((bodyLines tx xs).map lineInstr) { s with seq := bareSeq tx.length }
      = .next { t with seq := bareCommitted tx.length slots f v } := by
  obtain ⟨u, hstage, hpass, hfetch⟩ := batchBody_eq_ok h
  have hstage' := sendLines_blind (stageLines 0 tx) s (bareSeq tx.length)
  rw [hstage] at hstage'
  obtain ⟨slots, -, hstages⟩ := execAll_stages [] tx { s with seq := bareSeq tx.length } rfl rfl rfl rfl
    List.length_replicate hstage'
  have hcommit := exec_linePass_answered
    (s := { u with seq := { bareSeq tx.length with tx := slots, ptr := tx.length } }) rfl rfl rfl hpass
  have hfetch' := fetchRun_blind 0 xs (emit .pass u).2
    (bareCommitted tx.length slots 0 (List.replicate tx.length none))
  rw [hfetch] at hfetch'
  obtain ⟨f, hfetches⟩ := execAll_fetches 0 xs [] { (emit .pass u).2 with
      seq := bareCommitted tx.length slots 0 (List.replicate tx.length none) } rfl rfl rfl rfl (le_refl 0)
    (by rw [hx, Nat.zero_add]; rfl) (by rw [hx]; rfl) hfetch'
  refine ⟨slots, f, ?_⟩
  rw [bodyLines, List.map_append, List.map_cons]
  exact execAll_trans hstages ((execAll_cons hcommit _).trans hfetches)

/-- A batch that ends well is its lines executed one after another. -/
theorem execAll_batchInstrs {frames : List Int} {tx : List Triple} (hp : packFrames 0 frames = .ok tx)
    {xs : List Expect} (hx : xs.length = tx.length) {s t : State} (hr : Ready s) (h1 : 1 ≤ tx.length)
    (hn : tx.length ≤ s.params.maxBatch) {v : List (Option Code)} (h : runBatch frames xs s = (.ok v, t)) :
    execAll (batchInstrs tx xs) s = .next { t with completion := some (.ok (.codes v)) } := by
  obtain ⟨u, hcreate, hbody, hdel, rfl⟩ := runBatch_eq_ok hp hx h
  have hopen := exec_lineCreate hr h1 hn
  rw [if_neg hcreate] at hopen
  obtain ⟨slots, f, hlines⟩ := execAll_bodyLines hx hbody
  have hnone : ExpectsNothing (bareCommitted tx.length slots f v) := rfl
  have hclose := exec_lineDel_answered (s := { u with seq := bareCommitted tx.length slots f v }) rfl rfl
    (hnone.skip _ _) hdel
  rw [batchInstrs, List.map_append, List.map_cons]
  exact execAll_trans ((execAll_cons hopen _).trans hlines) (execAll_cons hclose [])

/-! ### The statements -/

/-- Settles O32: `runBatch_texts` for the run; packing is `packFrames_total`, `packFrames_slot` and `pack_bytes`. -/
theorem runBatchReturnsFetchedCodes : Obligations.RunBatchReturnsFetchedCodes := by
  refine ⟨fun frames expect s tx texts ts rest hr hl h1 hn hp ht hc hrep => ?_, fun frames hf => packFrames_total 0 hf,
    fun frames tx hp => ⟨packFrames_length hp, fun i k hk => ?_⟩⟩
  · have hlen := packFrames_length hp
    rw [← hlen] at hrep
    obtain ⟨f, evs, hf, hlines, hanswered, hrun⟩ := runBatch_texts hp (hl.symm.trans hlen.symm) ht hc hrep
    refine ⟨f, openedEvents tx ++ evs ++ [(⟨.del, .ok⟩ : Event)], hf, ?_, ?_, exec_runBatch_of_eq hr hl h1 hn hrun⟩
    · simp [openedEvents_line, hlines, hlen, bodyLines]
    · simp only [List.forall_mem_append]
      exact ⟨⟨openedEvents_answered tx, hanswered⟩, by simp⟩
  · obtain ⟨t, ht, hpack⟩ := packFrames_slot hp hk
    exact ⟨t, ht, hpack, pack_bytes hpack⟩

/-- Settles O33: `packFrames_firstBad`; a batch that does not pack touches nothing. -/
theorem runBatchRangeErrorNamesFirstBadFrame : Obligations.RunBatchRangeErrorNamesFirstBadFrame := by
  intro pre post k expect s hr hl hn hpre hk
  have hbad := packFrames_firstBad post hpre hk 0
  rw [Nat.zero_add] at hbad
  have h1 : 1 ≤ (pre ++ k :: post).length := List.length_pos_of_mem (List.mem_append_cons_self)
  exact exec_runBatch_of_eq hr hl h1 hn (runBatch_unpacked hbad expect s)

/-- Settles O34: `runBatch_trace`; the check that failed is the error that the command completes with. -/
theorem runBatchTraceShape : Obligations.RunBatchTraceShape := by
  intro frames expect s t h
  obtain ⟨-, hl, -, -, rfl⟩ := exec_runBatch_next h
  refine ⟨fun x hx => ?_, fun tx hp => ?_⟩
  · rw [runAct_trace, map_snd, runBatch_unpacked hx]
  · have hlen := packFrames_length hp
    rw [runAct_trace, map_snd, ← hlen]
    refine (runBatch_trace hp (hl.symm.trans hlen.symm) s).imp_right ?_
    rintro ⟨body, a, htrace, hprefix, hlast, hends⟩
    refine ⟨body, a, htrace, hprefix, hlast, hends.imp_right (Or.imp_right ?_)⟩
    rintro ⟨check, q, c, herr⟩
    exact ⟨check, q, c, by rw [runAct_error (by rw [map_fst, herr]; rfl)]⟩

/-- Settles O36: a `RUN_BATCH` that completes without an error ended in its codes, and `execAll_batchInstrs` gives its
lines. -/
theorem batchLinesRefineRunBatch : Obligations.BatchLinesRefineRunBatch := by
  intro frames expect s t tx v hp h hv
  obtain ⟨hr, hl, h1, hn, rfl⟩ := exec_runBatch_next h
  have hlen := packFrames_length hp
  rw [← hlen] at hl h1 hn
  have hok := runAct_completed hv
  cases hrun : (runBatch frames expect s).1 with
  | error x => rw [map_fst, hrun] at hok; cases hok
  | ok cs =>
    rw [runAct_ok (v := .codes cs) (by rw [map_fst, hrun]; rfl), map_snd]
    exact execAll_batchInstrs hp hl.symm hr h1 hn (by rw [← hrun])

end Sys2Proof.Machine
end

section
/-! The facade as next states (44_facade.md R180 to R188): a host command without a session and its completion, the batch
behind each voltage command, the setup lines and the session, and what the trigger does at the reference peer. -/

namespace Sys2Proof.Machine

open Sys2Proof.Safety

/-! ### Admission -/

/-- A command that needs no session completes with what its action ends in (R81, R236 a). -/
theorem hostCommand_of_eq {f : Act Value} {s t : State} {x : Except Err Value} (hp : s.seq.phase = .idle)
    (h : f s = (x, t)) : hostCommand f s = .next (complete x t) := by
  rw [hostCommand_idle f hp, runAct, h]

/-! ### Voltage access (R180, R181) -/

/-- `GET_VOLTAGE` for every peer is the batch of a DATA read, with the voltage of the fetched payload as its value. -/
theorem exec_getVoltage_batch (s : State) :
    exec .getVoltage s = ioCommand (Act.map (runBatch [frameOf (encRead .data), frameOf encNop] [.none, .reg .data])
      fun cs => .volt (c2v s.params (resultPayload 1 cs) true)) s := by
  have hread : getVoltage s = Act.map (regRead .data) (fun p => c2v s.params p true) s := rfl
  refine (ioCommand_congr (map_congr hread Value.volt)).trans ?_
  rw [regRead, map_map, map_map]

/-- `SET_VOLTAGE` inside the references is, for every peer, its batch of 3, with the payload fetched in slot 2 as its
value. -/
theorem exec_setVoltage_batch {v : Volt} {c : Payload} {s : State} (hv : v2c s.params v true = .ok c) :
    exec (.setVoltage v) s = ioCommand (Act.map
      (runBatch [frameOf (writeCode .data c), frameOf (encRead .data), frameOf (triggerFrame s.defer)]
        [.none, .none, .reg .data]) fun cs => .payload (resultPayload 2 cs)) s := by
  refine (ioCommand_congr (map_congr (setVoltage_inside hv) Value.payload)).trans ?_
  rw [map_map]

/-- `SET_VOLTAGE` outside the references touches nothing (R116, R181). -/
theorem setVoltage_outside {v : Volt} {s : State} {x : Err} (hv : v2c s.params v true = .error x) :
    setVoltage v s = (.error x, s) := by
  simp only [setVoltage, hv]

/-- The three frames of a voltage write as operands of `RUN_BATCH`. -/
theorem setVoltage_frames (c : Payload) (defer : Bool) :
    [frameOf (writeCode .data c), frameOf (encRead .data), frameOf (triggerFrame defer)]
      = [0x100000 + (c.toNat : Int), 0x900000, if defer = true then 0 else 0x400001] := by
  rw [frameOf_writeCode, frameOf_encRead]
  cases defer <;> rfl

/-- The bytes of the third frame. -/
theorem packCode_triggerFrame (defer : Bool) :
    packCode (triggerFrame defer) = if defer = true then ⟨0, 0, 0⟩ else ⟨0x40, 0, 0x01⟩ := by
  cases defer <;> rfl

/-! ### Session and clock (R184, R187) -/

/-- `SESSION_OPEN` without a session completes with what its action ends in (R184, R248 b). -/
theorem exec_sessionOpen {s t : State} {x : Except Err Unit} (hp : s.seq.phase = .idle) (hs : s.sess = .closed)
    (h : sessionOpen s = (x, t)) : exec .sessionOpen s = .next (complete (x.map fun _ => .none) t) := by
  have hadmitted : ¬ (s.seq.phase = .idle ∧ s.sess = .claimed) := by simp [hs]
  exact (if_neg hadmitted).trans (hostCommand_of_eq hp (map_of_eq h fun _ => Value.none))

/-- `SESSION_OPEN` with a CLEAR default outside the references touches nothing (R116, R184). -/
theorem sessionOpen_outside {s : State} {x : Err} (hv : v2c s.params s.params.clearDefaultV true = .error x) :
    sessionOpen s = (.error x, s) := by
  simp only [sessionOpen, hv]

/-- `SET_SPEED` under a session completes with what its setup lines end in (R187). -/
theorem exec_setSpeed {k : Nat} {s t : State} {x : Except Err Unit} (hr : Ready s) (hk : 0 < k)
    (h : sendLines (setupLines s.params.devPath k) s = (x, t)) :
    exec (.setSpeed k) s = .next (complete (x.map fun _ => .none) t) := by
  have hadmitted : ¬ (s.seq.phase = .idle ∧ s.sess = .claimed ∧ k = 0) := fun hno => hk.ne' hno.2.2
  exact (if_neg hadmitted).trans (ioCommand_of_eq hr (map_of_eq (f := setSpeed k) h fun _ => Value.none))

/-- A line completes without a value, or with its failure, whatever state the command goes on to (R84, R234). -/
theorem complete_sendLine (l : Line) (s t : State) :
    complete ((sendLine l s).1.map fun _ => .none) t = { t with
      completion := some (if (emit l s).1 = .fail then .err (.transportError l) else .ok .none) } := by
  unfold sendLine
  dsimp only
  split <;> rfl

/-- A `REG_WRITE` whose `CREATE` fails ends in that failure (R152, R234). -/
theorem regWrite_create_fail {r : Reg} {p : Payload} {s : State} (hp : p &&& regMask s.params r = p)
    (hrep : s.env.replies.head? = some .fail) :
    (regWrite r p s).1 = .error (.transportError (.create 2)) := by
  obtain ⟨rest, hrep⟩ := List.head?_eq_some_iff.1 hrep
  obtain ⟨e, -, hcreate⟩ := emit_named (.create 2) hrep Reply.noConfusion
  have hfail : (emit (.create 2) s).1 = .fail := congrArg Prod.fst hcreate
  have hrun := runBatch_line (packFrames_pair (writeCode r p) encNop) (xs := [.none, .none]) rfl s
  rw [List.length_cons, List.length_singleton, if_pos hfail] at hrun
  rw [regWrite_legal hp, map_fst, hrun]
  rfl

section
variable {s t : State} {c : Payload} (hp : s.seq.phase = .idle) (hs : s.sess = .closed)
  (hopen : sessionOpen s = regWrite .clear c t) (ht : Ready t)
include hp hs hopen ht

/-- Where the action of `SESSION_OPEN` is the CLEAR write from a claimed state, the command is that `REG_WRITE`. -/
theorem exec_sessionOpen_regWrite : exec .sessionOpen s = exec (.regWrite .clear c) t := by
  have hwrite : exec (.regWrite .clear c) t = _ := ioCommand_ready _ ht.1 ht.2
  exact (exec_sessionOpen hp hs (hopen.trans Prod.mk.eta.symm)).trans hwrite.symm

/-- There the session stays claimed whatever the write ends in, and a failed `CREATE` is what the command ends in. -/
theorem exec_sessionOpen_claimed : ∃ u, exec .sessionOpen s = .next u ∧ u.sess = .claimed ∧
    (t.env.replies.head? = some .fail → u.completion = some (.err (.transportError (.create 2)))) := by
  refine ⟨_, exec_sessionOpen hp hs (hopen.trans Prod.mk.eta.symm), ?_, fun hhead => ?_⟩
  · rw [complete_sess, (regWrite_within .clear c t).sess, ht.2]
  · rw [regWrite_create_fail (regMask_full _ c).2 hhead]
    rfl

end

/-! ### The trigger at the reference peer (R188, R206) -/

/-- A SOFT write of the LDAC bit alone pulses LDAC and nothing else (R205, R206). -/
theorem dacSoft_ldac (P : Params) (e : Env) : dacSoft P softLdacBit e = (dacLdac e).drawSdo := by
  simp [dacSoft, softLdacBit]

/-- Once the frames of an LDAC pulse are transferred, the output is what DATA was (R206, R214). -/
theorem transferred_ldac_out (s : State) :
    (transferred [packCode (writeCode .soft softLdacBit), packCode encNop] s).2.dac.out = s.env.dac.data := by
  simp [transferred, transfer, dacFrame_soft, dacFrame_nop, dacNop, dacSoft_ldac, dacLdac, openedEnv]

/-- `SET_VOLTAGE` at the reference peer: DATA takes the code, and the output as well unless the trigger is deferred. -/
theorem exec_setVoltage_ref {v : Volt} {c : Payload} {s : State} (hr : Ready s) (hw : WellBehaved s)
    (hv : v2c s.params v true = .ok c) :
    ∃ t, exec (.setVoltage v) s = .next t ∧ Ready t ∧ WellBehaved t ∧ t.params = s.params ∧
      t.completion = some (.ok (.payload c)) ∧
      t.env.dac = { s.env.dac with
        sdo := t.env.dac.sdo, data := c, out := if s.defer then s.env.dac.out else c } := by
  obtain ⟨e, evs, hmode, hreplies, hdac, hset⟩ := setVoltage_ref hw hv
  exact ⟨_, ioCommand_of_eq hr (map_of_eq hset Value.payload), ⟨rfl, hr.2⟩, ⟨hmode, hreplies⟩, rfl, rfl, hdac⟩

/-- `GET_VOLTAGE` at the reference peer answers the voltage of DATA; DATA and the output stay (R180, R209). -/
theorem exec_getVoltage_ref {s : State} (hr : Ready s) (hw : WellBehaved s) :
    ∃ t, exec .getVoltage s = .next t ∧ Ready t ∧ WellBehaved t ∧
      t.completion = some (.ok (.volt (c2v s.params s.env.dac.data true))) ∧
      t.env.dac = { s.env.dac with sdo := t.env.dac.sdo } := by
  obtain ⟨e, evs, hmode, hreplies, hdac, hread⟩ := regRead_ref (r := .data) hw Reg.noConfusion (regMask_full _ _).1
  have hvolt : getVoltage s = (_, _) := map_of_eq hread fun p => c2v s.params p true
  exact ⟨_, ioCommand_of_eq hr (map_of_eq hvolt Value.volt), ⟨rfl, hr.2⟩, ⟨hmode, hreplies⟩, rfl, hdac⟩

/-- `SOFT_LDAC` at the reference peer moves the output to DATA (R131, R206). -/
theorem exec_softLdac_ref {s : State} (hr : Ready s) (hw : WellBehaved s) :
    ∃ t, exec .softLdac s = .next t ∧ t.completion = some (.ok .none) ∧ t.env.dac.out = s.env.dac.data := by
  obtain ⟨e, evs, -, -, hdac, hwrite⟩ := regWrite_ref hw (softBit_legal s.params (.inl rfl))
  exact ⟨_, ioCommand_of_eq hr (map_of_eq hwrite fun _ => Value.none), rfl,
    (congrArg Dac.out hdac).trans (transferred_ldac_out s)⟩

end Sys2Proof.Machine
end

section
/-! The facade (44_facade.md R180 to R188): voltage access, the deferred trigger, session and clock. -/

namespace Sys2Proof.Machine

open Sys2Proof.Safety

/-- Settles O37: `regRead_named` for the named replies; for every peer the command is the batch of its DATA read. -/
theorem getVoltageConvertsData : Obligations.GetVoltageConvertsData := by
  refine ⟨fun s txt t rest hr hrep ht => ?_, fun s u hu => ?_⟩
  · obtain ⟨f, hf, hread⟩ := regRead_named .data hrep ht
    have hvolt : getVoltage s = (_, _) := map_of_eq hread fun p => c2v s.params p true
    refine ⟨f, hf, (ioCommand_of_eq hr (map_of_eq hvolt Value.volt)).trans ?_⟩
    cases decReadback s.params .data (unpackBytes t) <;> rfl
  · rw [exec_getVoltage_batch]
    exact ioCommand_fetch (packFrames_pair (encRead .data) encNop) (xs := [.none, .reg .data]) rfl (j := 1) rfl
      Expect.noConfusion (fun p => .volt (c2v s.params p true)) hu

/-- Settles O38: `setVoltage_named` for the named replies; for every peer the command is its batch of 3; outside the
references its action touches nothing. -/
theorem setVoltageSendsBatchOfThree : Obligations.SetVoltageSendsBatchOfThree := by
  refine ⟨fun v c s txt t rest hr hv hrep ht => ?_, fun v p s u hv hu => ?_, fun v s hr hout => ?_⟩
  · obtain ⟨f, hf, hset⟩ := setVoltage_named hv hrep ht
    refine ⟨f, hf, (ioCommand_of_eq hr (map_of_eq hset Value.payload)).trans ?_⟩
    rw [voltageEvents, packCode_triggerFrame]
    cases decReadback s.params .data (unpackBytes t) <;> rfl
  · rw [← setVoltage_frames] at hu
    rw [exec_setVoltage_batch hv]
    exact ioCommand_fetch (packFrames_triple (writeCode .data p) (encRead .data) (triggerFrame s.defer))
      (xs := [.none, .none, .reg .data]) rfl (j := 2) rfl Expect.noConfusion Value.payload hu
  · exact ioCommand_of_eq hr (map_of_eq (setVoltage_outside (v2c_outside hout true)) Value.payload)

/-- Settles O40: `sessionOpen_named`. -/
theorem sessionOpenSetsUpAndWritesClear : Obligations.SessionOpenSetsUpAndWritesClear := by
  intro s c rest hp hs hv hrep
  obtain ⟨f, hf, hopen⟩ := sessionOpen_named hv hrep
  exact ⟨f, hf, exec_sessionOpen hp hs hopen⟩

/-- Settles O41: the range check comes first; `sessionOpen_fail` for a failed setup line; after seven good ones
(`sessionOpen_claimed`) the command is the CLEAR write, which leaves the session as it finds it. -/
theorem sessionOpenStopsAtFirstError : Obligations.SessionOpenStopsAtFirstError := by
  refine fun s hp hs => ⟨fun x hv => exec_sessionOpen hp hs (sessionOpen_outside hv),
    fun c pre post l rest hv hlines hrep => ?_, fun c rest hv hrep => ?_⟩
  · obtain ⟨f, hf, hopen⟩ := sessionOpen_fail hv hlines hrep
    refine ⟨f, hf, (exec_sessionOpen hp hs hopen).trans ?_⟩
    rw [State.after, ← List.append_assoc]
    rfl
  · obtain ⟨f, hf, hopen⟩ := sessionOpen_claimed hv hrep
    have hwrite := exec_sessionOpen_regWrite hp hs hopen ⟨hp, rfl⟩
    obtain ⟨t, hend, hsess, hcreate⟩ := exec_sessionOpen_claimed hp hs hopen ⟨hp, rfl⟩
    exact ⟨⟨f, hf, hwrite⟩, t, hend, hsess, fun hhead => hcreate ((congrArg List.head? hf.1).trans hhead)⟩

/-- Settles O43: `sendLines_ok` and `sendLines_fail` on the setup lines with the new speed. -/
theorem setSpeedRepeatsSetup : Obligations.SetSpeedRepeatsSetup := by
  refine fun k s rest hr hk => ⟨fun hrep => ?_, fun pre post l hlines hrep => ?_⟩
  · obtain ⟨f, hf, hsetup⟩ := sendLines_ok (setupLines_command s.params.devPath k) hrep
    exact ⟨f, hf, exec_setSpeed hr hk hsetup⟩
  · have hcommand : ∀ m ∈ pre, isCommandLine m = true := fun m hm =>
      setupLines_command s.params.devPath k m (by rw [setupLines, ← hlines]; exact List.mem_append_left _ hm)
    obtain ⟨f, hf, hsetup⟩ := sendLines_fail (l := l) (post := post) hcommand hrep
    rw [hlines] at hsetup
    refine ⟨f, hf, (exec_setSpeed hr hk hsetup).trans ?_⟩
    rw [State.after, ← List.append_assoc]
    rfl

/-- Settles O51: `exec_setVoltage_ref` for the write; with the trigger deferred, `GET_VOLTAGE` reads the new DATA and
leaves the output, and `SOFT_LDAC` moves the output to DATA. -/
theorem outputMovesAtTheTrigger : Obligations.OutputMovesAtTheTrigger := by
  intro v c s hr hw hv
  obtain ⟨t, hset, hrt, hwt, hparams, hct, hdt⟩ := exec_setVoltage_ref hr hw hv
  have hdata : t.env.dac.data = c := congrArg Dac.data hdt
  refine ⟨fun hdefer => ?_, fun hdefer => ?_⟩ <;> rw [hdefer] at hdt
  · obtain ⟨u, hget, hru, hwu, hcu, hdu⟩ := exec_getVoltage_ref hrt hwt
    obtain ⟨w, hldac, hcw, how⟩ := exec_softLdac_ref hru hwu
    rw [hparams, hdata] at hcu
    have hheld : u.env.dac.data = c := (congrArg Dac.data hdu).trans hdata
    have hout : t.env.dac.out = s.env.dac.out := (congrArg Dac.out hdt :)
    exact ⟨t, u, w, hset, hct, hdata, hout, hget, hcu, (congrArg Dac.out hdu).trans hout, hldac, hcw, how.trans hheld⟩
  · exact ⟨t, hset, hct, hdata, (congrArg Dac.out hdt :), (congrArg Dac.control hdt :), (congrArg Dac.clear hdt :)⟩

/-- Settles O39: neither command has an effect but its answer and its write of the flag. -/
theorem deferFlagIsReadAndWritten : Obligations.DeferFlagIsReadAndWritten := fun _ _ hp =>
  ⟨hostCommand_result _ hp, hostCommand_idle _ hp⟩

/-- Settles O42: one line, in either session state, and the claim is given up whatever it is answered. -/
theorem sessionCloseAlwaysReleases : Obligations.SessionCloseAlwaysReleases := fun s hp =>
  ⟨(emit .release s).1, (emit .release s).2.env, answer_command rfl s.params s.env, answer_leavesReplies .release s,
    (hostCommand_of_eq hp (map_of_eq (f := sessionClose) rfl fun _ => Value.none)).trans
      (congrArg Host.Outcome.next (complete_sendLine .release s _))⟩

end Sys2Proof.Machine
end

section
/-! The wire commands (45_wire_commands.md R201 to R216): what each frame leaves at the DAC as one equation, a frame of a
batch as the command it decodes to, and the settings the reference peer records. -/

namespace Sys2Proof.Machine

open Sys2Proof.Safety

/-! ### Draws (R10, R215) -/

/-- What is drawn does not depend on the DAC. -/
@[simp] theorem Env.draw_setDac (e : Env) (d : Dac) : (e.setDac d).draw = (e.draw.1, e.draw.2.setDac d) := by
  unfold Env.draw
  rw [Env.setDac_fixedDraws]
  split <;> rfl

@[simp] theorem Env.setDac_setDac (e : Env) (d d' : Dac) : (e.setDac d).setDac d' = e.setDac d' := rfl

theorem Env.draw_fixed {e : Env} {d : Code} {ds : List Code} (h : e.fixedDraws = d :: ds) :
    e.draw = (d, { e with fixedDraws := ds }) := by
  rw [Env.draw, h]

theorem Env.draw_fixedDraws_cons (e : Env) (d : Code) (ds : List Code) :
    { e with fixedDraws := d :: ds }.draw = (d, { e with fixedDraws := ds }) := Env.draw_fixed rfl

/-! ### Writes and reads (R202 to R204, R209 to R211) -/

@[simp] theorem dacWrite_dac (P : Params) (r : Reg) (p : Payload) (e : Env) :
    (dacWrite P r p e).dac = { e.dac.write r (p &&& regMask P r) with sdo := e.draw.1 } := by
  simp [dacWrite]

@[simp] theorem dacRead_dac (r : Reg) (e : Env) :
    (dacRead r e).dac = { e.dac with sdo := readAnswer e.draw.1 r (e.dac.read r) } := by
  simp [dacRead]

/-- The answer to a read in numbers: bits 22..20 and bits 19..0 (R209, D8). -/
theorem readAnswer_toNat_fields (d : Code) (r : Reg) (v : Payload) :
    (readAnswer d r v).toNat / 1048576 % 8 = (selectCode r).toNat ∧
      (readAnswer d r v).toNat % 1048576 = v.toNat := by
  obtain ⟨hsel, hval⟩ := readAnswer_fields d r v
  rw [← selectOf_toNat, ← payloadOf_toNat, hsel, hval]
  exact ⟨rfl, rfl⟩

/-! ### SOFT writes (R205 to R208) -/

section
variable {P : Params} {p : Payload} {e : Env}

theorem dacSoft_noPulse (h0 : p.getLsbD 0 = false) (h1 : p.getLsbD 1 = false) (h2 : p.getLsbD 2 = false) :
    dacSoft P p e = e.drawSdo := by
  rw [dacSoft, h0, h1, h2]
  rfl

theorem dacSoft_onlyLdac (h0 : p.getLsbD 0 = true) (h1 : p.getLsbD 1 = false) (h2 : p.getLsbD 2 = false) :
    dacSoft P p e = (dacLdac e).drawSdo := by
  rw [dacSoft, h0, h1, h2]
  rfl

/-- The DAC whose fields are five draws, CONTROL inside its mask, in the order of assumption log 12. -/
def Dac.ofDraws (P : Params) (a b c d x : Code) : Dac :=
  { data := payloadOf a, control := payloadOf b &&& regMask P .control, clear := payloadOf c, out := payloadOf d,
    sdo := x }

/-- A CLEAR or RESET pulse and the draw of the next shift-out replace the whole DAC by five draws (U4). -/
theorem drawRegisters_drawSdo (P : Params) (e : Env) :
    (drawRegisters P e).drawSdo = e.draw.2.draw.2.draw.2.draw.2.draw.2.setDac
      (.ofDraws P e.draw.1 e.draw.2.draw.1 e.draw.2.draw.2.draw.1 e.draw.2.draw.2.draw.2.draw.1
        e.draw.2.draw.2.draw.2.draw.2.draw.1) := by
  simp [drawRegisters, Env.drawSdo, Dac.ofDraws, regMask_full]

/-- With bit 1 or 2 the LDAC bit makes no difference: the output it moves is drawn afterwards (R215, U4). -/
theorem dacSoft_fresh (h : p.getLsbD 1 = true ∨ p.getLsbD 2 = true) :
    dacSoft P p e = (drawRegisters P e).drawSdo := by
  have hpulse : (p.getLsbD 1 || p.getLsbD 2) = true := by simpa using h
  have hldac : (drawRegisters P (dacLdac e)).drawSdo = (drawRegisters P e).drawSdo := by
    simp [drawRegisters_drawSdo, dacLdac]
  unfold dacSoft
  simp only [hpulse, if_true]
  split
  · exact hldac
  · rfl

/-- Five draws that a test has fixed are the five values of the DAC after a CLEAR or RESET pulse. -/
theorem dacSoft_fixed (h : p.getLsbD 1 = true ∨ p.getLsbD 2 = true) {a b c d x : Code} {rest : List Code}
    (hd : e.fixedDraws = a :: b :: c :: d :: x :: rest) :
    dacSoft P p e = { e with fixedDraws := rest }.setDac (.ofDraws P a b c d x) := by
  rw [dacSoft_fresh h, drawRegisters_drawSdo]
  simp only [Env.draw_fixed hd, Env.draw_fixedDraws_cons]

end

/-! ### A frame of a batch and the command it decodes to (R214, R215) -/

/-- The named SOFT commands are the SOFT writes of their payloads (R206 to R208). -/
theorem exec_softWrite (p : Payload) (s : State) : exec (softWrite p) s = onDac (dacSoft s.params p) s := by
  unfold softWrite
  split
  · next h => rw [h]; rfl
  · split
    · next h => rw [h]; rfl
    · split
      · next h => rw [h]; rfl
      · rfl

theorem dacNoPayload_zero {c : Code} (h : payloadOf c = 0) (f : Env → Env) (e : Env) : dacNoPayload c f e = f e :=
  if_pos h

/-- The decoder and the DAC read the same opcode map (R76, R215). -/
theorem exec_of_decodeWire {c : Code} {i : Instr} (h : decodeWire c = .ok i) (s : State) :
    exec i s = onDac (dacFrame s.params c) s := by
  unfold decodeWire at h
  unfold onDac
  split at h
  case h_10 => cases h
  case h_1 hn | h_6 hn | h_7 hn | h_8 hn | h_9 hn =>
    obtain ⟨hp, rfl⟩ := noPayload_ok h
    simp only [dacFrame_of hn, dacNoPayload_zero hp]
    rfl
  case h_5 hn =>
    rw [dacFrame_of hn, ← Except.ok.inj h]
    exact exec_softWrite _ s
  case h_2 hn | h_3 hn | h_4 hn =>
    rw [dacFrame_of hn, ← Except.ok.inj h]
    rfl

/-! ### Lines at the reference peer (R216) -/

/-- A line that the reference peer acknowledges completes without a value. -/
theorem lineCommand_ref {l : Line} {s : State} {e : Env} (hp : s.seq.phase = .idle) (hw : WellBehaved s)
    (h : referenceLine s.params l s.env = (.ok, e)) :
    lineCommand l s = .next { s with
      env := e, trace := s.trace ++ [⟨l, .ok⟩], completion := some (.ok .none) } := by
  rw [lineCommand_idle l hp, emit_ref hw, h]
  rfl

/-! ### The statements -/

/-- Settles O15: by `exec_of_decodeWire`. -/
theorem batchFrameMeansItsWireCommand : Obligations.BatchFrameMeansItsWireCommand := by
  intro c i s h
  rw [decode_packCode] at h
  exact exec_of_decodeWire h s

/-- Settles O11: by `dacWrite_dac`; the masks of DATA and CLEAR shut nothing out. -/
theorem wireWritesStoreMaskedPayload : Obligations.WireWritesStoreMaskedPayload := by
  refine fun p s => ⟨⟨dacWrite s.params .data p s.env, rfl, ?_⟩, ⟨dacWrite s.params .control p s.env, rfl, ?_⟩,
    ⟨dacWrite s.params .clear p s.env, rfl, ?_⟩⟩
  · simp [Dac.write, regMask_full]
  · simp [Dac.write]
  · simp [Dac.write, regMask_full]

/-- Settles O12: both frames draw the next shift-out and do nothing else. -/
theorem wireNopAndSoftReadChangeNoRegister : Obligations.WireNopAndSoftReadChangeNoRegister := by
  intro s i hi
  have hexec : exec i s = onDac Env.drawSdo s := by
    rcases hi with rfl | rfl <;> rfl
  exact ⟨s.env.drawSdo, hexec, by simp⟩

/-- Settles O13: by `dacRead_dac`; the fields of the answer are those of `readAnswer_toNat_fields`. -/
theorem wireReadsAnswerInTheNextFrame : Obligations.WireReadsAnswerInTheNextFrame := by
  intro s r i hi
  have hexec : exec i s = onDac (dacRead r) s := by
    rcases hi with ⟨rfl, rfl⟩ | ⟨rfl, rfl⟩ | ⟨rfl, rfl⟩ <;> rfl
  exact ⟨dacRead r s.env, hexec, by simp [readAnswer_toNat_fields]⟩

/-- Settles O14: the equation of `dacSoft` for each case of bits 2..0; the named commands are SOFT writes by
definition. -/
theorem wireSoftWritesPulse : Obligations.WireSoftWritesPulse := by
  refine ⟨fun p s => ⟨dacSoft s.params p s.env, rfl, fun h0 h1 h2 => ?_, fun h0 h1 h2 => ?_, fun h => ?_,
    fun a b c d x rest h hd => ?_, by simp⟩, fun s => ⟨⟨_, rfl, ?_⟩, ⟨_, rfl⟩, ⟨_, rfl⟩, rfl, rfl, rfl⟩⟩
  · simp [dacSoft_noPulse h0 h1 h2]
  · simp [dacSoft_onlyLdac h0 h1 h2, dacLdac]
  · rw [dacSoft_fresh h, drawRegisters_drawSdo]
    rfl
  · rw [dacSoft_fixed h hd]
    exact ⟨rfl, rfl⟩
  · simp [dacSoft_ldac, dacLdac]

/-- Settles O18: `lineCommand_ref` for each of the eight lines. -/
theorem referencePeerRecordsSettings : Obligations.ReferencePeerRecordsSettings := fun _ _ _ hp hw =>
  ⟨lineCommand_ref hp hw rfl, lineCommand_ref hp hw rfl, lineCommand_ref hp hw rfl, lineCommand_ref hp hw rfl,
    lineCommand_ref hp hw rfl, lineCommand_ref hp hw rfl, lineCommand_ref hp hw rfl, lineCommand_ref hp hw rfl⟩

end Sys2Proof.Machine
end

section
/-! Which error decides the completion of `RUN_BATCH` (60_exceptions.md R238, R239): the first one in protocol order. -/

namespace Sys2Proof.Machine

open Sys2Proof.Safety

/-! ### The body of a batch -/

theorem firstFailure_answered {evs : List Event} (h : ∀ ev ∈ evs, ev.answer ≠ .fail) : firstFailure evs = none := by
  induction evs with
  | nil => rfl
  | cons e es ih =>
    obtain ⟨he, hes⟩ := List.forall_mem_cons.1 h
    rw [firstFailure, if_neg he, ih hes]

/-- The event fetches a response, and the check of its slot raises `x` (R155). -/
def CheckFails (P : Params) (xs : List Expect) (ev : Event) (x : Err) : Prop :=
  ∃ i u q, ev = ⟨.rxq i, .bytes u⟩ ∧ xs[i]? = some (.reg q) ∧ decReadback P q (unpackBytes u) = .error x

theorem CheckFails.answered {P : Params} {xs : List Expect} {ev : Event} {x : Err} (h : CheckFails P xs ev x) :
    ev.answer ≠ .fail := by
  obtain ⟨i, u, q, rfl, -, -⟩ := h
  exact Answer.noConfusion

theorem CheckFails.unique {P : Params} {xs : List Expect} {ev : Event} {x y : Err} (hx : CheckFails P xs ev x)
    (hy : CheckFails P xs ev y) : x = y := by
  obtain ⟨i, u, q, rfl, hq, hx⟩ := hx
  obtain ⟨j, v, p, heq, hp, hy⟩ := hy
  cases heq
  cases hq.symm.trans hp
  exact Except.error.inj (hx.symm.trans hy)

theorem PassedFetch.not_checkFails {P : Params} {xs : List Expect} {ev : Event} (h : PassedFetch P 0 xs ev) (x : Err) :
    ¬ CheckFails P xs ev x := by
  rintro ⟨i, u, q, rfl, hq, hx⟩
  obtain ⟨j, v, heq, -, hpass⟩ := h
  cases heq
  obtain ⟨p, hp⟩ := hpass q hq
  rw [hp] at hx
  cases hx

/-- A line answered with a bare `ok` fetches nothing, so no check is made of it. -/
theorem not_checkFails_okEvent (P : Params) (xs : List Expect) {ls : List Line} {ev : Event}
    (h : ev ∈ ls.map fun l => (⟨l, .ok⟩ : Event)) (x : Err) : ¬ CheckFails P xs ev x := by
  rintro ⟨i, u, q, rfl, -, -⟩
  obtain ⟨l, -, hl⟩ := List.mem_map.1 h
  cases hl

/-- What the body of a batch ends in, by its events in protocol order (R239): the first failed line decides; where no
line failed, the failed check of a response; where no check failed either, the body ends well. -/
structure FirstErrorDecides (P : Params) (xs : List Expect) (body : List Event)
    (r : Except Err (List (Option Code))) : Prop where
  line : ∀ l, firstFailure body = some l → r = .error (.transportError l)
  check : firstFailure body = none → ∀ ev ∈ body, ∀ x, CheckFails P xs ev x → r = .error x
  clean : firstFailure body = none → (∀ ev ∈ body, ∀ x, ¬ CheckFails P xs ev x) → ∃ v, r = .ok v

theorem FirstErrorDecides.of_lineFails (P : Params) (xs : List Expect) {os : List Event}
    (ho : ∀ ev ∈ os, ev.answer ≠ .fail) (l : Line) :
    FirstErrorDecides P xs (os ++ [⟨l, .fail⟩]) (.error (.transportError l)) := by
  have hfail := firstFailure_concat_fail ho l
  refine ⟨fun m hm => ?_, fun hno => absurd (hfail.symm.trans hno) (Option.some_ne_none l),
    fun hno => absurd (hfail.symm.trans hno) (Option.some_ne_none l)⟩
  obtain rfl := Option.some.inj (hfail.symm.trans hm)
  rfl

theorem FirstErrorDecides.of_checkFails {P : Params} {xs : List Expect} {os : List Event}
    (ho : ∀ ev ∈ os, ev.answer ≠ .fail) (hpass : ∀ ev ∈ os, ∀ y, ¬ CheckFails P xs ev y) {ev : Event} {x : Err}
    (hx : CheckFails P xs ev x) : FirstErrorDecides P xs (os ++ [ev]) (.error x) := by
  have hnone : firstFailure (os ++ [ev]) = none :=
    firstFailure_answered (List.forall_mem_append.2 ⟨ho, List.forall_mem_singleton.2 hx.answered⟩)
  refine ⟨fun l hl => absurd (hnone.symm.trans hl) (Option.some_ne_none l).symm, fun _ fv hfv y hy => ?_,
    fun _ hclean => absurd hx (hclean ev List.mem_concat_self x)⟩
  rcases List.mem_append.1 hfv with hfv | hfv
  · exact absurd hy (hpass fv hfv y)
  · rw [List.mem_singleton.1 hfv] at hy
    rw [hx.unique hy]

theorem FirstErrorDecides.of_clean {P : Params} {xs : List Expect} {os : List Event}
    (ho : ∀ ev ∈ os, ev.answer ≠ .fail) (hpass : ∀ ev ∈ os, ∀ y, ¬ CheckFails P xs ev y) (v : List (Option Code)) :
    FirstErrorDecides P xs os (.ok v) where
  line l hl := absurd ((firstFailure_answered ho).symm.trans hl) (Option.some_ne_none l).symm
  check _ ev hev x hx := absurd hx (hpass ev hev x)
  clean _ _ := ⟨v, rfl⟩

/-- Behind lines that were all answered `ok` the fetches hold the first error. -/
theorem FetchEnds.firstErrorDecides {P : Params} {xs : List Expect} {fs : List Event}
    {r : Except Err (List (Option Code))} (h : FetchEnds P 0 xs fs r) (ls : List Line) :
    FirstErrorDecides P xs (ls.map (fun l => ⟨l, .ok⟩) ++ fs) r := by
  have hanswered : ∀ {es : List Event}, (∀ ev ∈ es, PassedFetch P 0 xs ev) →
      ∀ ev ∈ ls.map (fun l => (⟨l, .ok⟩ : Event)) ++ es, ev.answer ≠ .fail := fun hes =>
    List.forall_mem_append.2 ⟨okEvents_answered ls, fun ev hev => (hes ev hev).answered⟩
  have hpass : ∀ {es : List Event}, (∀ ev ∈ es, PassedFetch P 0 xs ev) →
      ∀ ev ∈ ls.map (fun l => (⟨l, .ok⟩ : Event)) ++ es, ∀ y, ¬ CheckFails P xs ev y := fun hes =>
    List.forall_mem_append.2 ⟨fun _ hev => not_checkFails_okEvent P xs hev, fun ev hev => (hes ev hev).not_checkFails⟩
  rcases h with ⟨v, rfl, -, hall⟩ | ⟨pre, j, rfl, hall, rfl⟩ | ⟨pre, j, u, q, x, rfl, hall, -, hq, hdec, rfl⟩
  · exact .of_clean (hanswered hall) (hpass hall) v
  · rw [← List.append_assoc]
    exact .of_lineFails P xs (hanswered hall) _
  · rw [← List.append_assoc]
    exact .of_checkFails (hanswered hall) (hpass hall) ⟨j, u, q, rfl, hq, hdec⟩

/-! ### The whole batch -/

/-- A batch between its body and its completion: an error that is pending wins over the answer of `DEL` (R156, R239). -/
def delDecides (a : Answer) (r : Except Err (List (Option Code))) : Except Err (List (Option Code)) :=
  match r with
  | .error x => .error x
  | .ok v => if a = .fail then .error (.transportError .del) else .ok v

theorem delDecides_error (a : Answer) (x : Err) : delDecides a (.error x) = .error x := rfl

theorem delDecides_failed (v : List (Option Code)) : delDecides .fail (.ok v) = .error (.transportError .del) := rfl

theorem delDecides_answered {a : Answer} (h : a ≠ .fail) (v : List (Option Code)) : delDecides a (.ok v) = .ok v :=
  if_neg h

/-- What a batch ends in, by what it appended to the trace: a failed `CREATE` is its error; behind an opened batch the
body decides first, then `DEL`. -/
theorem runBatch_firstError {frames : List Int} {tx : List Triple} (hp : packFrames 0 frames = .ok tx)
    {xs : List Expect} (hx : xs.length = tx.length) (s : State) :
    ((runBatch frames xs s).2.trace = s.trace ++ [⟨.create tx.length, .fail⟩] ∧
        (runBatch frames xs s).1 = .error (.transportError (.create tx.length))) ∨
      ∃ body r a, (runBatch frames xs s).2.trace = s.trace ++ (⟨.create tx.length, .ok⟩ :: body ++ [⟨.del, a⟩]) ∧
        FirstErrorDecides s.params xs body r ∧ (runBatch frames xs s).1 = delDecides a r := by
  rcases runBatch_shape hp hx s with ⟨e, -, hrun⟩ | ⟨e, body, r, a, -, -, -, hbody, hrun⟩
  · exact .inl ⟨by rw [hrun]; rfl, by rw [hrun]⟩
  · refine .inr ⟨body, r, a, by rw [hrun]; rfl, ?_, by rw [hrun]; rfl⟩
    rcases hbody with ⟨pre, l, rfl, rfl⟩ | ⟨fs, rfl, hfetch⟩
    · exact .of_lineFails _ xs (okEvents_answered pre) l
    · exact hfetch.firstErrorDecides _

/-- What an opened batch appended to the trace determines its body and the answer of `DEL`. -/
theorem openedTrace_inj {ts : List Event} {c : Line} {body body' : List Event} {a a' : Answer}
    (h : ts ++ (⟨c, .ok⟩ :: body ++ [⟨.del, a⟩]) = ts ++ (⟨c, .ok⟩ :: body' ++ [⟨.del, a'⟩])) :
    body = body' ∧ a = a' := by
  simpa using h

/-- A batch that appended something to the trace had frames that packed (R151). -/
theorem packFrames_of_emitted {frames : List Int} {xs : List Expect} {s : State} {evs : List Event}
    (h : (runBatch frames xs s).2.trace = s.trace ++ evs) (hne : evs ≠ []) : ∃ tx, packFrames 0 frames = .ok tx := by
  cases hp : packFrames 0 frames with
  | ok tx => exact ⟨tx, rfl⟩
  | error x =>
    rw [runBatch_unpacked hp] at h
    exact absurd (List.self_eq_append_right.1 h) hne

/-- A batch that opened ends as its body and then `DEL` decide. -/
theorem runBatch_opened {frames : List Int} {xs : List Expect} (hl : frames.length = xs.length) {s : State}
    {body : List Event} {a : Answer}
    (h : (runBatch frames xs s).2.trace = s.trace ++ (⟨.create frames.length, .ok⟩ :: body ++ [⟨.del, a⟩])) :
    ∃ r, FirstErrorDecides s.params xs body r ∧ (runBatch frames xs s).1 = delDecides a r := by
  obtain ⟨tx, hp⟩ := packFrames_of_emitted h (by simp)
  have hlen := packFrames_length hp
  rw [← hlen] at hl h
  rcases runBatch_firstError hp hl.symm s with ⟨htrace, -⟩ | ⟨body', r, a', htrace, hdecides, hval⟩
  · simp [htrace] at h
  · obtain ⟨rfl, rfl⟩ := openedTrace_inj (htrace.symm.trans h)
    exact ⟨r, hdecides, hval⟩

/-- A batch whose `CREATE` failed ends in that error (R152). -/
theorem runBatch_createFails {frames : List Int} {xs : List Expect} (hl : frames.length = xs.length) {s : State}
    (h : (runBatch frames xs s).2.trace = s.trace ++ [⟨.create frames.length, .fail⟩]) :
    (runBatch frames xs s).1 = .error (.transportError (.create frames.length)) := by
  obtain ⟨tx, hp⟩ := packFrames_of_emitted h (by simp)
  have hlen := packFrames_length hp
  rw [← hlen] at hl h ⊢
  rcases runBatch_firstError hp hl.symm s with ⟨-, hval⟩ | ⟨body, r, a, htrace, -, -⟩
  · exact hval
  · simp [htrace] at h

theorem runBatch_completes_error {frames : List Int} {xs : List Expect} {s : State} {x : Err}
    (h : (runBatch frames xs s).1 = .error x) :
    (runAct (Act.map (runBatch frames xs) .codes) s).completion = some (.err x) := by
  rw [runAct_error (by rw [map_fst, h]; rfl)]

theorem runBatch_completes_ok {frames : List Int} {xs : List Expect} {s : State} {v : List (Option Code)}
    (h : (runBatch frames xs s).1 = .ok v) :
    (runAct (Act.map (runBatch frames xs) .codes) s).completion = some (.ok (.codes v)) := by
  rw [runAct_ok (by rw [map_fst, h]; rfl)]

/-! ### The statement -/

/-- Settles O35: `runBatch_opened` and `runBatch_createFails`; the command completes with what its batch ends in. -/
theorem runBatchFirstErrorWins : Obligations.RunBatchFirstErrorWins := by
  refine ⟨fun frames expect s t body a hl h htrace => ?_, fun frames expect s t h htrace => ?_⟩
  · obtain ⟨-, -, -, -, rfl⟩ := exec_runBatch_next h
    rw [runAct_trace, map_snd] at htrace
    obtain ⟨r, hdecides, hval⟩ := runBatch_opened hl htrace
    refine ⟨fun l hfail => runBatch_completes_error ?_, fun hnone => ⟨fun i u q x hev hq hdec =>
      runBatch_completes_error ?_, fun hpass => ?_⟩⟩
    · rw [hval, hdecides.line l hfail, delDecides_error]
    · rw [hval, hdecides.check hnone _ hev x ⟨i, u, q, rfl, hq, hdec⟩, delDecides_error]
    · obtain ⟨v, rfl⟩ := hdecides.clean hnone fun ev hev x hx => by
        obtain ⟨i, u, q, rfl, hq, hdec⟩ := hx
        obtain ⟨p, hp⟩ := hpass i u q hev hq
        rw [hp] at hdec
        cases hdec
      refine ⟨fun ha => runBatch_completes_error ?_, fun ha => ⟨v, runBatch_completes_ok ?_⟩⟩
      · rw [hval, ha, delDecides_failed]
      · rw [hval, delDecides_answered ha]
  · obtain ⟨-, hl, -, -, rfl⟩ := exec_runBatch_next h
    rw [runAct_trace, map_snd] at htrace
    exact runBatch_completes_error (runBatch_createFails hl htrace)

end Sys2Proof.Machine
end
